-- ==== Sys2Proof/Word.lean ====
section
/-! DEFINITION. The words of the block: a register-window word, a byte of a buffer, a 16-bit sample. -/

namespace Sys2Proof

/-- A word of the host window: every host access moves 32 bits (20_memory.md R104). -/
abbrev Word := BitVec 32

/-- A codeword, or one byte lane of a buffer element (30_encoding.md R141). -/
abbrev Byte := BitVec 8

/-- The set i16 of 00_scope.md R15, as the 16 bits that hold it; its value is `BitVec.toInt`. -/
abbrev I16 := BitVec 16

end Sys2Proof
end

