-- ==== Sys2Proof/Config.lean ====
section
/-! DEFINITION. What an implementation fixes: the parameter profile (00_scope.md section 4), as types, and the
OPEN parameters of 00_scope.md R11 as constants WITHOUT a body, each brought into the range its rule gives it by
construction, so that every claim about them holds for every value a profile may have.

The values of the reference profile stand in Machine/Tables.lean. -/

namespace Sys2Proof

/-- The signal classes of 10_state.md R63. The values 5 to 7 are never held: there is no constructor for them. -/
inductive SigClass where
  | unvoiced
  | voiced
  | weaklyVoiced
  | transient
  | vuvTransition
  deriving DecidableEq, Repr

/-- The four low-band rate modes of 30_encoding.md R142, named by the bits of the index they keep. -/
inductive LMode where
  | bits6
  | bits5
  | bits4
  | bits3
  deriving DecidableEq, Repr

/-- The two high-band rate modes of 30_encoding.md R143. -/
inductive HMode where
  | bits2
  | bits3
  deriving DecidableEq, Repr

/-- The parameters of the packet-loss concealment (00_scope.md R11). Reals are rationals (log 1), and a correlation
is handed over as its signed square (log 2). -/
structure PlcParams where
  /-- `MAXPIT` -/
  maxPit : Nat
  /-- `MINPIT` -/
  minPit : Nat
  /-- `DC_A` (45_plc_analysis.md R331) -/
  dcA : Rat
  /-- `LPC_WIN[0..79]` (R332) -/
  lpcWin : Nat → Rat
  /-- `LAGW[0..8]` (R333) -/
  lagW : Nat → Rat
  /-- `DECIM_LP[0..8]` (R337) -/
  decimLp : Nat → Rat
  /-- `PITCH_SELECT` (R340): the correlations of the lags `τmin .. τmax` in order to one or two lags -/
  pitchSelect : List Rat → Nat × Option Nat
  /-- `CLASS_DOWNGRADE` (R344): `cmax`, `DEC.L.nb`, `DEC.H.nb` -/
  classDowngrade : Rat → I16 → I16 → SigClass
  /-- `ZC_SAFEGUARD` (R345): `zc`, `t0`, `cmax` -/
  zcSafeguard : Nat → Nat → Rat → Bool
  /-- `PULSE_ALIGN` (R349): `exc`, `t0` -/
  pulseAlign : List Rat → Nat → Nat
  /-- `JITTER_CLASSES` (46_plc_synthesis.md R382) -/
  jitterClass : SigClass → Bool
  /-- `ATT_SLOPE[c][0..2]` (R386) -/
  attSlope : SigClass → Nat → Rat
  /-- `ATT_END[c]` (R386) -/
  attEnd : SigClass → Nat
  /-- `XF_TAIL_TRANSIENT(k)` (R388) -/
  xfTail : Nat → Rat
  /-- `RECONV_LEAK` (R395) -/
  reconvLeak : Rat
  /-- `PLC_ROUND` (00_scope.md R22) -/
  round : Rat → Int

/-- `HIST_L = 2*MAXPIT + LPC_ORDER + 1` (00_scope.md R10). -/
def PlcParams.histLen (P : PlcParams) : Nat := 2 * P.maxPit + 8 + 1

/-- `EXC_LEN = 2*MAXPIT + 1` (00_scope.md R10). -/
def PlcParams.excLen (P : PlcParams) : Nat := 2 * P.maxPit + 1

/-- `τmin = ceil(MINPIT / 4)` (45_plc_analysis.md R339). -/
def PlcParams.tauMin (P : PlcParams) : Nat := (P.minPit + 3) / 4

/-- `τmax = floor(MAXPIT / 4)` (45_plc_analysis.md R339). -/
def PlcParams.tauMax (P : PlcParams) : Nat := P.maxPit / 4

/-- A profile: one assignment of values to every parameter that 00_scope.md R10 to R12 leave to it. A table is a
function of its index, so a look-up has no index out of range. -/
structure Profile where
  /-- `QMF_H[0..23]` -/
  qmfH : Vector I16 24
  qmfTxShift : Nat
  qmfRxShift : Nat
  /-- `Q6[1..29]`, in order -/
  q6 : List I16
  qlShift : Nat
  /-- `ILN[1..30]` -/
  iln : Nat → BitVec 6
  /-- `ILP[1..30]` -/
  ilp : Nat → BitVec 6
  qhThr : I16
  /-- `IHN[1..2]` -/
  ihn : Nat → BitVec 2
  /-- `IHP[1..2]` -/
  ihp : Nat → BitVec 2
  /-- `INVQ_L[0]` -/
  invq0 : BitVec 6 → I16
  /-- `INVQ_L[1]` -/
  invq1 : BitVec 6 → I16
  /-- `INVQ_L[2]` -/
  invq2 : BitVec 6 → I16
  /-- `INVQ_L[3]`: a profile may lack it (30_encoding.md R142) -/
  invq3 : Option (BitVec 6 → I16)
  qm4 : BitVec 4 → I16
  qm2 : BitVec 2 → I16
  coreShift : Nat
  rl42 : BitVec 4 → Fin 8
  wl : Fin 8 → I16
  rh2 : BitVec 2 → Fin 3
  wh : Fin 3 → I16
  /-- `NB_LEAK`, its multiplier -/
  nbLeakMul : Nat
  /-- `NB_LEAK`, its shift -/
  nbLeakShift : Nat
  /-- `ILA[0..352]` -/
  ila : Nat → I16
  ilaOffL : Nat
  ilaOffH : Nat
  upzeroLeak : I16
  upzeroStep : I16
  uppol2Leak : I16
  uppol2Step : I16
  uppol1Leak : I16
  uppol1Step : I16
  hbLimit : Bool
  /-- `FILTEZ_ORDER` -/
  filtezOrder : List (Fin 7)
  /-- the `OPEN` parameters of the concealment -/
  plc : PlcParams

/-- `INVQ_L[m]`, absent where the profile does not define it (43_quantizers.md R270). -/
def Profile.invq (P : Profile) : LMode → Option (BitVec 6 → I16)
  | .bits6 => some P.invq0
  | .bits5 => some P.invq1
  | .bits4 => some P.invq2
  | .bits3 => P.invq3

namespace Config

/-! ### The OPEN parameters (00_scope.md R11; log 4)

Each `…Raw` constant has no body: nothing is known of its value. The definition after it maps it onto exactly the
values that the parameter's rule allows. -/

opaque maxPitRaw : Nat
opaque minPitRaw : Nat
opaque dcANumRaw : Nat
opaque dcADenRaw : Nat
opaque lpcWinRaw : Nat → Rat
opaque lagWRaw : Nat → Rat
opaque decimLpRaw : Nat → Rat
opaque pitchSelectRaw : List Rat → Nat × Option Nat
opaque classDowngradeRaw : Rat → I16 → I16 → Bool
opaque zcSafeguardRaw : Nat → Nat → Rat → Bool
opaque pulseAlignRaw : List Rat → Nat → Nat
opaque jitterClassRaw : SigClass → Bool
opaque attSlopeRaw : SigClass → Nat → Rat
opaque attEndRaw : SigClass → Nat
opaque xfTailRaw : Nat → Rat
opaque reconvNumRaw : Nat
opaque reconvDenRaw : Nat
opaque roundUpRaw : Rat → Bool

/-- What a PLC-window word reads when its count does not fit 32 bits: 20_memory.md R103 gives no value (log 14). -/
opaque wideCountRead : Nat → Word

/-- `MAXPIT`: any value in [40, 160] (45_plc_analysis.md R353). -/
def maxPit : Nat := 40 + maxPitRaw % 121

/-- `MINPIT`: any value in [4, MAXPIT] for which the lag range of R339 is not empty (R353; log 5). -/
def minPit : Nat := 4 + minPitRaw % (4 * (maxPit / 4) - 3)

/-- `DC_A`: any rational in (0, 1) (R353). -/
def dcA : Rat := ((dcANumRaw + 1 : Nat) : Rat) / ((dcANumRaw + dcADenRaw + 2 : Nat) : Rat)

/-- `LPC_WIN[i]`: at least 0 (R353). -/
def lpcWin (i : Nat) : Rat := if lpcWinRaw i < 0 then -lpcWinRaw i else lpcWinRaw i

/-- `LAGW[k]`: more than 0 (R353). -/
def lagW (k : Nat) : Rat := if 0 < lagWRaw k then lagWRaw k else 1

/-- A lag brought into `τmin .. τmax` (R340). -/
def tauInRange (τ : Nat) : Nat :=
  (minPit + 3) / 4 + τ % (maxPit / 4 + 1 - (minPit + 3) / 4)

/-- `PITCH_SELECT`: one or two lags in `[τmin, τmax]` (R340). -/
def pitchSelect (c : List Rat) : Nat × Option Nat :=
  (tauInRange (pitchSelectRaw c).1, (pitchSelectRaw c).2.map tauInRange)

/-- `CLASS_DOWNGRADE`: `WEAKLY_VOICED` or `VUV_TRANSITION` (R344). -/
def classDowngrade (cmax : Rat) (nbL nbH : I16) : SigClass :=
  if classDowngradeRaw cmax nbL nbH then .vuvTransition else .weaklyVoiced

/-- `PULSE_ALIGN`: a lag in `[MINPIT, t0]` (R349). -/
def pulseAlign (exc : List Rat) (t0 : Nat) : Nat :=
  minPit + pulseAlignRaw exc t0 % (t0 + 1 - minPit)

/-- `ATT_SLOPE[c][k]`: at least 0 (46_plc_synthesis.md R386). -/
def attSlope (c : SigClass) (k : Nat) : Rat :=
  if attSlopeRaw c k < 0 then -attSlopeRaw c k else attSlopeRaw c k

/-- `XF_TAIL_TRANSIENT(k)`: in [0, 1] (R388). -/
def xfTail (k : Nat) : Rat :=
  if xfTailRaw k < 0 then 0 else if 1 < xfTailRaw k then 1 else xfTailRaw k

/-- `RECONV_LEAK`: in (0, 1 - 1/15360] (R396; log 7). -/
def reconvLeak : Rat :=
  let v : Rat := ((reconvNumRaw + 1 : Nat) : Rat) / ((reconvNumRaw + reconvDenRaw + 2 : Nat) : Rat)
  if v < 15359 / 15360 then v else 15359 / 15360

/-- `PLC_ROUND`: the floor or the ceiling of its argument, whichever the profile takes (00_scope.md R22; log 6). -/
def plcRound (v : Rat) : Int := if roundUpRaw v then v.ceil else v.floor

/-- The `OPEN` parameters of the concealment, gathered. -/
def plc : PlcParams where
  maxPit := maxPit
  minPit := minPit
  dcA := dcA
  lpcWin := lpcWin
  lagW := lagW
  decimLp := decimLpRaw
  pitchSelect := pitchSelect
  classDowngrade := classDowngrade
  zcSafeguard := zcSafeguardRaw
  pulseAlign := pulseAlign
  jitterClass := jitterClassRaw
  attSlope := attSlope
  attEnd := attEndRaw
  xfTail := xfTail
  reconvLeak := reconvLeak
  round := plcRound

end Config

end Sys2Proof
end

