-- ==== Sys2Proof/Syntax.lean ====
section
/-! DEFINITION. The commands of 30_encoding.md R146, one constructor per row of spec/opcode_table.json. A constructor
carries the fields its row marks "used"; a field a command ignores is no part of it (R145; log 15). -/

namespace Sys2Proof

inductive Instr where
  /-- `NOP`, 0x00 -/
  | nop
  /-- `RESET_ENC`, 0x01 -/
  | resetEnc
  /-- `RESET_DEC`, 0x02 -/
  | resetDec
  /-- `PLC_RESET`, 0x03 -/
  | plcReset
  /-- `RESET_ALL`, 0x04 -/
  | resetAll
  /-- `QMF_TX`, 0x10 -/
  | qmfTx
  /-- `QMF_RX`, 0x11 -/
  | qmfRx
  /-- `ENC_L`, 0x20 -/
  | encL (m : LMode)
  /-- `ENC_H`, 0x21 -/
  | encH (h : HMode)
  /-- `DEC_L`, 0x22 -/
  | decL (m : LMode)
  /-- `DEC_H`, 0x23 -/
  | decH (h : HMode)
  /-- `ENC_PAIR`, 0x30 -/
  | encPair (m : LMode) (h : HMode)
  /-- `DEC_PAIR`, 0x31 -/
  | decPair (m : LMode) (h : HMode)
  /-- `ENC_FRAME`, 0x40 -/
  | encFrame (m : LMode) (h : HMode)
  /-- `DEC_FRAME`, 0x41; `loss` is the frame-loss flag `bfi` (30_encoding.md R144) -/
  | decFrame (m : LMode) (h : HMode) (loss : Bool)
  /-- `SAT`, 0x50 -/
  | sat
  /-- `SADD`, 0x51 -/
  | sadd
  /-- `SSUB`, 0x52 -/
  | ssub
  /-- `SMULQ15`, 0x53 -/
  | smulq15
  /-- `SSHL`, 0x54 -/
  | sshl
  /-- `SSHR`, 0x55 -/
  | sshr
  deriving DecidableEq, Repr

/-- The low-band mode a command uses, where R146 marks `LMODE` used. -/
def Instr.lmode? : Instr → Option LMode
  | .encL m => some m
  | .decL m => some m
  | .encPair m _ => some m
  | .decPair m _ => some m
  | .encFrame m _ => some m
  | .decFrame m _ _ => some m
  | .nop => none
  | .resetEnc => none
  | .resetDec => none
  | .plcReset => none
  | .resetAll => none
  | .qmfTx => none
  | .qmfRx => none
  | .encH _ => none
  | .decH _ => none
  | .sat => none
  | .sadd => none
  | .ssub => none
  | .smulq15 => none
  | .sshl => none
  | .sshr => none

/-- The high-band mode a command uses, where R146 marks `HMODE` used. -/
def Instr.hmode? : Instr → Option HMode
  | .encH h => some h
  | .decH h => some h
  | .encPair _ h => some h
  | .decPair _ h => some h
  | .encFrame _ h => some h
  | .decFrame _ h _ => some h
  | .nop => none
  | .resetEnc => none
  | .resetDec => none
  | .plcReset => none
  | .resetAll => none
  | .qmfTx => none
  | .qmfRx => none
  | .encL _ => none
  | .decL _ => none
  | .sat => none
  | .sadd => none
  | .ssub => none
  | .smulq15 => none
  | .sshl => none
  | .sshr => none

end Sys2Proof
end

