-- ==== Sys2Proof/WellFormed.lean ====
section
/-! DEFINITION. Which commands a profile lets run: the mode checks of 43_quantizers.md R270. An ill-formed command
still decodes; running it raises `Error(RSVD_MODE)` (30_encoding.md R149). -/

namespace Sys2Proof

/-- `check_mode_l(m)` passes: the profile defines `INVQ_L[m]`. -/
def LMode.legal (P : Profile) (m : LMode) : Bool := (P.invq m).isSome

/-- `check_mode_h(h)` passes: the mode is the 2-bit quantizer. -/
def HMode.legal : HMode → Bool
  | .bits2 => true
  | .bits3 => false

/-- Every mode the command uses is legal under the profile. -/
def Instr.wellFormed (P : Profile) (i : Instr) : Bool :=
  (match i.lmode? with | some m => m.legal P | none => true)
    && (match i.hmode? with | some h => h.legal | none => true)

end Sys2Proof
end

