-- ==== Sys2Proof/Decode.lean ====
section
/-! DEFINITION. The command word `CMDW` (30_encoding.md R140) read into a command, and a command written back into a
word. The rows are those of R146. -/

namespace Sys2Proof

/-- Why a command word is no command (60_exceptions.md R433, its first two checks). -/
inductive DecodeError where
  /-- `OPC` is not in the opcode map (30_encoding.md R147) -/
  | illegalOpc
  /-- `OPC` is legal and `RSV` is not 0 (30_encoding.md R148) -/
  | rsvdBits
  deriving DecidableEq, Repr

/-- The two bits of `LMODE` (30_encoding.md R142). -/
def LMode.code : LMode → BitVec 2
  | .bits6 => 0#2
  | .bits5 => 1#2
  | .bits4 => 2#2
  | .bits3 => 3#2

def LMode.ofCode (c : BitVec 2) : LMode :=
  if c = 0#2 then .bits6 else if c = 1#2 then .bits5 else if c = 2#2 then .bits4 else .bits3

/-- The bit of `HMODE` (30_encoding.md R143). -/
def HMode.code : HMode → BitVec 1
  | .bits2 => 0#1
  | .bits3 => 1#1

def HMode.ofCode (c : BitVec 1) : HMode := if c = 0#1 then .bits2 else .bits3

/-- Field `OPC`, bits [7:0]. -/
def opcOf (v : Word) : BitVec 8 := v.extractLsb' 0 8

/-- Field `LMODE`, bits [9:8]. -/
def lmodeOf (v : Word) : LMode := LMode.ofCode (v.extractLsb' 8 2)

/-- Field `HMODE`, bit [10]. -/
def hmodeOf (v : Word) : HMode := HMode.ofCode (v.extractLsb' 10 1)

/-- Field `LOSS`, bit [11]. -/
def lossOf (v : Word) : Bool := v.extractLsb' 11 1 == 1#1

/-- Field `RSV`, bits [31:12]. -/
def rsvOf (v : Word) : BitVec 20 := v.extractLsb' 12 20

/-- A row of the opcode map: the opcode, and the command made of the three fields. -/
structure OpcRow where
  opc : BitVec 8
  make : LMode → HMode → Bool → Instr

/-- The opcode map (30_encoding.md R146). -/
def opcRows : List OpcRow :=
  [ ⟨0x00#8, fun _ _ _ => .nop⟩,
    ⟨0x01#8, fun _ _ _ => .resetEnc⟩,
    ⟨0x02#8, fun _ _ _ => .resetDec⟩,
    ⟨0x03#8, fun _ _ _ => .plcReset⟩,
    ⟨0x04#8, fun _ _ _ => .resetAll⟩,
    ⟨0x10#8, fun _ _ _ => .qmfTx⟩,
    ⟨0x11#8, fun _ _ _ => .qmfRx⟩,
    ⟨0x20#8, fun m _ _ => .encL m⟩,
    ⟨0x21#8, fun _ h _ => .encH h⟩,
    ⟨0x22#8, fun m _ _ => .decL m⟩,
    ⟨0x23#8, fun _ h _ => .decH h⟩ ] ++
  [ ⟨0x30#8, fun m h _ => .encPair m h⟩,
    ⟨0x31#8, fun m h _ => .decPair m h⟩,
    ⟨0x40#8, fun m h _ => .encFrame m h⟩,
    ⟨0x41#8, fun m h l => .decFrame m h l⟩,
    ⟨0x50#8, fun _ _ _ => .sat⟩,
    ⟨0x51#8, fun _ _ _ => .sadd⟩,
    ⟨0x52#8, fun _ _ _ => .ssub⟩,
    ⟨0x53#8, fun _ _ _ => .smulq15⟩,
    ⟨0x54#8, fun _ _ _ => .sshl⟩,
    ⟨0x55#8, fun _ _ _ => .sshr⟩ ]

/-- The row of an opcode; none where the opcode is illegal (30_encoding.md R147). -/
def opcRow (o : BitVec 8) : Option OpcRow := opcRows.find? fun r => r.opc == o

/-- Decode a command word: the checks of 60_exceptions.md R433 that need no profile, in their order. The modes are
checked when the command runs. -/
def decode (v : Word) : Except DecodeError Instr :=
  match opcRow (opcOf v) with
  | none => .error .illegalOpc
  | some r => if rsvOf v = 0#20 then .ok (r.make (lmodeOf v) (hmodeOf v) (lossOf v)) else .error .rsvdBits

/-- A command word from its fields: `OPC | lmode << 8 | hmode << 10 | loss << 11` (30_encoding.md R152). -/
def cmdWord (opc : BitVec 8) (m : LMode) (h : HMode) (loss : Bool) : Word :=
  opc.setWidth 32 ||| (m.code.setWidth 32 <<< 8) ||| (h.code.setWidth 32 <<< 10)
    ||| ((BitVec.ofBool loss).setWidth 32 <<< 11)

/-- The command word of a command; a field it ignores is 0 (R152, "An omitted field is 0"). -/
def encode : Instr → Word
  | .nop => cmdWord 0x00#8 .bits6 .bits2 false
  | .resetEnc => cmdWord 0x01#8 .bits6 .bits2 false
  | .resetDec => cmdWord 0x02#8 .bits6 .bits2 false
  | .plcReset => cmdWord 0x03#8 .bits6 .bits2 false
  | .resetAll => cmdWord 0x04#8 .bits6 .bits2 false
  | .qmfTx => cmdWord 0x10#8 .bits6 .bits2 false
  | .qmfRx => cmdWord 0x11#8 .bits6 .bits2 false
  | .encL m => cmdWord 0x20#8 m .bits2 false
  | .encH h => cmdWord 0x21#8 .bits6 h false
  | .decL m => cmdWord 0x22#8 m .bits2 false
  | .decH h => cmdWord 0x23#8 .bits6 h false
  | .encPair m h => cmdWord 0x30#8 m h false
  | .decPair m h => cmdWord 0x31#8 m h false
  | .encFrame m h => cmdWord 0x40#8 m h false
  | .decFrame m h l => cmdWord 0x41#8 m h l
  | .sat => cmdWord 0x50#8 .bits6 .bits2 false
  | .sadd => cmdWord 0x51#8 .bits6 .bits2 false
  | .ssub => cmdWord 0x52#8 .bits6 .bits2 false
  | .smulq15 => cmdWord 0x53#8 .bits6 .bits2 false
  | .sshl => cmdWord 0x54#8 .bits6 .bits2 false
  | .sshr => cmdWord 0x55#8 .bits6 .bits2 false

/-- The bits of a command word that decide which command it is: `OPC`, `RSV` and the fields R146 marks used
(30_encoding.md R145, R146). The other bits of [11:8] are ignored. -/
def usedMask : Instr → Word
  | .nop => 0xFFFFF0FF
  | .resetEnc => 0xFFFFF0FF
  | .resetDec => 0xFFFFF0FF
  | .plcReset => 0xFFFFF0FF
  | .resetAll => 0xFFFFF0FF
  | .qmfTx => 0xFFFFF0FF
  | .qmfRx => 0xFFFFF0FF
  | .encL _ => 0xFFFFF3FF
  | .encH _ => 0xFFFFF4FF
  | .decL _ => 0xFFFFF3FF
  | .decH _ => 0xFFFFF4FF
  | .encPair _ _ => 0xFFFFF7FF
  | .decPair _ _ => 0xFFFFF7FF
  | .encFrame _ _ => 0xFFFFF7FF
  | .decFrame _ _ _ => 0xFFFFFFFF
  | .sat => 0xFFFFF0FF
  | .sadd => 0xFFFFF0FF
  | .ssub => 0xFFFFF0FF
  | .smulq15 => 0xFFFFF0FF
  | .sshl => 0xFFFFF0FF
  | .sshr => 0xFFFFF0FF

/-- The command word that the table numbers `w` (bit 0 least significant; `nbits` bits given, the rest 0). -/
def tableWord (nbits w : Nat) : Word := BitVec.ofNat 32 (w % 2 ^ nbits)

/-- The command the decoder reads from a row's bits. -/
def decodeTableWord (nbits w : Nat) : Option Instr :=
  match decode (tableWord nbits w) with
  | .ok i => some i
  | .error _ => none

end Sys2Proof
end

