-- ==== Sys2Proof/Machine/State.lean ====
section
/-! DEFINITION. The state of the block (10_state.md), as plain data, and its value after power-on reset
(70_reset_and_hazards.md R470). -/

namespace Sys2Proof.Machine

/-! ### Host registers (10_state.md section 2) -/

/-- The host registers that hold a value (10_state.md R41). `ID` and `CMD` hold none (log 16). -/
structure Regs where
  /-- `FRAMELEN`, codewords per frame (R44) -/
  frameLen : Nat
  /-- `X0`, earlier PCM input sample (R45) -/
  x0 : I16
  /-- `X1`, later PCM input sample -/
  x1 : I16
  /-- `XL`, low-band sample -/
  xl : I16
  /-- `XH`, high-band sample -/
  xh : I16
  /-- `IL`, low-band index (R46) -/
  il : BitVec 6
  /-- `IH`, high-band index -/
  ih : BitVec 2
  /-- `CODE`, codeword -/
  code : Byte
  /-- `Y0`, earlier PCM output sample (R45) -/
  y0 : I16
  /-- `Y1`, later PCM output sample -/
  y1 : I16
  /-- `NS_TGT`, noise-shaping pre-quantization target -/
  nsTgt : I16
  /-- `NS_ERR`, noise-shaping local-decode error -/
  nsErr : I16
  /-- `SAT_A` (R47) -/
  satA : Word
  /-- `SAT_B` -/
  satB : Word
  /-- `SAT_R`, result of the saturating unit -/
  satR : I16
  deriving DecidableEq, Repr

/-- The fields of `STATUS` that hold a value (10_state.md R43); the others are constants or mirrors (log 16). -/
structure Status where
  /-- `ERR` -/
  err : Bool
  /-- `ERRCODE` -/
  errCode : BitVec 4
  deriving DecidableEq, Repr

/-- The error codes of 60_exceptions.md R431. -/
inductive ErrCode where
  | illegalOpc
  | rsvdBits
  | rsvdMode
  | bus
  deriving DecidableEq, Repr

/-! ### Codec contexts (10_state.md section 3) -/

/-- A band sub-state (10_state.md R56). -/
structure Band where
  /-- pole-predictor coefficients `a[0..2]` -/
  a : Vector I16 3
  /-- zero-predictor coefficients `b[0..6]` -/
  b : Vector I16 7
  /-- difference-signal history `d[0..6]` -/
  d : Vector I16 7
  /-- partial-reconstruction history `p[0..2]` -/
  p : Vector I16 3
  /-- reconstructed-signal history `r[0..2]` -/
  r : Vector I16 3
  /-- log step size -/
  nb : I16
  /-- linear step size -/
  det : I16
  /-- predictor output -/
  s : I16
  /-- pole-section output -/
  sp : I16
  /-- zero-section output -/
  sz : I16
  deriving DecidableEq, Repr

/-- A codec context, `ENC` or `DEC` (10_state.md R55). -/
structure Ctx where
  /-- the low-band sub-state -/
  L : Band
  /-- the high-band sub-state -/
  H : Band
  /-- the QMF delay line `D[0..23]`, newest at 0 (R59) -/
  D : Vector I16 24
  deriving DecidableEq, Repr

/-! ### PLC state (10_state.md section 4) -/

/-- The loss-episode state (10_state.md R63). -/
inductive Episode where
  | none
  | firstLoss
  | continuingLoss
  deriving DecidableEq, Repr

/-- The sign of the next jitter offset, +1 or -1 (10_state.md R62, `jit`). -/
inductive Jit where
  | plus
  | minus
  deriving DecidableEq, Repr

/-- The PLC state (10_state.md R62). An array of the spec's is a list in index order; `lpc[1..8]` and
`syn_mem[1..8]` stand at list places 0 to 7. -/
structure Plc where
  /-- `hist_l[0..HIST_L-1]`, newest last -/
  histL : List I16
  /-- `hist_h[0..159]`, newest last -/
  histH : List I16
  /-- `exc[0..EXC_LEN-1]`, newest last -/
  exc : List Rat
  /-- `lpc[1..8]` -/
  lpc : List Rat
  /-- `cls` -/
  cls : SigClass
  /-- `t0` -/
  t0 : Nat
  /-- `prev_bfi` -/
  prevBfi : Bool
  /-- `episode` -/
  episode : Episode
  /-- `cnt_l` -/
  cntL : Nat
  /-- `cnt_h` -/
  cntH : Nat
  /-- `w_l` -/
  wL : Rat
  /-- `w_h` -/
  wH : Rat
  /-- `xf_buf[0..79]` -/
  xfBuf : List I16
  /-- `xf_pos` -/
  xfPos : Nat
  /-- `xf_active` -/
  xfActive : Bool
  /-- `syn_mem[1..8]`, newest first -/
  synMem : List Rat
  /-- `t_syn` -/
  tSyn : Nat
  /-- `jit` -/
  jit : Jit
  /-- `hb_phase` -/
  hbPhase : Nat
  /-- `hb_per[0..159]` -/
  hbPer : List I16
  deriving DecidableEq, Repr

/-! ### Buffers (10_state.md section 5) -/

/-- The bytes of the four buffers, by byte offset in the window, offsets strictly rising and no byte 0 listed: an
unlisted byte reads 0, the reset value of every element (10_state.md R66; log 13). -/
abbrev Memory := List Host.Cell

/-! ### The host side of the window -/

/-- The width of a host access (20_memory.md R105). -/
inductive Width where
  | w8
  | w16
  | w32
  | w64
  deriving DecidableEq, Repr

/-- What the outside world does to the block (00_scope.md R20, 70_reset_and_hazards.md R470). An offset has 14 bits:
the window is 16 KiB (20_memory.md R100). -/
inductive HostInput where
  /-- a host read -/
  | read (offset : BitVec 14) (width : Width)
  /-- a host write; the data of a width other than 32 is never used (log 11) -/
  | write (offset : BitVec 14) (width : Width) (v : Word)
  /-- the reset input is asserted -/
  | powerOnReset
  deriving DecidableEq, Repr

/-- The model's own fields: the host's accesses not yet served, oldest first (log 8), and the word the latest host
read returned (log 9). -/
structure Bus where
  inputs : List HostInput
  readData : Word
  deriving DecidableEq, Repr

/-! ### The whole state -/

/-- The state of the block (10_state.md R40). -/
structure State where
  regs : Regs
  status : Status
  enc : Ctx
  dec : Ctx
  plc : Plc
  mem : Memory
  bus : Bus
  deriving DecidableEq, Repr

/-- Why the machine stops. The block has no trap and no fault: an error is recorded in `STATUS` and the machine goes on
(60_exceptions.md R430, R439), so there is no constructor. -/
inductive Fault where
  deriving DecidableEq, Repr

/-- Why the model gives an instruction no meaning. -/
inductive Refusal where
  /-- Raised by an arm of `exec` whose command has no meaning yet. Safe: nothing can be proved of what it does. No arm
  raises it: every command has its meaning. -/
  | notModelled (mnemonic : String)
  deriving DecidableEq, Repr

/-- How one step, or one command, ends. -/
abbrev Result := Host.Outcome State Fault Refusal

/-! ### Reset -/

/-- A band sub-state after reset: `det` at its reset step size, all else 0 (10_state.md R60). -/
def Band.reset (det : I16) : Band where
  a := #v[0, 0, 0]
  b := #v[0, 0, 0, 0, 0, 0, 0]
  d := #v[0, 0, 0, 0, 0, 0, 0]
  p := #v[0, 0, 0]
  r := #v[0, 0, 0]
  nb := 0
  det := det
  s := 0
  sp := 0
  sz := 0

/-- A context after reset: `detl=32, deth=8`, all else 0 (10_state.md R60). -/
def Ctx.reset : Ctx where
  L := Band.reset 32
  H := Band.reset 8
  D := #v[0, 0, 0, 0, 0, 0, 0, 0, 0, 0, 0, 0, 0, 0, 0, 0, 0, 0, 0, 0, 0, 0, 0, 0]

/-- The PLC state after reset (10_state.md R64). -/
def Plc.reset (P : PlcParams) : Plc where
  histL := List.replicate P.histLen 0
  histH := List.replicate 160 0
  exc := List.replicate P.excLen 0
  lpc := List.replicate 8 0
  cls := .unvoiced
  t0 := 0
  prevBfi := false
  episode := .none
  cntL := 0
  cntH := 0
  wL := 1
  wH := 1
  xfBuf := List.replicate 80 0
  xfPos := 0
  xfActive := false
  synMem := List.replicate 8 0
  tSyn := 0
  jit := .plus
  hbPhase := 0
  hbPer := List.replicate 160 0

/-- The host registers after power-on reset (70_reset_and_hazards.md R470). -/
def Regs.reset : Regs where
  frameLen := 40
  x0 := 0
  x1 := 0
  xl := 0
  xh := 0
  il := 0
  ih := 0
  code := 0
  y0 := 0
  y1 := 0
  nsTgt := 0
  nsErr := 0
  satA := 0
  satB := 0
  satR := 0

/-- The machine right after power-on reset (70_reset_and_hazards.md R470), with no host access pending (log 8). -/
def State.reset : State where
  regs := Regs.reset
  status := ⟨false, 0⟩
  enc := Ctx.reset
  dec := Ctx.reset
  plc := Plc.reset Config.plc
  mem := []
  bus := ⟨[], 0⟩

end Sys2Proof.Machine
end

