-- ==== Sys2Proof/Machine/Operands.lean ====
section
/-! DEFINITION. The number conversions of 10_state.md R45 to R47, the primitives of 00_scope.md section 5 and of
40_saturating_arith.md R181, and the operands of the saturating unit's commands. -/

namespace Sys2Proof.Machine

/-- `clamp(v, lo, hi)` (00_scope.md R16). -/
def clamp (v lo hi : Int) : Int := max lo (min hi v)

/-- `sat16(v)` (00_scope.md R16, 40_saturating_arith.md R180). -/
def sat16 (v : Int) : I16 := BitVec.ofInt 16 (clamp v (-32768) 32767)

/-- A 16-bit value clamped into `[lo, hi]`. -/
def clamp16 (v : I16) (lo hi : Int) : I16 := sat16 (clamp v.toInt lo hi)

/-- `v >> n`: the floor of `v / 2^n` (00_scope.md R17). -/
def shiftR (v : Int) (n : Nat) : Int := v / 2 ^ n

/-- `sgn(v)` is 1 if `v < 0` (00_scope.md R18). -/
def sgn (v : I16) : Bool := decide (v.toInt < 0)

/-! ### The primitives (40_saturating_arith.md R181) -/

def add16 (a b : I16) : I16 := sat16 (a.toInt + b.toInt)

def sub16 (a b : I16) : I16 := sat16 (a.toInt - b.toInt)

def neg16 (a : I16) : I16 := sat16 (-a.toInt)

def mult (a b : I16) : I16 := sat16 (shiftR (a.toInt * b.toInt) 15)

def shl16 (a : I16) (n : Nat) : I16 := sat16 (a.toInt * 2 ^ n)

/-- `a >> n`, which cannot leave i16. -/
def shr16 (a : I16) (n : Nat) : I16 := BitVec.ofInt 16 (shiftR a.toInt n)

/-- `limit(v)`: clamp to `[LIM_LO, LIM_HI] = [-16384, 16383]` (43_quantizers.md R274). -/
def limit (v : I16) : I16 := clamp16 v (-16384) 16383

/-! ### Host words to field values and back (10_state.md R45, R46) -/

/-- `sext_16(v[15:0])`, what a sample register or element stores. -/
def sampleOf (v : Word) : I16 := v.extractLsb' 0 16

/-- What a sample register or element reads as: sign-extended. -/
def sampleWord (x : I16) : Word := x.signExtend 32

/-- A Boolean as a bit of a register word. -/
def boolWord (b : Bool) : Word := (BitVec.ofBool b).setWidth 32

/-- A non-negative count read as a 32-bit integer (20_memory.md R103); a count that does not fit is a free value
(log 14). -/
def countWord (n : Nat) : Word := if n < 2 ^ 32 then BitVec.ofNat 32 n else Config.wideCountRead n

/-! ### The codeword (30_encoding.md R141) -/

/-- `code = (ih << 6) | il` -/
def packCode (ih : BitVec 2) (il : BitVec 6) : Byte := (ih.setWidth 8 <<< 6) ||| il.setWidth 8

/-- `il = code[5:0]` -/
def codeIl (c : Byte) : BitVec 6 := c.extractLsb' 0 6

/-- `ih = code[7:6]` -/
def codeIh (c : Byte) : BitVec 2 := c.extractLsb' 6 2

/-! ### Operands of the saturating unit (40_saturating_arith.md section 2) -/

/-- `A32`: `SAT_A` as a 32-bit signed integer. -/
def opA32 (r : Regs) : Int := r.satA.toInt

/-- `a = sext_16(SAT_A[15:0])` -/
def opA (r : Regs) : I16 := r.satA.extractLsb' 0 16

/-- `b = sext_16(SAT_B[15:0])` -/
def opB (r : Regs) : I16 := r.satB.extractLsb' 0 16

/-- `n = zext_5(SAT_B[4:0])` -/
def opN (r : Regs) : Nat := (r.satB.extractLsb' 0 5).toNat

end Sys2Proof.Machine
end

