-- ==== Sys2Proof/Machine/Flags.lean ====
section
/-! DEFINITION. `STATUS` (10_state.md R43): its word, the error codes (60_exceptions.md R431) and the two operations on
`ERR` and `ERRCODE` (R432). The block has no other flag (10_state.md R49). -/

namespace Sys2Proof.Machine

/-- The number of an error (60_exceptions.md R431). -/
def errNumber : ErrCode → BitVec 4
  | .illegalOpc => 1
  | .rsvdBits => 2
  | .rsvdMode => 3
  | .bus => 6

/-- The number of a signal class (10_state.md R63). -/
def classNumber : SigClass → Nat
  | .unvoiced => 0
  | .voiced => 1
  | .weaklyVoiced => 2
  | .transient => 3
  | .vuvTransition => 4

/-- The number of a loss-episode state (10_state.md R63). -/
def episodeNumber : Episode → Nat
  | .none => 0
  | .firstLoss => 1
  | .continuingLoss => 2

/-- Record an error: `ERR` is set, and `ERRCODE` keeps the first code (60_exceptions.md R432). -/
def recordError (e : ErrCode) (st : Status) : Status where
  err := true
  errCode := if st.err then st.errCode else errNumber e

/-- A write to `STATUS`: bit 1 set clears `ERR` and `ERRCODE`, any other bit has no effect (10_state.md R43). -/
def writeStatus (v : Word) (st : Status) : Status :=
  if v.getLsbD 1 then ⟨false, 0⟩ else st

/-- The word a read of `STATUS` returns (10_state.md R43). `BUSY` is 0 at every host read. -/
def statusWord (st : Status) (plc : Plc) : Word :=
  (boolWord st.err <<< 1) ||| (st.errCode.setWidth 32 <<< 4) ||| (boolWord plc.prevBfi <<< 8)
    ||| (boolWord plc.xfActive <<< 9) ||| (BitVec.ofNat 32 (classNumber plc.cls) <<< 10)

end Sys2Proof.Machine
end

