-- ==== Sys2Proof/Machine/Tables.lean ====
section
/-! DEFINITION. The constants fixed for every profile (00_scope.md R9, R10) and the reference profile `G722_REF`
(00_scope.md R13), which the machine runs (log 3). -/

namespace Sys2Proof.Machine

/-! ### Fixed for every profile (00_scope.md R9, R10) -/

/-- `FRAME_MAX` -/
def frameMax : Nat := 160

/-- `AL2_BOUND` -/
def al2Bound : Int := 12288

/-- `AL1_BASE` -/
def al1Base : I16 := 15360

/-- `NBL_MAX` -/
def nblMax : Int := 18432

/-- `NBH_MAX` -/
def nbhMax : Int := 22528

/-- `DET_L0` -/
def detL0 : I16 := 32

/-- `DET_H0` -/
def detH0 : I16 := 8

/-- `RC_MAX` = 0.99 -/
def rcMax : Rat := 99 / 100

/-- The square of `VOICED_THR` = 0.70, against which a signed square is compared (log 2). -/
def voicedThrSq : Rat := 49 / 100

/-- `ZC_WIN` -/
def zcWin : Nat := 80

/-- `ZC_THR` -/
def zcThr : Nat := 20

/-- `TRANS_RATIO` -/
def transRatio : Rat := 8

/-- `UV_RATIO` = 2.5 -/
def uvRatio : Rat := 5 / 2

/-- `UV_ATT` = 0.25 -/
def uvAtt : Rat := 1 / 4

/-- `HB_PSEUDO_PITCH` -/
def hbPseudoPitch : Nat := 80

/-- `XF_LEN` -/
def xfLen : Nat := 80

/-- `XF_FLAT` -/
def xfFlat : Nat := 20

/-- `XF_STEP` = 1/60 -/
def xfStep : Rat := 1 / 60

/-- `HB_RESET_THR` -/
def hbResetThr : Nat := 160

/-- `CODE_MASK[m]` (30_encoding.md R142). -/
def codeMask : LMode → BitVec 6
  | .bits6 => 0x3F
  | .bits5 => 0x3E
  | .bits4 => 0x3C
  | .bits3 => 0x38

/-! ### `G722_REF` (00_scope.md R13) -/

/-- A table given as a list of integers, read at index `i`. -/
def tableAt (t : List Int) (i : Nat) : I16 := BitVec.ofInt 16 (t.getD i 0)

def qmfHRef : Vector I16 24 :=
  #v[3, -11, -11, 53, 12, -156, 32, 362, -210, -805, 951, 3876,
     3876, 951, -805, -210, 362, 32, -156, 12, 53, -11, -11, 3]

def q6Ref : List I16 :=
  [35, 72, 110, 150, 190, 233, 276, 323, 370, 422, 473, 530, 587, 650, 714] ++
  [786, 858, 940, 1023, 1121, 1219, 1339, 1458, 1612, 1765, 1980, 2195, 2557, 2919]

/-- `ILN[1..30]` -/
def ilnRef : List Int :=
  [63, 62, 31, 30, 29, 28, 27, 26, 25, 24, 23, 22, 21, 20, 19] ++
  [18, 17, 16, 15, 14, 13, 12, 11, 10, 9, 8, 7, 6, 5, 4]

/-- `ILP[1..30]` -/
def ilpRef : List Int :=
  [61, 60, 59, 58, 57, 56, 55, 54, 53, 52, 51, 50, 49, 48, 47] ++
  [46, 45, 44, 43, 42, 41, 40, 39, 38, 37, 36, 35, 34, 33, 32]

def qm6Ref : List Int :=
  [-136, -136, -136, -136, -24808, -21904, -19008, -16704] ++
  [-14984, -13512, -12280, -11192, -10232, -9360, -8576, -7856] ++
  [-7192, -6576, -6000, -5456, -4944, -4464, -4008, -3576] ++
  [-3168, -2776, -2400, -2032, -1688, -1360, -1040, -728] ++
  [24808, 21904, 19008, 16704, 14984, 13512, 12280, 11192] ++
  [10232, 9360, 8576, 7856, 7192, 6576, 6000, 5456] ++
  [4944, 4464, 4008, 3576, 3168, 2776, 2400, 2032] ++
  [1688, 1360, 1040, 728, 432, 136, -432, -136]

def qm5Ref : List Int :=
  [-280, -280, -23352, -17560, -14120, -11664, -9752, -8184] ++
  [-6864, -5712, -4696, -3784, -2960, -2208, -1520, -880] ++
  [23352, 17560, 14120, 11664, 9752, 8184, 6864, 5712] ++
  [4696, 3784, 2960, 2208, 1520, 880, 280, -280]

def qm4Ref : List Int :=
  [0, -20456, -12896, -8968, -6288, -4240, -2584, -1200] ++
  [20456, 12896, 8968, 6288, 4240, 2584, 1200, 0]

def qm2Ref : List Int := [-7408, -1616, 7408, 1616]

def rl42Ref : List (Fin 8) := [0, 7, 6, 5, 4, 3, 2, 1, 7, 6, 5, 4, 3, 2, 1, 0]

def wlRef : List Int := [-60, -30, 58, 172, 334, 538, 1198, 3042]

def rh2Ref : List (Fin 3) := [2, 1, 2, 1]

def whRef : List Int := [0, -214, 798]

def ilbRef : List Nat :=
  [2048, 2093, 2139, 2186, 2233, 2282, 2332, 2383, 2435, 2489, 2543] ++
  [2599, 2656, 2714, 2774, 2834, 2896, 2960, 3025, 3091, 3158, 3228] ++
  [3298, 3371, 3444, 3520, 3597, 3676, 3756, 3838, 3922, 4008]

/-- `ILA[j] = 4 * shift(ILB[j mod 32], floor(j / 32) - 10)` -/
def ilaRef (j : Nat) : I16 :=
  let v := ilbRef.getD (j % 32) 0
  if 10 ≤ j / 32 then BitVec.ofNat 16 (4 * (v <<< (j / 32 - 10)))
  else BitVec.ofNat 16 (4 * (v >>> (10 - j / 32)))

/-- `G722_REF` with the `OPEN` parameters `plc`; it lacks `INVQ_L[3]`. -/
def g722Ref (plc : PlcParams) : Profile where
  qmfH := qmfHRef
  qmfTxShift := 14
  qmfRxShift := 11
  q6 := q6Ref
  qlShift := 12
  iln mag := BitVec.ofInt 6 (ilnRef.getD (mag - 1) 0)
  ilp mag := BitVec.ofInt 6 (ilpRef.getD (mag - 1) 0)
  qhThr := 564
  ihn mih := if mih = 1 then 1 else 0
  ihp mih := if mih = 1 then 3 else 2
  invq0 i := tableAt qm6Ref i.toNat
  invq1 i := tableAt qm5Ref (i.toNat / 2)
  invq2 i := tableAt qm4Ref (i.toNat / 4)
  invq3 := none
  qm4 i := tableAt qm4Ref i.toNat
  qm2 i := tableAt qm2Ref i.toNat
  coreShift := 2
  rl42 i := rl42Ref.getD i.toNat 0
  wl i := tableAt wlRef i.val
  rh2 i := rh2Ref.getD i.toNat 0
  wh i := tableAt whRef i.val
  nbLeakMul := 127
  nbLeakShift := 7
  ila := ilaRef
  ilaOffL := 64
  ilaOffH := 0
  upzeroLeak := 32640
  upzeroStep := 128
  uppol2Leak := 32512
  uppol2Step := 128
  uppol1Leak := 32640
  uppol1Step := 192
  hbLimit := true
  filtezOrder := [6, 5, 4, 3, 2, 1]
  plc := plc

/-- The profile of the machine: `G722_REF`, the default of the spec, with every `OPEN` parameter left open. -/
def profile : Profile := g722Ref Config.plc

end Sys2Proof.Machine
end

