-- ==== Sys2Proof/Machine/Ops.lean ====
section
/-! DEFINITION. The named operations every command is written with: loops, the bytes and elements of the buffers,
recording and clearing an error, and the mode checks. -/

namespace Sys2Proof.Machine

/-! ### Loops (00_scope.md R23) -/

/-- `for n = 0 .. N-1: a <- f n a` -/
def forN {α : Type} : Nat → (Nat → α → α) → α → α
  | 0, _, a => a
  | N + 1, f, a => f N (forN N f a)

/-- `Σ_{i = lo .. hi-1} f i`, exact. -/
def sumFrom (lo hi : Nat) (f : Nat → Rat) : Rat := ((List.range (hi - lo)).map fun k => f (lo + k)).sum

/-! ### The bytes of the buffers -/

/-- The byte at an offset; an unlisted byte reads 0 (10_state.md R66). -/
def Memory.get (m : Memory) (a : Nat) : Byte :=
  match m with
  | [] => 0
  | (k, b) :: rest => if k = a then b else Memory.get rest a

/-- Store a byte, keeping the canonical form: offsets rise strictly and no byte 0 is listed. -/
def Memory.put (m : Memory) (a : Nat) (b : Byte) : Memory :=
  match m with
  | [] => if b = 0 then [] else [(a, b)]
  | (k, c) :: rest =>
    if a < k then (if b = 0 then (k, c) :: rest else (a, b) :: (k, c) :: rest)
    else if a = k then (if b = 0 then rest else (a, b) :: rest)
    else (k, c) :: Memory.put rest a b

/-- Offsets at or after `lo` rise strictly and no listed byte is 0. -/
def Memory.wfFrom (lo : Nat) : Memory → Bool
  | [] => true
  | (k, b) :: rest => decide (lo ≤ k) && decide (b ≠ 0) && Memory.wfFrom (k + 1) rest

/-- The canonical form. -/
def Memory.wf (m : Memory) : Bool := Memory.wfFrom 0 m

/-- A 16-bit element: its low byte at the lower offset (20_memory.md R104; log 13). -/
def Memory.get16 (m : Memory) (a : Nat) : I16 := m.get (a + 1) ++ m.get a

def Memory.put16 (m : Memory) (a : Nat) (v : I16) : Memory :=
  (m.put a (v.extractLsb' 0 8)).put (a + 1) (v.extractLsb' 8 8)

/-! ### The elements of the buffers (10_state.md R66, 20_memory.md R101) -/

/-- The offset of `PCMBUF[k]`. -/
def pcmAddr (k : Nat) : Nat := 0x0800 + 4 * k

/-- The offset of `CODEBUF[k]`. -/
def codeAddr (k : Nat) : Nat := 0x1000 + 4 * k

/-- The offset of `NSTBUF[k]`. -/
def nstAddr (k : Nat) : Nat := 0x1800 + 4 * k

/-- The offset of `NSEBUF[k]`. -/
def nseAddr (k : Nat) : Nat := 0x2000 + 4 * k

def Memory.pcm (m : Memory) (k : Nat) : I16 := m.get16 (pcmAddr k)

def Memory.setPcm (m : Memory) (k : Nat) (v : I16) : Memory := m.put16 (pcmAddr k) v

def Memory.code (m : Memory) (k : Nat) : Byte := m.get (codeAddr k)

def Memory.setCode (m : Memory) (k : Nat) (v : Byte) : Memory := m.put (codeAddr k) v

def Memory.nst (m : Memory) (k : Nat) : I16 := m.get16 (nstAddr k)

def Memory.setNst (m : Memory) (k : Nat) (v : I16) : Memory := m.put16 (nstAddr k) v

def Memory.nse (m : Memory) (k : Nat) : I16 := m.get16 (nseAddr k)

def Memory.setNse (m : Memory) (k : Nat) (v : I16) : Memory := m.put16 (nseAddr k) v

/-! ### Errors (00_scope.md R21, 60_exceptions.md R432) -/

/-- `raise Error(code)`: the command ends, and only `STATUS` changes (60_exceptions.md R439). It is this block's taking
of an exception: it saves no state, changes no mode and transfers no control. -/
def State.raiseError (e : ErrCode) (s : State) : State := { s with status := recordError e s.status }

/-- The host's clearing of an error by a `STATUS` write of `v` (60_exceptions.md R440), the closest thing the block has
to a return from an exception. -/
def State.clearError (v : Word) (s : State) : State := { s with status := writeStatus v s.status }

/-- `check_mode_l(m)` (43_quantizers.md R270), then `k` with `INVQ_L[m]`; where the profile lacks the table the command
ends with `Error(RSVD_MODE)`. -/
def checkModeL (P : Profile) (m : LMode) (s : State) (k : (BitVec 6 → I16) → Result) : Result :=
  match P.invq m with
  | none => .next (s.raiseError .rsvdMode)
  | some t => k t

/-- `check_mode_h(h)` (43_quantizers.md R270), then `k`. -/
def checkModeH (h : HMode) (s : State) (k : Result) : Result :=
  match h with
  | .bits3 => .next (s.raiseError .rsvdMode)
  | .bits2 => k

end Sys2Proof.Machine
end

