-- ==== Sys2Proof/Machine/Adapt.lean ====
section
/-! DEFINITION. The adaptive predictor and the step-size adaptation, shared by both bands and both directions
(42_adpcm_adapt.md). -/

namespace Sys2Proof.Machine

/-- What decides the constants of 42_adpcm_adapt.md R221. -/
inductive BandId where
  | low
  | high
  deriving DecidableEq, Repr

/-- `NBMAX` (42_adpcm_adapt.md R221). -/
def nbMax : BandId → Int
  | .low => nblMax
  | .high => nbhMax

/-- `ILA_OFF` (42_adpcm_adapt.md R221). -/
def ilaOff (P : Profile) : BandId → Nat
  | .low => P.ilaOffL
  | .high => P.ilaOffH

/-- `partial(B, d)` (42_adpcm_adapt.md R222): `d[0]`, `r[0]` and `p[0]` of the sample. -/
def partialStep (B : Band) (d : I16) : Band :=
  { B with
    d := #v[d, B.d[1], B.d[2], B.d[3], B.d[4], B.d[5], B.d[6]]
    r := #v[add16 B.s d, B.r[1], B.r[2]]
    p := #v[add16 B.sz d, B.p[1], B.p[2]] }

/-- One new zero-predictor coefficient of `upzero` (42_adpcm_adapt.md R223), from `b[i]` and the old `d[i]`. -/
def upzeroTap (P : Profile) (d bi di : I16) : I16 :=
  let wd1 := if d.toInt = 0 then 0 else P.upzeroStep
  let wd2 := if sgn di = sgn d then wd1 else neg16 wd1
  add16 wd2 (mult bi P.upzeroLeak)

/-- `bp[1..6]` of `upzero(B, d)` (42_adpcm_adapt.md R223), `bp[i]` at place `i - 1`. -/
def upzero (P : Profile) (B : Band) (d : I16) : Vector I16 6 :=
  #v[upzeroTap P d B.b[1] B.d[1], upzeroTap P d B.b[2] B.d[2], upzeroTap P d B.b[3] B.d[3],
     upzeroTap P d B.b[4] B.d[4], upzeroTap P d B.b[5] B.d[5], upzeroTap P d B.b[6] B.d[6]]

/-- `uppol2(B)` (42_adpcm_adapt.md R224). -/
def uppol2 (P : Profile) (B : Band) : I16 :=
  let sg0 := sgn B.p[0]
  let sg1 := sgn B.p[1]
  let sg2 := sgn B.p[2]
  let wd1 := shl16 B.a[1] 2
  let wd2 := shr16 (if sg0 = sg1 then neg16 wd1 else wd1) 7
  let wd3 := if sg0 = sg2 then P.uppol2Step else neg16 P.uppol2Step
  let wd4 := add16 wd2 wd3
  let wd5 := mult B.a[2] P.uppol2Leak
  clamp16 (add16 wd4 wd5) (-al2Bound) al2Bound

/-- `uppol1(B, apl2)` (42_adpcm_adapt.md R225). -/
def uppol1 (P : Profile) (B : Band) (apl2 : I16) : I16 :=
  let sg0 := sgn B.p[0]
  let sg1 := sgn B.p[1]
  let wd1 := if sg0 = sg1 then P.uppol1Step else neg16 P.uppol1Step
  let wd2 := mult B.a[1] P.uppol1Leak
  let wd3 := sub16 al1Base apl2
  clamp16 (add16 wd1 wd2) (-wd3.toInt) wd3.toInt

/-- `delaya(B, bp, apl1, apl2)` (42_adpcm_adapt.md R238): commit the coefficients, shift the histories. -/
def delaya (B : Band) (bp : Vector I16 6) (apl1 apl2 : I16) : Band :=
  { B with
    d := #v[B.d[0], B.d[0], B.d[1], B.d[2], B.d[3], B.d[4], B.d[5]]
    b := #v[B.b[0], bp[0], bp[1], bp[2], bp[3], bp[4], bp[5]]
    p := #v[B.p[0], B.p[0], B.p[1]]
    r := #v[B.r[0], B.r[0], B.r[1]]
    a := #v[B.a[0], apl1, apl2] }

/-- `filtep(B)` (42_adpcm_adapt.md R226). -/
def filtep (B : Band) : I16 :=
  add16 (mult B.a[1] (add16 B.r[1] B.r[1])) (mult B.a[2] (add16 B.r[2] B.r[2]))

/-- `filtez(B)` (42_adpcm_adapt.md R227): saturating at each step, in the order `FILTEZ_ORDER`. -/
def filtez (P : Profile) (B : Band) : I16 :=
  P.filtezOrder.foldl (fun acc i => add16 acc (mult (B.b.get i) (add16 (B.d.get i) (B.d.get i)))) 0

/-- The prediction (42_adpcm_adapt.md R226 to R228): `sp`, `sz` and `s` from the coefficients and histories. -/
def predict (P : Profile) (B : Band) : Band :=
  { B with sp := filtep B, sz := filtez P B, s := add16 (filtep B) (filtez P B) }

/-- `logscl(B, w, band)` (42_adpcm_adapt.md R232); the leak product is exact (40_saturating_arith.md R182). -/
def logscl (P : Profile) (B : Band) (w : I16) (k : BandId) : Band :=
  let wd := shiftR (B.nb.toInt * P.nbLeakMul) P.nbLeakShift
  { B with nb := clamp16 (sat16 (wd + w.toInt)) 0 (nbMax k) }

/-- `scale(B, band)` (42_adpcm_adapt.md R233). -/
def scale (P : Profile) (B : Band) (k : BandId) : Band :=
  { B with det := P.ila ((shiftR B.nb.toInt 6).toNat + ilaOff P k) }

/-- `adapt(B, d, w, band)` (42_adpcm_adapt.md R220), its stages in the source's order. -/
def adapt (P : Profile) (B : Band) (d w : I16) (k : BandId) : Band :=
  let B1 := partialStep B d
  let bp := upzero P B1 d
  let apl2 := uppol2 P B1
  let apl1 := uppol1 P B1 apl2
  let B2 := delaya B1 bp apl1 apl2
  scale P (logscl P (predict P B2) w k) k

end Sys2Proof.Machine
end

