-- ==== Sys2Proof/Machine/PlcAnalysis.lean ====
section
/-! DEFINITION. The PLC analysis engine (45_plc_analysis.md), in exact rationals (log 1). A correlation is carried as
its signed square (log 2). The start of an episode (46_plc_synthesis.md R381), which ends the analysis, stands here
too. -/

namespace Sys2Proof.Machine

/-! ### Numbers -/

/-- A sample read as a real. -/
def ratOf (x : I16) : Rat := (x.toInt : Rat)

def ratAbs (x : Rat) : Rat := if x < 0 then -x else x

/-- Place `i` of a list of reals; a place past its end reads 0 (log 17). -/
def ratAt (xs : List Rat) (i : Nat) : Rat := xs.getD i 0

/-- `round16(v) = sat16(PLC_ROUND(v))` (00_scope.md R22). -/
def round16 (P : PlcParams) (v : Rat) : I16 := sat16 (P.round v)

/-! ### History (45_plc_analysis.md R330) -/

/-- A history of `len` samples shifted left by a frame, with the frame appended. -/
def pushBuf (len : Nat) (buf src : List I16) : List I16 :=
  if len ≤ src.length then src.drop (src.length - len)
  else buf.drop src.length ++ src

/-- `push_history(lo, hi)` (45_plc_analysis.md R330). -/
def pushHistory (P : PlcParams) (lo hi : List I16) (plc : Plc) : Plc :=
  { plc with histL := pushBuf P.histLen plc.histL lo, histH := pushBuf 160 plc.histH hi }

/-! ### DC removal and LPC analysis -/

/-- `dc_remove` from a given filter state (45_plc_analysis.md R331). -/
def dcFrom (dcA xp vp : Rat) : List Rat → List Rat
  | [] => []
  | x :: xs =>
    let v := x - xp + dcA * vp
    v :: dcFrom dcA x v xs

/-- `dc_remove(x)` (45_plc_analysis.md R331), from a zero state. -/
def dcRemove (P : PlcParams) (x : List Rat) : List Rat := dcFrom P.dcA 0 0 x

/-- `sw[i]` (45_plc_analysis.md R332): the window over the last 80 samples. -/
def windowed (P : PlcParams) (u : List Rat) : List Rat :=
  (List.range 80).map fun i => P.lpcWin i * ratAt u (P.histLen - 80 + i)

/-- `Σ_{m=k..n-1} x[m] * x[m-k]`. -/
def autocorr (n : Nat) (x : List Rat) (k : Nat) : Rat := sumFrom k n fun m => ratAt x m * ratAt x (m - k)

/-- `rr[k]` after the lag window (45_plc_analysis.md R332, R333). -/
def lpcCorr (P : PlcParams) (u : List Rat) (k : Nat) : Rat := autocorr 80 (windowed P u) k * P.lagW k

/-- The steps `i ..` of `levinson` that remain (45_plc_analysis.md R335), `a[j]` at place `j - 1`. -/
def levinsonFrom (rr : Nat → Rat) : Nat → Nat → List Rat → Rat → Option (List Rat)
  | 0, _, a, _ => some a
  | left + 1, i, a, E =>
    let k := -(rr i + sumFrom 1 i fun j => ratAt a (j - 1) * rr (i - j)) / E
    if rcMax < ratAbs k then none
    else
      let a' := (List.range (i - 1)).map fun j => ratAt a j + k * ratAt a (i - 2 - j)
      levinsonFrom rr left (i + 1) (a' ++ [k]) (E * (1 - k * k))

/-- `levinson(rr, p)` (45_plc_analysis.md R335): the `p` coefficients, or none where the recursion is not ok. -/
def levinson (rr : Nat → Rat) (p : Nat) : Option (List Rat) :=
  if rr 0 ≤ 0 then none else levinsonFrom rr p 1 [] (rr 0)

/-- `PLC.exc` of an analysis (45_plc_analysis.md R336): the residual of the last `EXC_LEN` samples of `u`. -/
def residual (P : PlcParams) (u lpc : List Rat) : List Rat :=
  (List.range P.excLen).map fun j =>
    let n := P.histLen - P.excLen + j
    ratAt u n + sumFrom 1 9 fun i => ratAt lpc (i - 1) * ratAt u (n - i)

/-! ### Open-loop pitch search -/

/-- `Lp = 2·MAXPIT` (45_plc_analysis.md R337). -/
def lpLen (P : PlcParams) : Nat := 2 * P.maxPit

/-- `M = floor(Lp / 4)` (45_plc_analysis.md R337). -/
def decimLen (P : PlcParams) : Nat := lpLen P / 4

/-- `f[i]` (45_plc_analysis.md R337): the 9-tap lowpass over the last `Lp` residual samples, from a zero state. -/
def decimFilter (P : PlcParams) (exc : List Rat) (i : Nat) : Rat :=
  sumFrom 0 (min 9 (i + 1)) fun t => P.decimLp t * ratAt exc (P.excLen - lpLen P + (i - t))

/-- `dec[0..M-1]` (45_plc_analysis.md R337). -/
def decimate (P : PlcParams) (exc : List Rat) : List Rat :=
  (List.range (decimLen P)).map fun m => decimFilter P exc (lpLen P - 1 - 4 * (decimLen P - 1 - m))

/-- `wdec[0..M-1]` (45_plc_analysis.md R338). -/
def whiten (P : PlcParams) (dec : List Rat) : List Rat :=
  let c := (levinson (autocorr (decimLen P) dec) 2).getD [0, 0]
  (List.range (decimLen P)).map fun m =>
    ratAt dec m + (if 1 ≤ m then ratAt c 0 * ratAt dec (m - 1) else 0)
      + (if 2 ≤ m then ratAt c 1 * ratAt dec (m - 2) else 0)

/-- The signed square of `X / sqrt(E)`, and 0 where `E` is not positive (45_plc_analysis.md R339, R341; log 2). -/
def signedSq (X E : Rat) : Rat :=
  if 0 < E then (if X < 0 then -(X * X / E) else X * X / E) else 0

/-- The normalized correlation of the first `n` places of `x` at a lag, as its signed square (45_plc_analysis.md R339,
R341). -/
def normCorr (n : Nat) (x : List Rat) (lag : Nat) : Rat :=
  signedSq (autocorr n x lag)
    ((sumFrom lag n fun m => ratAt x m * ratAt x m) * (sumFrom lag n fun m => ratAt x (m - lag) * ratAt x (m - lag)))

/-- `lo .. hi`, in order. -/
def lagsFrom (lo hi : Nat) : List Nat := (List.range (hi + 1 - lo)).map fun k => lo + k

/-- The refinement set of a decimated lag (45_plc_analysis.md R341). -/
def refineSet (P : PlcParams) (τ : Nat) : List Nat :=
  lagsFrom (max P.minPit (4 * τ - 2)) (min P.maxPit (4 * τ + 2))

/-- The better of two lags: the larger correlation, the smaller lag on a tie (45_plc_analysis.md R341). -/
def betterLag (f : Nat → Rat) (best T : Nat) : Nat :=
  if f best < f T then T else if f T = f best then min best T else best

/-- `t0` of the open-loop search (45_plc_analysis.md R337 to R341), from the residual. -/
def pitchLag (P : PlcParams) (exc : List Rat) : Nat :=
  let wdec := whiten P (decimate P exc)
  let cand := P.pitchSelect ((lagsFrom P.tauMin P.tauMax).map (normCorr (decimLen P) wdec))
  let set := refineSet P cand.1 ++ (match cand.2 with | some τ => refineSet P τ | none => [])
  set.foldl (betterLag (normCorr P.excLen exc)) (4 * cand.1)

/-- `cmax = Cf(t0)` (45_plc_analysis.md R341). -/
def pitchCorr (P : PlcParams) (exc : List Rat) (t0 : Nat) : Rat := normCorr P.excLen exc t0

/-! ### Classification -/

/-- The base class (45_plc_analysis.md R343). -/
def baseClass (cmax : Rat) : SigClass := if voicedThrSq < cmax then .voiced else .weaklyVoiced

/-- The downgrade (45_plc_analysis.md R344). -/
def downgrade (P : PlcParams) (cmax : Rat) (nbL nbH : I16) (c : SigClass) : SigClass :=
  if c = .voiced ∧ nbL.toInt < nbH.toInt then P.classDowngrade cmax nbL nbH else c

/-- `zc` (45_plc_analysis.md R345): sign changes of `u` over its last 80 samples. -/
def zeroCrossings (P : PlcParams) (u : List Rat) : Nat :=
  ((List.range zcWin).filter fun i =>
    let n := P.histLen - zcWin + i
    decide (ratAt u n < 0) != decide (ratAt u (n - 1) < 0)).length

/-- The zero-crossing step (45_plc_analysis.md R345). -/
def zcStep (P : PlcParams) (u : List Rat) (t0 : Nat) (cmax : Rat) (c : SigClass) : SigClass :=
  let zc := zeroCrossings P u
  if zcThr ≤ zc ∧ P.zcSafeguard zc t0 cmax = false then .unvoiced else c

/-- The peak magnitude of a stretch of excitation. -/
def peak (xs : List Rat) : Rat := xs.foldl (fun acc x => max acc (ratAbs x)) 0

/-- The newest `t0` excitation samples (45_plc_analysis.md R346). -/
def lastCycle (P : PlcParams) (t0 : Nat) (exc : List Rat) : List Rat := exc.drop (P.excLen - t0)

/-- The `t0` excitation samples before them (45_plc_analysis.md R346). -/
def priorCycle (P : PlcParams) (t0 : Nat) (exc : List Rat) : List Rat :=
  (exc.drop (P.excLen - 2 * t0)).take t0

/-- An excitation sample limited to magnitude `lim` (45_plc_analysis.md R346). -/
def limitMag (lim x : Rat) : Rat := if lim < ratAbs x then (if x < 0 then -lim else lim) else x

/-- The transient step's class (45_plc_analysis.md R346). -/
def transientClass (P : PlcParams) (t0 : Nat) (exc : List Rat) (c : SigClass) : SigClass :=
  let Pk := peak (priorCycle P t0 exc)
  if 0 < Pk ∧ ((lastCycle P t0 exc).any fun x => decide (transRatio * Pk < ratAbs x)) then .transient else c

/-- The transient step's amplitude limit, applied whether or not the class is promoted (45_plc_analysis.md R346). -/
def transientLimit (P : PlcParams) (t0 : Nat) (exc : List Rat) : List Rat :=
  let Pk := peak (priorCycle P t0 exc)
  if 0 < Pk then exc.take (P.excLen - t0) ++ (lastCycle P t0 exc).map (limitMag (transRatio * Pk)) else exc

/-- The mean magnitude of 80 samples. -/
def mean80 (xs : List Rat) : Rat := (xs.map ratAbs).sum / 80

/-- The unvoiced attenuation of the excitation (45_plc_analysis.md R347). -/
def unvoicedExc (P : PlcParams) (c : SigClass) (exc : List Rat) : List Rat :=
  if c = .unvoiced then
    let mu := mean80 (exc.drop (P.excLen - 80))
    exc.map fun x => if uvRatio * mu < ratAbs x then uvAtt * x else x
  else exc

/-- What the classification leaves: the class, the excitation and the lag. -/
structure Classified where
  cls : SigClass
  exc : List Rat
  t0 : Nat

/-- `classify` (45_plc_analysis.md R342 to R349), its steps in the source's order. -/
def classify (P : PlcParams) (nbL nbH : I16) (u exc : List Rat) (t0 : Nat) (cmax : Rat) : Classified :=
  let c1 := baseClass cmax
  let c2 := downgrade P cmax nbL nbH c1
  let c3 := zcStep P u t0 cmax c2
  let c4 := transientClass P t0 exc c3
  let exc1 := transientLimit P t0 exc
  let exc2 := unvoicedExc P c4 exc1
  { cls := c4, exc := exc2, t0 := if c4 = .voiced then P.pulseAlign exc2 t0 else t0 }

/-! ### The start of an episode (46_plc_synthesis.md R381, R385) -/

/-- `P` of 46_plc_synthesis.md R385: the length of the repeated high-band period. -/
def hbPeriod (plc : Plc) : Nat := if plc.cls = .voiced then plc.t0 else hbPseudoPitch

/-- `capture_hb()` (46_plc_synthesis.md R385). -/
def captureHb (P : PlcParams) (plc : Plc) : Plc :=
  let n := hbPeriod plc
  let per := plc.histH.drop (160 - n)
  let mu := mean80 ((plc.histH.drop 80).map ratOf)
  let att := fun x => if uvRatio * mu < ratAbs (ratOf x) then round16 P (uvAtt * ratOf x) else x
  { plc with
    hbPer := (if plc.cls = .unvoiced then per.map att else per) ++ List.replicate (160 - n) 0 }

/-- `start_episode()` (46_plc_synthesis.md R381), `u` the DC-removed history. -/
def startEpisode (P : PlcParams) (u : List Rat) (plc : Plc) : Plc :=
  let plc1 :=
    { plc with
      cntL := 0
      cntH := 0
      wL := 1
      wH := 1
      jit := .plus
      tSyn := if P.jitterClass plc.cls ∧ plc.t0 % 2 = 0 then plc.t0 + 1 else plc.t0
      synMem := (List.range 8).map fun i => ratAt u (P.histLen - (i + 1)) }
  { captureHb P plc1 with hbPhase := 0, xfActive := false, xfPos := 0 }

/-- `analyse()` (45_plc_analysis.md R351). It reads `DEC.L.nb` and `DEC.H.nb` and writes only `PLC`. -/
def analyse (P : PlcParams) (nbL nbH : I16) (plc : Plc) : Plc :=
  let u := dcRemove P (plc.histL.map ratOf)
  let lpc := (levinson (lpcCorr P u) 8).getD plc.lpc
  let exc := residual P u lpc
  let t0 := pitchLag P exc
  let cl := classify P nbL nbH u exc t0 (pitchCorr P exc t0)
  startEpisode P u { plc with lpc := lpc, exc := cl.exc, cls := cl.cls, t0 := cl.t0 }

end Sys2Proof.Machine
end

