-- ==== Sys2Proof/Machine/PlcSynthesis.lean ====
section
/-! DEFINITION. The PLC synthesis engine: concealment, attenuation, crossfade and re-convergence
(46_plc_synthesis.md), in exact rationals (log 1). -/

namespace Sys2Proof.Machine

/-! ### The synthesis state (46_plc_synthesis.md R382, R387) -/

/-- What `ltp_step` and `lpc_syn` read and write: of `PLC` itself, or of a scratch copy of it (R387). -/
structure Syn where
  exc : List Rat
  synMem : List Rat
  jit : Jit
  tSyn : Nat
  t0 : Nat

def Plc.syn (plc : Plc) : Syn := ⟨plc.exc, plc.synMem, plc.jit, plc.tSyn, plc.t0⟩

/-- The synthesis state written back; `t_syn` and `t0` are not written by synthesis. -/
def Plc.withSyn (plc : Plc) (S : Syn) : Plc := { plc with exc := S.exc, synMem := S.synMem, jit := S.jit }

def Jit.flip : Jit → Jit
  | .plus => .minus
  | .minus => .plus

/-- The read offset of `ltp_step` (46_plc_synthesis.md R382): `t_syn - jit` where the lag was made odd. -/
def ltpLag (S : Syn) : Nat :=
  if S.tSyn = S.t0 + 1 then (match S.jit with | .plus => S.tSyn - 1 | .minus => S.tSyn + 1) else S.tSyn

/-- The sample `ltp_step` returns (46_plc_synthesis.md R382). -/
def ltpSample (P : PlcParams) (S : Syn) : Rat := ratAt S.exc (P.excLen - ltpLag S)

/-- The state `ltp_step` leaves (46_plc_synthesis.md R382). -/
def ltpNext (P : PlcParams) (S : Syn) : Syn :=
  { S with
    exc := S.exc.drop 1 ++ [ltpSample P S]
    jit := if S.tSyn = S.t0 + 1 then S.jit.flip else S.jit }

/-- `y` of `lpc_syn(S, e)` (46_plc_synthesis.md R383). -/
def lpcSample (lpc synMem : List Rat) (e : Rat) : Rat :=
  e - sumFrom 1 9 fun i => ratAt lpc (i - 1) * ratAt synMem (i - 1)

/-- One synthesized low-band sample before its weight: `lpc_syn(S, ltp_step(S))`. -/
def synSample (P : PlcParams) (lpc : List Rat) (S : Syn) : Rat := lpcSample lpc S.synMem (ltpSample P S)

/-- The synthesis state after it. -/
def synNext (P : PlcParams) (lpc : List Rat) (S : Syn) : Syn :=
  { ltpNext P S with synMem := synSample P lpc S :: S.synMem.take 7 }

/-! ### Attenuation (46_plc_synthesis.md R386) -/

/-- `att_w(c)` for a class (46_plc_synthesis.md R386). -/
def attW (P : PlcParams) (cls : SigClass) (c : Nat) : Rat :=
  if P.attEnd cls ≤ c then 0
  else
    max 0 (1 - (P.attSlope cls 0 * (min c 80 : Nat) + P.attSlope cls 1 * (min (c - 80) 80 : Nat)
      + P.attSlope cls 2 * (c - 160 : Nat)))

/-! ### Concealment (46_plc_synthesis.md R380) -/

/-- What the concealment loop carries: `PLC` and the samples made so far. -/
structure Conceal where
  plc : Plc
  lo : List I16
  hi : List I16

/-- One turn of the loop of `conceal(N)` (46_plc_synthesis.md R380), with `hb_next` (R385). -/
def concealSample (P : PlcParams) (c : Conceal) : Conceal :=
  let plc := c.plc
  let y := synSample P plc.lpc plc.syn
  let lo := round16 P (attW P plc.cls plc.cntL * y)
  let hi := round16 P (attW P plc.cls plc.cntH * ratOf (plc.hbPer.getD plc.hbPhase 0))
  { plc :=
      { plc.withSyn (synNext P plc.lpc plc.syn) with
        cntL := plc.cntL + 1
        cntH := plc.cntH + 1
        hbPhase := (plc.hbPhase + 1) % hbPeriod plc }
    lo := c.lo ++ [lo]
    hi := c.hi ++ [hi] }

/-- What the crossfade-buffer loop carries: the scratch synthesis state and the samples made so far. -/
structure XfRun where
  S : Syn
  buf : List I16

/-- Sample `k` of the crossfade buffer (46_plc_synthesis.md R387, R388). -/
def xfSample (P : PlcParams) (plc : Plc) (k : Nat) (x : XfRun) : XfRun :=
  let g := attW P plc.cls (plc.cntL + k)
  let g := if plc.cls = .transient then g * P.xfTail k else g
  { S := synNext P plc.lpc x.S, buf := x.buf ++ [round16 P (g * synSample P plc.lpc x.S)] }

/-- `make_xf_buffer()` (46_plc_synthesis.md R387): it writes only `xf_buf`. -/
def makeXfBuffer (P : PlcParams) (plc : Plc) : Plc :=
  { plc with xfBuf := (forN xfLen (xfSample P plc) ⟨plc.syn, []⟩).buf }

/-- The end of `conceal(N)`: the weights and the crossfade buffer (46_plc_synthesis.md R380). -/
def concealEnd (P : PlcParams) (plc : Plc) : Plc :=
  makeXfBuffer P { plc with wL := attW P plc.cls plc.cntL, wH := attW P plc.cls plc.cntH }

/-- `conceal(N)` (46_plc_synthesis.md R380). -/
def conceal (P : PlcParams) (N : Nat) (plc : Plc) : Conceal :=
  let c := forN N (fun _ => concealSample P) ⟨plc, [], []⟩
  { c with plc := concealEnd P c.plc }

/-! ### Recovery (46_plc_synthesis.md R389) -/

/-- The sample `crossfade(rl)` returns. -/
def xfOut (P : PlcParams) (plc : Plc) (rl : I16) : I16 :=
  let x := plc.xfBuf.getD plc.xfPos 0
  if plc.xfPos < xfFlat then x
  else
    let g := ((plc.xfPos - xfFlat + 1 : Nat) : Rat) * xfStep
    round16 P (g * ratOf rl + (1 - g) * ratOf x)

/-- The state `crossfade` leaves. -/
def xfAdvance (plc : Plc) : Plc :=
  { plc with xfPos := plc.xfPos + 1, xfActive := if plc.xfPos + 1 = xfLen then false else plc.xfActive }

/-! ### State re-convergence (46_plc_synthesis.md R395) -/

/-- The histories and coefficients of a band after a loss, from the two newest samples of its history. -/
def reconvBand (P : PlcParams) (B : Band) (r1 r2 : I16) : Band :=
  let leak := fun x => round16 P (P.reconvLeak * ratOf x)
  { B with
    d := #v[0, 0, 0, 0, 0, 0, 0]
    r := #v[r1, r1, r2]
    p := #v[shr16 r1 1, shr16 r1 1, shr16 r2 1]
    a := #v[B.a[0], leak B.a[1], leak B.a[2]]
    b := #v[B.b[0], leak B.b[1], leak B.b[2], leak B.b[3], leak B.b[4], leak B.b[5], leak B.b[6]] }

/-- The step size of a band, reset where the concealed high band was long (46_plc_synthesis.md R395). -/
def reconvStep (long : Bool) (det : I16) (B : Band) : Band := if long then { B with det := det, nb := 0 } else B

/-- What `reconverge()` does to one band. -/
def reconvOne (P : Profile) (plc : Plc) (det : I16) (B : Band) (hist : List I16) (len : Nat) : Band :=
  let B1 := reconvBand P.plc B (hist.getD (len - 1) 0) (hist.getD (len - 2) 0)
  predict P (reconvStep (decide (hbResetThr < plc.cntH)) det B1)

/-- `reconverge()` on `DEC` (46_plc_synthesis.md R395); the delay line is not touched. -/
def reconvDec (P : Profile) (plc : Plc) (dec : Ctx) : Ctx :=
  { dec with
    L := reconvOne P plc detL0 dec.L plc.histL P.plc.histLen
    H := reconvOne P plc detH0 dec.H plc.histH 160 }

/-- `reconverge()` on `PLC`: the recovery crossfade starts. -/
def reconvPlc (plc : Plc) : Plc := { plc with xfActive := true, xfPos := 0 }

end Sys2Proof.Machine
end

