-- ==== Sys2Proof/Machine/Qmf.lean ====
section
/-! DEFINITION. The QMF polyphase filterbank (41_qmf.md). -/

namespace Sys2Proof.Machine

/-- `push2(D, u, v)`: shift in `u`, then `v`, the newest at index 0 (41_qmf.md R200). -/
def push2 (D : Vector I16 24) (u v : I16) : Vector I16 24 :=
  #v[v, u, D[0], D[1], D[2], D[3], D[4], D[5], D[6], D[7], D[8], D[9],
     D[10], D[11], D[12], D[13], D[14], D[15], D[16], D[17], D[18], D[19], D[20], D[21]]

/-- The even-indexed dot product `XA` of 41_qmf.md R201. -/
def dotEven (h D : Vector I16 24) : Int :=
  h[0].toInt * D[0].toInt + h[2].toInt * D[2].toInt + h[4].toInt * D[4].toInt
  + h[6].toInt * D[6].toInt + h[8].toInt * D[8].toInt + h[10].toInt * D[10].toInt
  + h[12].toInt * D[12].toInt + h[14].toInt * D[14].toInt + h[16].toInt * D[16].toInt
  + h[18].toInt * D[18].toInt + h[20].toInt * D[20].toInt + h[22].toInt * D[22].toInt

/-- The odd-indexed dot product `XB` of 41_qmf.md R201. -/
def dotOdd (h D : Vector I16 24) : Int :=
  h[1].toInt * D[1].toInt + h[3].toInt * D[3].toInt + h[5].toInt * D[5].toInt
  + h[7].toInt * D[7].toInt + h[9].toInt * D[9].toInt + h[11].toInt * D[11].toInt
  + h[13].toInt * D[13].toInt + h[15].toInt * D[15].toInt + h[17].toInt * D[17].toInt
  + h[19].toInt * D[19].toInt + h[21].toInt * D[21].toInt + h[23].toInt * D[23].toInt

/-- What `qmf_tx_f` gives: the delay line after it and the two sub-band samples. -/
structure TxOut where
  D : Vector I16 24
  xl : I16
  xh : I16

/-- `(xl, xh) <- qmf_tx_f(x0, x1)` (41_qmf.md R202, 44_codec_commands.md R295): shift, then filter. -/
def qmfTxF (P : Profile) (D : Vector I16 24) (x0 x1 : I16) : TxOut :=
  let D' := push2 D x0 x1
  { D := D'
    xl := sat16 (shiftR (dotEven P.qmfH D' + dotOdd P.qmfH D') P.qmfTxShift)
    xh := sat16 (shiftR (dotEven P.qmfH D' - dotOdd P.qmfH D') P.qmfTxShift) }

/-- What `qmf_rx_f` gives: the delay line after it and the two PCM samples. -/
structure RxOut where
  D : Vector I16 24
  y0 : I16
  y1 : I16

/-- `(y0, y1) <- qmf_rx_f(rl, rh)` (41_qmf.md R203, 44_codec_commands.md R295). -/
def qmfRxF (P : Profile) (D : Vector I16 24) (rl rh : I16) : RxOut :=
  let D' := push2 D (add16 rl rh) (sub16 rl rh)
  { D := D'
    y0 := sat16 (shiftR (dotEven P.qmfH D') P.qmfRxShift)
    y1 := sat16 (shiftR (dotOdd P.qmfH D') P.qmfRxShift) }

/-- The register form of `QMF_TX` (41_qmf.md R202). -/
def State.qmfTx (P : Profile) (s : State) : State :=
  let o := qmfTxF P s.enc.D s.regs.x0 s.regs.x1
  { s with enc := { s.enc with D := o.D }, regs := { s.regs with xl := o.xl, xh := o.xh } }

/-- The register form of `QMF_RX` (41_qmf.md R203). -/
def State.qmfRx (P : Profile) (s : State) : State :=
  let o := qmfRxF P s.dec.D s.regs.xl s.regs.xh
  { s with dec := { s.dec with D := o.D }, regs := { s.regs with y0 := o.y0, y1 := o.y1 } }

/-- `QMF_TX` (41_qmf.md R202). -/
def execQmfTx (s : State) : Result := .next (s.qmfTx profile)

/-- `QMF_RX` (41_qmf.md R203). -/
def execQmfRx (s : State) : Result := .next (s.qmfRx profile)

end Sys2Proof.Machine
end

