-- ==== Sys2Proof/Machine/Quant.lean ====
section
/-! DEFINITION. The quantizer stages and their four commands (43_quantizers.md). -/

namespace Sys2Proof.Machine

/-! ### Quantizers -/

/-- The magnitude of a difference signal: its one's complement where it is negative (43_quantizers.md R261). -/
def quantMag (e : I16) : Int := if 0 ≤ e.toInt then e.toInt else -(e.toInt + 1)

/-- The magnitude level `mag` of 43_quantizers.md R261: one more than the number of scaled thresholds reached. -/
def levelL (P : Profile) (wd : Int) (det : I16) : Nat :=
  1 + P.q6.countP fun q => decide (shiftR (q.toInt * det.toInt) P.qlShift ≤ wd)

/-- `quant_l(el, det)` (43_quantizers.md R261). -/
def quantL (P : Profile) (el det : I16) : BitVec 6 :=
  let mag := levelL P (quantMag el) det
  if el.toInt < 0 then P.iln mag else P.ilp mag

/-- `quant_h(eh, det)` (43_quantizers.md R265). -/
def quantH (P : Profile) (eh det : I16) : BitVec 2 :=
  let mih := if shiftR (P.qhThr.toInt * det.toInt) P.qlShift ≤ quantMag eh then 2 else 1
  if eh.toInt < 0 then P.ihn mih else P.ihp mih

/-- The core index `ic = il >> CORE_SHIFT` (43_quantizers.md R264). -/
def coreIndex (P : Profile) (il : BitVec 6) : BitVec 4 := (il >>> P.coreShift).setWidth 4

/-- The adaptation of a low-band sample from its core index (43_quantizers.md R263, R271). -/
def adaptL (P : Profile) (B : Band) (ic : BitVec 4) : Band :=
  adapt P B (mult B.det (P.qm4 ic)) (P.wl (P.rl42 ic)) .low

/-- The adaptation of a high-band sample from its index (43_quantizers.md R266, R273). -/
def adaptH (P : Profile) (B : Band) (ih : BitVec 2) : Band :=
  adapt P B (mult B.det (P.qm2 ih)) (P.wh (P.rh2 ih)) .high

/-! ### Functional forms (44_codec_commands.md R295) -/

/-- What `enc_l_f` gives: the sub-state after it, the transmitted index and the noise-shaping pair. -/
structure EncLOut where
  B : Band
  il : BitVec 6
  tgt : I16
  err : I16

/-- `(il, t, e) <- enc_l_f(xl, m)` (43_quantizers.md R263), with `t = INVQ_L[m]`. -/
def encLF (P : Profile) (t : BitVec 6 → I16) (m : LMode) (B : Band) (xl : I16) : EncLOut :=
  let el := sub16 xl B.s
  let ilTx := quantL P el B.det &&& codeMask m
  { B := adaptL P B (coreIndex P ilTx)
    il := ilTx
    tgt := el
    err := sub16 el (mult B.det (t ilTx)) }

/-- What `enc_h_f` gives: the sub-state after it and the index. -/
structure EncHOut where
  B : Band
  ih : BitVec 2

/-- `ih <- enc_h_f(xh)` (43_quantizers.md R266). -/
def encHF (P : Profile) (B : Band) (xh : I16) : EncHOut :=
  let ih := quantH P (sub16 xh B.s) B.det
  { B := adaptH P B ih, ih := ih }

/-- What `dec_l_f` and `dec_h_f` give: the sub-state after it and the reconstructed sample. -/
structure DecOut where
  B : Band
  x : I16

/-- `rl <- dec_l_f(il, m)` (43_quantizers.md R271), with `t = INVQ_L[m]`. -/
def decLF (P : Profile) (t : BitVec 6 → I16) (m : LMode) (B : Band) (il : BitVec 6) : DecOut :=
  let ilm := il &&& codeMask m
  { B := adaptL P B (coreIndex P ilm)
    x := limit (add16 B.s (mult B.det (t ilm))) }

/-- `rh <- dec_h_f(ih)` (43_quantizers.md R273). -/
def decHF (P : Profile) (B : Band) (ih : BitVec 2) : DecOut :=
  let rh := add16 B.s (mult B.det (P.qm2 ih))
  { B := adaptH P B ih
    x := if P.hbLimit then limit rh else rh }

/-! ### Register forms -/

/-- `ENC_L` after its mode check (43_quantizers.md R263). -/
def State.encL (P : Profile) (t : BitVec 6 → I16) (m : LMode) (s : State) : State :=
  let o := encLF P t m s.enc.L s.regs.xl
  { s with
    enc := { s.enc with L := o.B }
    regs := { s.regs with il := o.il, nsTgt := o.tgt, nsErr := o.err } }

/-- `ENC_H` after its mode check (43_quantizers.md R266). -/
def State.encH (P : Profile) (s : State) : State :=
  let o := encHF P s.enc.H s.regs.xh
  { s with enc := { s.enc with H := o.B }, regs := { s.regs with ih := o.ih } }

/-- `DEC_L` after its mode check (43_quantizers.md R271). -/
def State.decL (P : Profile) (t : BitVec 6 → I16) (m : LMode) (s : State) : State :=
  let o := decLF P t m s.dec.L s.regs.il
  { s with dec := { s.dec with L := o.B }, regs := { s.regs with xl := o.x } }

/-- `DEC_H` after its mode check (43_quantizers.md R273). -/
def State.decH (P : Profile) (s : State) : State :=
  let o := decHF P s.dec.H s.regs.ih
  { s with dec := { s.dec with H := o.B }, regs := { s.regs with xh := o.x } }

/-! ### The commands, for any profile, and for the machine's -/

def encLCmd (P : Profile) (m : LMode) (s : State) : Result :=
  checkModeL P m s fun t => .next (s.encL P t m)

def encHCmd (P : Profile) (h : HMode) (s : State) : Result :=
  checkModeH h s (.next (s.encH P))

def decLCmd (P : Profile) (m : LMode) (s : State) : Result :=
  checkModeL P m s fun t => .next (s.decL P t m)

def decHCmd (P : Profile) (h : HMode) (s : State) : Result :=
  checkModeH h s (.next (s.decH P))

/-- `ENC_L` (43_quantizers.md R263). -/
def execEncL (m : LMode) (s : State) : Result := encLCmd profile m s

/-- `ENC_H` (43_quantizers.md R266). -/
def execEncH (h : HMode) (s : State) : Result := encHCmd profile h s

/-- `DEC_L` (43_quantizers.md R271). -/
def execDecL (m : LMode) (s : State) : Result := decLCmd profile m s

/-- `DEC_H` (43_quantizers.md R273). -/
def execDecH (h : HMode) (s : State) : Result := decHCmd profile h s

end Sys2Proof.Machine
end

