-- ==== Sys2Proof/Machine/Codec.lean ====
section
/-! DEFINITION. The pair and frame commands (44_codec_commands.md sections 3 and 4). -/

namespace Sys2Proof.Machine

/-! ### Pair commands -/

/-- `x[CODE] <- (x[IH] << 6) | x[IL]` (30_encoding.md R141). -/
def State.packCode (s : State) : State :=
  { s with regs := { s.regs with code := Sys2Proof.Machine.packCode s.regs.ih s.regs.il } }

/-- `x[IL] <- x[CODE][5:0]; x[IH] <- x[CODE][7:6]` (30_encoding.md R141). -/
def State.unpackCode (s : State) : State :=
  { s with regs := { s.regs with il := codeIl s.regs.code, ih := codeIh s.regs.code } }

/-- `ENC_PAIR` (44_codec_commands.md R296): both checks, then `QMF_TX`, `ENC_L`, `ENC_H` and the codeword. -/
def encPairCmd (P : Profile) (m : LMode) (h : HMode) (s : State) : Result :=
  checkModeL P m s fun t => checkModeH h s (.next ((((s.qmfTx P).encL P t m).encH P).packCode))

/-- `DEC_PAIR` (44_codec_commands.md R297): both checks, then the indices, `DEC_L`, `DEC_H` and `QMF_RX`. -/
def decPairCmd (P : Profile) (m : LMode) (h : HMode) (s : State) : Result :=
  checkModeL P m s fun t => checkModeH h s (.next (((s.unpackCode.decL P t m).decH P).qmfRx P))

/-! ### `ENC_FRAME` (44_codec_commands.md R299) -/

/-- What the loop of `ENC_FRAME` carries. -/
structure EncRun where
  enc : Ctx
  mem : Memory

/-- Codeword `n` of `ENC_FRAME` (44_codec_commands.md R299). -/
def encSample (P : Profile) (t : BitVec 6 → I16) (m : LMode) (n : Nat) (r : EncRun) : EncRun :=
  let q := qmfTxF P r.enc.D (r.mem.pcm (2 * n)) (r.mem.pcm (2 * n + 1))
  let l := encLF P t m r.enc.L q.xl
  let h := encHF P r.enc.H q.xh
  { enc := { L := l.B, H := h.B, D := q.D }
    mem := ((r.mem.setCode n (packCode h.ih l.il)).setNst n l.tgt).setNse n l.err }

/-- `ENC_FRAME` after its checks. -/
def State.encFrame (P : Profile) (t : BitVec 6 → I16) (m : LMode) (s : State) : State :=
  let r := forN s.regs.frameLen (encSample P t m) ⟨s.enc, s.mem⟩
  { s with enc := r.enc, mem := r.mem }

def encFrameCmd (P : Profile) (m : LMode) (h : HMode) (s : State) : Result :=
  checkModeL P m s fun t => checkModeH h s (.next (s.encFrame P t m))

/-! ### `DEC_FRAME` (44_codec_commands.md R300) -/

/-- What the loop of a good frame carries: the sub-band samples passed to QMF synthesis are collected for the
history. -/
structure DecRun where
  dec : Ctx
  plc : Plc
  mem : Memory
  lo : List I16
  hi : List I16

/-- Codeword `n` of a good frame (44_codec_commands.md R300). -/
def decSample (P : Profile) (t : BitVec 6 → I16) (m : LMode) (n : Nat) (r : DecRun) : DecRun :=
  let code := r.mem.code n
  let l := decLF P t m r.dec.L (codeIl code)
  let h := decHF P r.dec.H (codeIh code)
  let rl := if r.plc.xfActive then xfOut P.plc r.plc l.x else l.x
  let plc := if r.plc.xfActive then xfAdvance r.plc else r.plc
  let q := qmfRxF P r.dec.D rl h.x
  { dec := { L := l.B, H := h.B, D := q.D }
    plc := plc
    mem := (r.mem.setPcm (2 * n) q.y0).setPcm (2 * n + 1) q.y1
    lo := r.lo ++ [rl]
    hi := r.hi ++ [h.x] }

/-- The history update and `prev_bfi`, which end every frame (44_codec_commands.md R300). -/
def endFrame (P : PlcParams) (ep : Episode) (bfi : Bool) (lo hi : List I16) (plc : Plc) : Plc :=
  { pushHistory P lo hi { plc with episode := ep } with prevBfi := bfi }

/-- `DEC` at the start of a good frame: re-converged after a loss (44_codec_commands.md R300). -/
def goodStartDec (P : Profile) (plc : Plc) (dec : Ctx) : Ctx :=
  if plc.prevBfi then reconvDec P plc dec else dec

/-- `PLC` at the start of a good frame. -/
def goodStartPlc (plc : Plc) : Plc := if plc.prevBfi then reconvPlc plc else plc

/-- A good `DEC_FRAME` after its checks. -/
def State.decGood (P : Profile) (t : BitVec 6 → I16) (m : LMode) (s : State) : State :=
  let r := forN s.regs.frameLen (decSample P t m)
    ⟨goodStartDec P s.plc s.dec, goodStartPlc s.plc, s.mem, [], []⟩
  { s with dec := r.dec, mem := r.mem, plc := endFrame P.plc .none false r.lo r.hi r.plc }

/-- What the synthesis loop of a lost frame carries. -/
structure RxRun where
  D : Vector I16 24
  mem : Memory

/-- Sample pair `n` of a lost frame (44_codec_commands.md R300, 41_qmf.md R206). -/
def lostSample (P : Profile) (lo hi : List I16) (n : Nat) (r : RxRun) : RxRun :=
  let q := qmfRxF P r.D (lo.getD n 0) (hi.getD n 0)
  { D := q.D, mem := (r.mem.setPcm (2 * n) q.y0).setPcm (2 * n + 1) q.y1 }

/-- `PLC` at the start of a lost frame: analysed where the frame before was good (45_plc_analysis.md R351, R352). -/
def lostStart (P : PlcParams) (dec : Ctx) (plc : Plc) : Plc :=
  if plc.prevBfi then plc else analyse P dec.L.nb dec.H.nb plc

/-- A lost `DEC_FRAME` after its checks. `CODEBUF` is not read. -/
def State.decLost (P : Profile) (s : State) : State :=
  let N := s.regs.frameLen
  let c := conceal P.plc N (lostStart P.plc s.dec s.plc)
  let r := forN N (lostSample P c.lo c.hi) ⟨s.dec.D, s.mem⟩
  let ep := if s.plc.prevBfi then Episode.continuingLoss else Episode.firstLoss
  { s with
    dec := { s.dec with D := r.D }
    mem := r.mem
    plc := endFrame P.plc ep true c.lo c.hi c.plc }

def decFrameCmd (P : Profile) (m : LMode) (h : HMode) (loss : Bool) (s : State) : Result :=
  checkModeL P m s fun t => checkModeH h s (.next (if loss then s.decLost P else s.decGood P t m))

/-! ### The commands -/

/-- `ENC_PAIR` (44_codec_commands.md R296). -/
def execEncPair (m : LMode) (h : HMode) (s : State) : Result := encPairCmd profile m h s

/-- `DEC_PAIR` (44_codec_commands.md R297). -/
def execDecPair (m : LMode) (h : HMode) (s : State) : Result := decPairCmd profile m h s

/-- `ENC_FRAME` (44_codec_commands.md R299). -/
def execEncFrame (m : LMode) (h : HMode) (s : State) : Result := encFrameCmd profile m h s

/-- `DEC_FRAME` (44_codec_commands.md R300). -/
def execDecFrame (m : LMode) (h : HMode) (loss : Bool) (s : State) : Result := decFrameCmd profile m h loss s

end Sys2Proof.Machine
end

