-- ==== Sys2Proof/Machine/Sat.lean ====
section
/-! DEFINITION. The six commands of the saturating unit (40_saturating_arith.md section 2). Each reads `SAT_A` and
`SAT_B` and writes `SAT_R`. -/

namespace Sys2Proof.Machine

/-- `x[SAT_R] <- v` -/
def State.setSatR (v : I16) (s : State) : State := { s with regs := { s.regs with satR := v } }

/-- `SAT` (40_saturating_arith.md R184). -/
def execSat (s : State) : Result := .next (s.setSatR (sat16 (opA32 s.regs)))

/-- `SADD` (R185). -/
def execSadd (s : State) : Result := .next (s.setSatR (add16 (opA s.regs) (opB s.regs)))

/-- `SSUB` (R186). -/
def execSsub (s : State) : Result := .next (s.setSatR (sub16 (opA s.regs) (opB s.regs)))

/-- `SMULQ15` (R187). -/
def execSmulq15 (s : State) : Result := .next (s.setSatR (mult (opA s.regs) (opB s.regs)))

/-- `SSHL` (R188). -/
def execSshl (s : State) : Result := .next (s.setSatR (shl16 (opA s.regs) (opN s.regs)))

/-- `SSHR` (R189). -/
def execSshr (s : State) : Result := .next (s.setSatR (shr16 (opA s.regs) (opN s.regs)))

end Sys2Proof.Machine
end

