-- ==== Sys2Proof/Machine/System.lean ====
section
/-! DEFINITION. `NOP` and the reset commands (44_codec_commands.md R290 to R294). -/

namespace Sys2Proof.Machine

/-- `ENC` at its reset value (10_state.md R60). -/
def State.resetEnc (s : State) : State := { s with enc := Ctx.reset }

/-- `DEC` at its reset value (10_state.md R60). -/
def State.resetDec (s : State) : State := { s with dec := Ctx.reset }

/-- `PLC` at its reset value (10_state.md R64). -/
def State.resetPlc (P : PlcParams) (s : State) : State := { s with plc := Plc.reset P }

/-- `NOP` (44_codec_commands.md R290). -/
def execNop (s : State) : Result := .next s

/-- `RESET_ENC` (R291). -/
def execResetEnc (s : State) : Result := .next s.resetEnc

/-- `RESET_DEC` (R292). -/
def execResetDec (s : State) : Result := .next s.resetDec

/-- `PLC_RESET` (R293). -/
def execPlcReset (s : State) : Result := .next (s.resetPlc profile.plc)

/-- `RESET_ALL` (R294): the three resets as one command. -/
def execResetAll (s : State) : Result := .next ((s.resetEnc.resetDec).resetPlc profile.plc)

end Sys2Proof.Machine
end

