-- ==== Sys2Proof/Machine/Dispatch.lean ====
section
/-! DEFINITION. Which meaning each command has: one arm per row of the opcode map (30_encoding.md R146). -/

namespace Sys2Proof.Machine

def exec (i : Instr) (s : State) : Host.Outcome State Fault Refusal :=
  match i with
  | .nop => Sys2Proof.Machine.execNop s
  | .resetEnc => Sys2Proof.Machine.execResetEnc s
  | .resetDec => Sys2Proof.Machine.execResetDec s
  | .plcReset => Sys2Proof.Machine.execPlcReset s
  | .resetAll => Sys2Proof.Machine.execResetAll s
  | .qmfTx => Sys2Proof.Machine.execQmfTx s
  | .qmfRx => Sys2Proof.Machine.execQmfRx s
  | .encL m => Sys2Proof.Machine.execEncL m s
  | .encH h => Sys2Proof.Machine.execEncH h s
  | .decL m => Sys2Proof.Machine.execDecL m s
  | .decH h => Sys2Proof.Machine.execDecH h s
  | .encPair m h => Sys2Proof.Machine.execEncPair m h s
  | .decPair m h => Sys2Proof.Machine.execDecPair m h s
  | .encFrame m h => Sys2Proof.Machine.execEncFrame m h s
  | .decFrame m h loss => Sys2Proof.Machine.execDecFrame m h loss s
  | .sat => Sys2Proof.Machine.execSat s
  | .sadd => Sys2Proof.Machine.execSadd s
  | .ssub => Sys2Proof.Machine.execSsub s
  | .smulq15 => Sys2Proof.Machine.execSmulq15 s
  | .sshl => Sys2Proof.Machine.execSshl s
  | .sshr => Sys2Proof.Machine.execSshr s

end Sys2Proof.Machine
end

