-- ==== Sys2Proof/Machine/HostBus.lean ====
section
/-! DEFINITION. The host window: its map (20_memory.md R101 to R103), what an aligned 32-bit read returns, and what an
aligned 32-bit write of anything but `CMD` does (10_state.md R41 to R47). -/

namespace Sys2Proof.Machine

/-! ### The map -/

/-- The host registers (10_state.md R41). -/
inductive HostReg where
  | id
  | cmd
  | status
  | frameLen
  | x0
  | x1
  | xl
  | xh
  | il
  | ih
  | code
  | y0
  | y1
  | nsTgt
  | nsErr
  | satA
  | satB
  | satR
  deriving DecidableEq, Repr

/-- The offset of a host register (10_state.md R41). -/
def regOffset : HostReg → Nat
  | .id => 0x000
  | .cmd => 0x004
  | .status => 0x008
  | .frameLen => 0x00C
  | .x0 => 0x010
  | .x1 => 0x014
  | .xl => 0x018
  | .xh => 0x01C
  | .il => 0x020
  | .ih => 0x024
  | .code => 0x028
  | .y0 => 0x02C
  | .y1 => 0x030
  | .nsTgt => 0x034
  | .nsErr => 0x038
  | .satA => 0x03C
  | .satB => 0x040
  | .satR => 0x044

/-- The host registers in the order of their offsets. -/
def hostRegs : List HostReg :=
  [.id, .cmd, .status, .frameLen, .x0, .x1, .xl, .xh, .il, .ih, .code, .y0, .y1, .nsTgt, .nsErr, .satA, .satB, .satR]

/-- What stands at an aligned offset of the window (20_memory.md R101). A window or buffer word is named by its number
in its region. -/
inductive Target where
  | reg (r : HostReg)
  | encWin (k : Nat)
  | decWin (k : Nat)
  | plcWin (k : Nat)
  | pcm (k : Nat)
  | code (k : Nat)
  | nst (k : Nat)
  | nse (k : Nat)
  /-- a reserved or unimplemented word (20_memory.md R106) -/
  | reserved
  deriving DecidableEq, Repr

/-- The region map of 20_memory.md R101, for an aligned offset. -/
def targetAt (o : Nat) : Target :=
  if o < 0x200 then
    match hostRegs.find? fun r => regOffset r == o with
    | some r => .reg r
    | none => .reserved
  else if o < 0x400 then .encWin ((o - 0x200) / 4)
  else if o < 0x600 then .decWin ((o - 0x400) / 4)
  else if o < 0x800 then .plcWin ((o - 0x600) / 4)
  else if o < 0x0D00 then .pcm ((o - 0x0800) / 4)
  else if o < 0x1000 then .reserved
  else if o < 0x1280 then .code ((o - 0x1000) / 4)
  else if o < 0x1800 then .reserved
  else if o < 0x1A80 then .nst ((o - 0x1800) / 4)
  else if o < 0x2000 then .reserved
  else if o < 0x2280 then .nse ((o - 0x2000) / 4)
  else .reserved

/-! ### Reads -/

/-- The 28 words of a band sub-state, in the order of 20_memory.md R102. -/
def bandWords (B : Band) : List I16 :=
  B.a.toList ++ B.b.toList ++ B.d.toList ++ B.p.toList ++ B.r.toList ++ [B.nb, B.det, B.s, B.sp, B.sz]

/-- Word `k` of a context window (20_memory.md R102): `L` at +0x000, `H` at +0x080, `D` at +0x100; all else reads 0. -/
def ctxWindow (C : Ctx) (k : Nat) : I16 :=
  if k < 32 then (bandWords C.L).getD k 0
  else if k < 64 then (bandWords C.H).getD (k - 32) 0
  else C.D.toList.getD (k - 64) 0

/-- Word `k` of the PLC window (20_memory.md R103). -/
def plcWindow (p : Plc) (k : Nat) : Word :=
  ([ countWord (classNumber p.cls), countWord p.t0, countWord (episodeNumber p.episode), boolWord p.prevBfi,
     countWord p.cntL, countWord p.cntH, countWord p.xfPos, boolWord p.xfActive, countWord p.tSyn ] : List Word).getD k 0

/-- The constant `ID` (10_state.md R41). -/
def idWord : Word := 0x47373232#32

/-- What a read of a host register returns (10_state.md R41 to R47). -/
def readReg (s : State) : HostReg → Word
  | .id => idWord
  | .cmd => 0
  | .status => statusWord s.status s.plc
  | .frameLen => BitVec.ofNat 32 s.regs.frameLen
  | .x0 => sampleWord s.regs.x0
  | .x1 => sampleWord s.regs.x1
  | .xl => sampleWord s.regs.xl
  | .xh => sampleWord s.regs.xh
  | .il => s.regs.il.setWidth 32
  | .ih => s.regs.ih.setWidth 32
  | .code => s.regs.code.setWidth 32
  | .y0 => sampleWord s.regs.y0
  | .y1 => sampleWord s.regs.y1
  | .nsTgt => sampleWord s.regs.nsTgt
  | .nsErr => sampleWord s.regs.nsErr
  | .satA => s.regs.satA
  | .satB => s.regs.satB
  | .satR => sampleWord s.regs.satR

/-- What an aligned 32-bit read returns (20_memory.md R101 to R103, R106). -/
def readTarget (s : State) : Target → Word
  | .reg r => readReg s r
  | .encWin k => sampleWord (ctxWindow s.enc k)
  | .decWin k => sampleWord (ctxWindow s.dec k)
  | .plcWin k => plcWindow s.plc k
  | .pcm k => sampleWord (s.mem.pcm k)
  | .code k => (s.mem.code k).setWidth 32
  | .nst k => sampleWord (s.mem.nst k)
  | .nse k => sampleWord (s.mem.nse k)
  | .reserved => 0

/-! ### Writes -/

/-- What a write of `v` leaves in `FRAMELEN` (10_state.md R44). -/
def frameLenAfter (v : Word) (old : Nat) : Nat := if 1 ≤ v.toNat ∧ v.toNat ≤ frameMax then v.toNat else old

/-- A write to a host register other than `CMD`, whose write is the start of a command (10_state.md R41 to R47). -/
def writeReg (v : Word) (s : State) : HostReg → State
  | .id => s
  | .cmd => s
  | .status => s.clearError v
  | .frameLen => { s with regs := { s.regs with frameLen := frameLenAfter v s.regs.frameLen } }
  | .x0 => { s with regs := { s.regs with x0 := sampleOf v } }
  | .x1 => { s with regs := { s.regs with x1 := sampleOf v } }
  | .xl => { s with regs := { s.regs with xl := sampleOf v } }
  | .xh => { s with regs := { s.regs with xh := sampleOf v } }
  | .il => { s with regs := { s.regs with il := v.extractLsb' 0 6 } }
  | .ih => { s with regs := { s.regs with ih := v.extractLsb' 0 2 } }
  | .code => { s with regs := { s.regs with code := v.extractLsb' 0 8 } }
  | .y0 => s
  | .y1 => s
  | .nsTgt => s
  | .nsErr => s
  | .satA => { s with regs := { s.regs with satA := v } }
  | .satB => { s with regs := { s.regs with satB := v } }
  | .satR => s

/-- An aligned 32-bit write of a word other than `CMD` (20_memory.md R101, R106). -/
def writeTarget (v : Word) (s : State) : Target → State
  | .reg r => writeReg v s r
  | .encWin _ => s
  | .decWin _ => s
  | .plcWin _ => s
  | .pcm k => { s with mem := s.mem.setPcm k (sampleOf v) }
  | .code k => { s with mem := s.mem.setCode k (v.extractLsb' 0 8) }
  | .nst _ => s
  | .nse _ => s
  | .reserved => s

/-- A defined access: 32 bits wide, at a multiple of 4 (20_memory.md R105). -/
def accessOk (offset : BitVec 14) (w : Width) : Bool := decide (w = .w32) && decide (offset.toNat % 4 = 0)

/-- The host receives the word a read returns (log 9). -/
def State.answer (v : Word) (s : State) : State := { s with bus := { s.bus with readData := v } }

/-- A host read (20_memory.md R105 to R107). -/
def hostRead (offset : BitVec 14) (w : Width) (s : State) : State :=
  if accessOk offset w then s.answer (readTarget s (targetAt offset.toNat))
  else (s.raiseError .bus).answer 0

end Sys2Proof.Machine
end

