-- ==== Sys2Proof/Machine/Serve.lean ====
section
/-! DEFINITION. Serving one host access (20_memory.md R109): a write to `CMD` runs one command to its end. -/

namespace Sys2Proof.Machine

/-- The error of a command word that is no command. -/
def decodeErrCode : DecodeError → ErrCode
  | .illegalOpc => .illegalOpc
  | .rsvdBits => .rsvdBits

/-- A write of `v` to `CMD` (10_state.md R42): the checks of 60_exceptions.md R433 that need no mode, then the
command, which makes its own mode checks first. -/
def runCommand (v : Word) (s : State) : Result :=
  match decode v with
  | .ok i => exec i s
  | .error e => .next (s.raiseError (decodeErrCode e))

/-- A host write (20_memory.md R105 to R107). -/
def hostWrite (offset : BitVec 14) (w : Width) (v : Word) (s : State) : Result :=
  if accessOk offset w then
    if targetAt offset.toNat = .reg .cmd then runCommand v s
    else .next (writeTarget v s (targetAt offset.toNat))
  else .next (s.raiseError .bus)

/-- Power-on reset (70_reset_and_hazards.md R470): every piece of the block's state takes its reset value; the host's
side of the window is not the block's (log 18). -/
def State.powerOn (s : State) : State := { State.reset with bus := s.bus }

/-- Serve one input. -/
def serve (x : HostInput) (s : State) : Result :=
  match x with
  | .read o w => .next (hostRead o w s)
  | .write o w v => hostWrite o w v s
  | .powerOnReset => .next s.powerOn

/-- The state with its oldest input taken off the list. -/
def State.setInputs (xs : List HostInput) (s : State) : State := { s with bus := { s.bus with inputs := xs } }

/-- Serve the oldest input; with none, the block does nothing (60_exceptions.md R447; log 20). -/
def serveNext (s : State) : Result :=
  match s.bus.inputs with
  | [] => .next s
  | x :: rest => serve x (s.setInputs rest)

/-- The access that hands a command word to the block (10_state.md R42). -/
def cmdWrite (v : Word) : HostInput := .write 0x0004#14 .w32 v

end Sys2Proof.Machine
end

