-- ==== Sys2Proof/Machine/Step.lean ====
section
/-! DEFINITION. One step of the machine: one host access, with the command it starts. -/

namespace Sys2Proof.Machine

/-- One step (20_memory.md R109). -/
def step (s : State) : Host.Outcome State Fault Refusal := serveNext s

/-- `s` with the command word `w` of the table as the very next thing the host writes to `CMD` (log 10). -/
def State.withFetchWord (s : State) (nbits w : Nat) : State :=
  s.setInputs (cmdWrite (Sys2Proof.tableWord nbits w) :: s.bus.inputs)

end Sys2Proof.Machine
end

