-- ==== Sys2Proof/Machine/HostProgram.lean ====
section
/-! DEFINITION. Host programs (30_encoding.md R152, R153): each line is one host access; each pseudo-command is a list
of them. -/

namespace Sys2Proof.Machine

/-- `WR` at a byte offset. -/
def wrAt (o : Nat) (v : Word) : HostInput := .write (BitVec.ofNat 14 o) .w32 v

/-- `RD` at a byte offset. -/
def rdAt (o : Nat) : HostInput := .read (BitVec.ofNat 14 o) .w32

/-- `WR <reg>, <value>` -/
def wrReg (r : HostReg) (v : Word) : HostInput := wrAt (regOffset r) v

/-- `RD <reg>` -/
def rdReg (r : HostReg) : HostInput := rdAt (regOffset r)

/-- `<MNEMONIC> [lmode=…] [hmode=…] [loss]` -/
def command (i : Instr) : HostInput := wrReg .cmd (encode i)

/-- `CMDWORD <value>` -/
def cmdWordLine (v : Word) : HostInput := wrReg .cmd v

/-- `RESET` -/
def resetLine : List HostInput := [command .resetAll]

/-- `CLRERR` -/
def clrErr : List HostInput := [wrReg .status 0x2]

/-- `SETFRAME n` -/
def setFrame (n : Word) : List HostInput := [wrReg .frameLen n]

/-- `ENCODE x0, x1 [lmode=m] [hmode=h]` -/
def encodeLine (x0 x1 : Word) (m : LMode) (h : HMode) : List HostInput :=
  [wrReg .x0 x0, wrReg .x1 x1, command (.encPair m h)]

/-- `DECODE c [lmode=m] [hmode=h]` -/
def decodeLine (c : Word) (m : LMode) (h : HMode) : List HostInput := [wrReg .code c, command (.decPair m h)]

/-- `GOODFRAME [lmode=m]` -/
def goodFrame (m : LMode) : List HostInput := [command (.decFrame m .bits2 false)]

/-- `LOSTFRAME` -/
def lostFrame : List HostInput := [command (.decFrame .bits6 .bits2 true)]

/-- `SATOP op, a, b` -/
def satOp (op : Instr) (a b : Word) : List HostInput := [wrReg .satA a, wrReg .satB b, command op]

end Sys2Proof.Machine
end

