-- ==== Sys2Proof/Safety.lean ====
section
/-! DEFINITION. What holds of a state that a run can reach, and which command writes what: the terms the claims use. -/

namespace Sys2Proof.Machine

/-! ### Bands and contexts -/

/-- The bounds and conventions of a band sub-state between commands: 10_state.md R56 to R58, 42_adpcm_adapt.md R228,
R233, R235 to R238. -/
structure Band.Ok (P : Profile) (k : BandId) (B : Band) : Prop where
  a0 : B.a[0] = 0
  b0 : B.b[0] = 0
  a2_lo : -12288 ≤ B.a[2].toInt
  a2_hi : B.a[2].toInt ≤ 12288
  a1_lo : -(15360 - B.a[2].toInt) ≤ B.a[1].toInt
  a1_hi : B.a[1].toInt ≤ 15360 - B.a[2].toInt
  nb_lo : 0 ≤ B.nb.toInt
  nb_hi : B.nb.toInt ≤ nbMax k
  det_eq : B.det = P.ila (B.nb.toInt.toNat / 64 + ilaOff P k)
  d01 : B.d[0] = B.d[1]
  p01 : B.p[0] = B.p[1]
  r01 : B.r[0] = B.r[1]
  sp_eq : B.sp = filtep B
  sz_eq : B.sz = filtez P B
  s_eq : B.s = add16 B.sp B.sz

/-- Both bands of a context. -/
structure Ctx.Ok (P : Profile) (C : Ctx) : Prop where
  low : C.L.Ok P .low
  high : C.H.Ok P .high

/-! ### The PLC state (10_state.md R62, R63; 45_plc_analysis.md R353) -/

/-- The lengths and ranges of the PLC fields between commands. -/
structure Plc.Ok (P : PlcParams) (p : Plc) : Prop where
  histL_len : p.histL.length = P.histLen
  histH_len : p.histH.length = 160
  exc_len : p.exc.length = P.excLen
  lpc_len : p.lpc.length = 8
  synMem_len : p.synMem.length = 8
  xfBuf_len : p.xfBuf.length = 80
  hbPer_len : p.hbPer.length = 160
  t0_range : p.t0 = 0 ∨ (P.minPit ≤ p.t0 ∧ p.t0 ≤ P.maxPit)
  tSyn_eq : p.tSyn = p.t0 ∨ p.tSyn = p.t0 + 1
  cnt_eq : p.cntL = p.cntH
  wL_lo : 0 ≤ p.wL
  wL_hi : p.wL ≤ 1
  wH_lo : 0 ≤ p.wH
  wH_hi : p.wH ≤ 1
  xfPos_le : p.xfPos ≤ 80
  xfActive_pos : p.xfActive = true → p.xfPos < 80
  xfActive_good : p.xfActive = true → p.prevBfi = false
  hbPhase_lt : p.hbPhase < hbPeriod p
  episode_none : p.episode = .none ↔ p.prevBfi = false

/-! ### Registers, status and buffers -/

/-- `FRAMELEN` is a frame length (10_state.md R44). -/
def Regs.Ok (r : Regs) : Prop := 1 ≤ r.frameLen ∧ r.frameLen ≤ 160

/-- `ERRCODE` is 0 when `ERR` is 0, and only a code of 60_exceptions.md R431 is ever recorded (10_state.md R43). -/
def Status.Ok (st : Status) : Prop :=
  (st.err = false → st.errCode = 0) ∧ (st.err = true → st.errCode ∈ ([1, 2, 3, 6] : List (BitVec 4)))

/-- An offset that holds a byte of an implemented buffer element (20_memory.md R101; log 13). -/
def elementByte (a : Nat) : Bool :=
  (decide (0x0800 ≤ a) && decide (a < 0x0D00) && decide (a % 4 < 2))
    || (decide (0x1000 ≤ a) && decide (a < 0x1280) && decide (a % 4 = 0))
    || (decide (0x1800 ≤ a) && decide (a < 0x1A80) && decide (a % 4 < 2))
    || (decide (0x2000 ≤ a) && decide (a < 0x2280) && decide (a % 4 < 2))

/-- Every listed byte is a byte of an implemented buffer element. -/
def Memory.inBuffers (m : Memory) : Bool := m.all fun c => elementByte c.1

/-- Everything above, of the machine's profile. -/
structure State.Ok (s : State) : Prop where
  regs : s.regs.Ok
  status : s.status.Ok
  enc : s.enc.Ok profile
  dec : s.dec.Ok profile
  plc : s.plc.Ok profile.plc
  mem : s.mem.wf = true
  buffers : s.mem.inBuffers = true

/-! ### Which command writes what (10_state.md R48, R61) -/

/-- The host registers a command writes (10_state.md R48). -/
def regsWritten : Instr → List HostReg
  | .nop => []
  | .resetEnc => []
  | .resetDec => []
  | .plcReset => []
  | .resetAll => []
  | .qmfTx => [.xl, .xh]
  | .qmfRx => [.y0, .y1]
  | .encL _ => [.il, .nsTgt, .nsErr]
  | .encH _ => [.ih]
  | .decL _ => [.xl]
  | .decH _ => [.xh]
  | .encPair _ _ => [.xl, .xh, .il, .ih, .code, .nsTgt, .nsErr]
  | .decPair _ _ => [.il, .ih, .xl, .xh, .y0, .y1]
  | .encFrame _ _ => []
  | .decFrame _ _ _ => []
  | .sat => [.satR]
  | .sadd => [.satR]
  | .ssub => [.satR]
  | .smulq15 => [.satR]
  | .sshl => [.satR]
  | .sshr => [.satR]

/-- The commands that may write `ENC` (10_state.md R61). -/
def writesEnc : Instr → Bool
  | .qmfTx => true
  | .encL _ => true
  | .encH _ => true
  | .encPair _ _ => true
  | .encFrame _ _ => true
  | .resetEnc => true
  | .resetAll => true
  | .nop => false
  | .resetDec => false
  | .plcReset => false
  | .qmfRx => false
  | .decL _ => false
  | .decH _ => false
  | .decPair _ _ => false
  | .decFrame _ _ _ => false
  | .sat => false
  | .sadd => false
  | .ssub => false
  | .smulq15 => false
  | .sshl => false
  | .sshr => false

/-- The commands that may write `DEC` (10_state.md R61). -/
def writesDec : Instr → Bool
  | .qmfRx => true
  | .decL _ => true
  | .decH _ => true
  | .decPair _ _ => true
  | .decFrame _ _ _ => true
  | .resetDec => true
  | .resetAll => true
  | .nop => false
  | .resetEnc => false
  | .plcReset => false
  | .qmfTx => false
  | .encL _ => false
  | .encH _ => false
  | .encPair _ _ => false
  | .encFrame _ _ => false
  | .sat => false
  | .sadd => false
  | .ssub => false
  | .smulq15 => false
  | .sshl => false
  | .sshr => false

/-- The commands that may write `PLC` (44_codec_commands.md R293, R294, R300). -/
def writesPlc : Instr → Bool
  | .plcReset => true
  | .resetAll => true
  | .decFrame _ _ _ => true
  | .nop => false
  | .resetEnc => false
  | .resetDec => false
  | .qmfTx => false
  | .qmfRx => false
  | .encL _ => false
  | .encH _ => false
  | .decL _ => false
  | .decH _ => false
  | .encPair _ _ => false
  | .decPair _ _ => false
  | .encFrame _ _ => false
  | .sat => false
  | .sadd => false
  | .ssub => false
  | .smulq15 => false
  | .sshl => false
  | .sshr => false

/-- The commands that write buffers (44_codec_commands.md R306). -/
def writesBuffers : Instr → Bool
  | .encFrame _ _ => true
  | .decFrame _ _ _ => true
  | .nop => false
  | .resetEnc => false
  | .resetDec => false
  | .plcReset => false
  | .resetAll => false
  | .qmfTx => false
  | .qmfRx => false
  | .encL _ => false
  | .encH _ => false
  | .decL _ => false
  | .decH _ => false
  | .encPair _ _ => false
  | .decPair _ _ => false
  | .sat => false
  | .sadd => false
  | .ssub => false
  | .smulq15 => false
  | .sshl => false
  | .sshr => false

/-- The host registers a command reads (10_state.md R48). -/
def regsRead : Instr → List HostReg
  | .nop => []
  | .resetEnc => []
  | .resetDec => []
  | .plcReset => []
  | .resetAll => []
  | .qmfTx => [.x0, .x1]
  | .qmfRx => [.xl, .xh]
  | .encL _ => [.xl]
  | .encH _ => [.xh]
  | .decL _ => [.il]
  | .decH _ => [.ih]
  | .encPair _ _ => [.x0, .x1]
  | .decPair _ _ => [.code]
  | .encFrame _ _ => []
  | .decFrame _ _ _ => []
  | .sat => [.satA, .satB]
  | .sadd => [.satA, .satB]
  | .ssub => [.satA, .satB]
  | .smulq15 => [.satA, .satB]
  | .sshl => [.satA, .satB]
  | .sshr => [.satA, .satB]

/-- A state with some of its parts replaced, for claims about what a command cannot see. -/
def State.withStatus (st : Status) (s : State) : State := { s with status := st }

def State.withMem (m : Memory) (s : State) : State := { s with mem := m }

/-! ### The spec's lists of encodings and offsets, for claims about malformed commands and accesses -/

/-- The opcodes that 30_encoding.md R147 lists as illegal. -/
def illegalOpcode (o : Nat) : Bool :=
  (decide (0x05 ≤ o) && decide (o ≤ 0x0F)) || (decide (0x12 ≤ o) && decide (o ≤ 0x1F))
    || (decide (0x24 ≤ o) && decide (o ≤ 0x2F)) || (decide (0x32 ≤ o) && decide (o ≤ 0x3F))
    || (decide (0x42 ≤ o) && decide (o ≤ 0x4F)) || (decide (0x56 ≤ o) && decide (o ≤ 0xFF))

/-- The opcodes whose row of 30_encoding.md R146 marks `LMODE` used. -/
def usesLmode (o : Nat) : Bool := ([0x20, 0x22, 0x30, 0x31, 0x40, 0x41] : List Nat).contains o

/-- The opcodes whose row of 30_encoding.md R146 marks `HMODE` used. -/
def usesHmode (o : Nat) : Bool := ([0x21, 0x23, 0x30, 0x31, 0x40, 0x41] : List Nat).contains o

/-- The offsets of the reserved rows and unimplemented tails of 20_memory.md R101, with the holes of the context
windows (R102). -/
def unimplementedOffset (o : Nat) : Bool :=
  (decide (0x048 ≤ o) && decide (o < 0x200))
    || (decide (0x270 ≤ o) && decide (o < 0x280)) || (decide (0x2F0 ≤ o) && decide (o < 0x300))
    || (decide (0x360 ≤ o) && decide (o < 0x400))
    || (decide (0x470 ≤ o) && decide (o < 0x480)) || (decide (0x4F0 ≤ o) && decide (o < 0x500))
    || (decide (0x560 ≤ o) && decide (o < 0x600)) || (decide (0x624 ≤ o) && decide (o < 0x800))
    || (decide (0x0D00 ≤ o) && decide (o < 0x1000)) || (decide (0x1280 ≤ o) && decide (o < 0x1800))
    || (decide (0x1A80 ≤ o) && decide (o < 0x2000)) || (decide (0x2280 ≤ o) && decide (o < 0x4000))

/-- The offsets of read-only words (10_state.md R41, 20_memory.md R101 to R103). `STATUS`, read-only but for bit 1, is
not among them. -/
def readOnlyOffset (o : Nat) : Bool :=
  ([0x000, 0x02C, 0x030, 0x034, 0x038, 0x044] : List Nat).contains o
    || (decide (0x200 ≤ o) && decide (o < 0x360)) || (decide (0x400 ≤ o) && decide (o < 0x560))
    || (decide (0x600 ≤ o) && decide (o < 0x624)) || (decide (0x1800 ≤ o) && decide (o < 0x1A80))
    || (decide (0x2000 ≤ o) && decide (o < 0x2280))

/-- The field at a byte offset of a band's half of a context window (20_memory.md R102). -/
def bandField (B : Band) (o : Nat) : I16 :=
  if o < 0x00C then B.a.toList.getD (o / 4) 0
  else if o < 0x028 then B.b.toList.getD ((o - 0x00C) / 4) 0
  else if o < 0x044 then B.d.toList.getD ((o - 0x028) / 4) 0
  else if o < 0x050 then B.p.toList.getD ((o - 0x044) / 4) 0
  else if o < 0x05C then B.r.toList.getD ((o - 0x050) / 4) 0
  else if o = 0x05C then B.nb
  else if o = 0x060 then B.det
  else if o = 0x064 then B.s
  else if o = 0x068 then B.sp
  else if o = 0x06C then B.sz
  else 0

/-- The field at a byte offset of a context window (20_memory.md R102). -/
def ctxField (C : Ctx) (o : Nat) : I16 :=
  if o < 0x080 then bandField C.L o
  else if o < 0x100 then bandField C.H (o - 0x080)
  else if o < 0x160 then C.D.toList.getD ((o - 0x100) / 4) 0
  else 0

/-! ### Reset values, field by field (10_state.md R60, R64) -/

/-- Every field of a band sub-state at its reset value. -/
structure Band.IsReset (det : I16) (B : Band) : Prop where
  a : ∀ i : Fin 3, B.a[i] = 0
  b : ∀ i : Fin 7, B.b[i] = 0
  d : ∀ i : Fin 7, B.d[i] = 0
  p : ∀ i : Fin 3, B.p[i] = 0
  r : ∀ i : Fin 3, B.r[i] = 0
  nb : B.nb = 0
  det : B.det = det
  s : B.s = 0
  sp : B.sp = 0
  sz : B.sz = 0

/-- Every field of a context at its reset value. -/
structure Ctx.IsReset (C : Ctx) : Prop where
  low : C.L.IsReset 32
  high : C.H.IsReset 8
  line : ∀ i : Fin 24, C.D[i] = 0

/-- Every field of the PLC state at its reset value. -/
structure Plc.IsReset (P : PlcParams) (p : Plc) : Prop where
  histL_len : p.histL.length = 2 * P.maxPit + 9
  histL : ∀ x ∈ p.histL, x = 0
  histH_len : p.histH.length = 160
  histH : ∀ x ∈ p.histH, x = 0
  exc_len : p.exc.length = 2 * P.maxPit + 1
  exc : ∀ x ∈ p.exc, x = 0
  lpc_len : p.lpc.length = 8
  lpc : ∀ x ∈ p.lpc, x = 0
  cls : p.cls = .unvoiced
  t0 : p.t0 = 0
  prevBfi : p.prevBfi = false
  episode : p.episode = .none
  cntL : p.cntL = 0
  cntH : p.cntH = 0
  wL : p.wL = 1
  wH : p.wH = 1
  xfBuf_len : p.xfBuf.length = 80
  xfBuf : ∀ x ∈ p.xfBuf, x = 0
  xfPos : p.xfPos = 0
  xfActive : p.xfActive = false
  synMem_len : p.synMem.length = 8
  synMem : ∀ x ∈ p.synMem, x = 0
  tSyn : p.tSyn = 0
  jit : p.jit = .plus
  hbPhase : p.hbPhase = 0
  hbPer_len : p.hbPer.length = 160
  hbPer : ∀ x ∈ p.hbPer, x = 0

/-! ### Frames and runs -/

/-- An offset that `ENC_FRAME` of `N` codewords stores to (44_codec_commands.md R299). -/
def encFrameStores (N a : Nat) : Prop :=
  ∃ n, n < N ∧ (a = codeAddr n ∨ a = nstAddr n ∨ a = nstAddr n + 1 ∨ a = nseAddr n ∨ a = nseAddr n + 1)

/-- An offset that `DEC_FRAME` of `N` codewords stores to (44_codec_commands.md R300). -/
def decFrameStores (N a : Nat) : Prop := ∃ k, k < 2 * N ∧ (a = pcmAddr k ∨ a = pcmAddr k + 1)

/-- A PCM pair put into `X0` and `X1`. -/
def State.loadPair (x0 x1 : I16) (s : State) : State := { s with regs := { s.regs with x0 := x0, x1 := x1 } }

/-- A codeword put into `CODE`. -/
def State.loadCode (c : Byte) (s : State) : State := { s with regs := { s.regs with code := c } }

/-- `n` steps. -/
def runSteps : Nat → State → Result
  | 0, s => .next s
  | n + 1, s =>
    match step s with
    | .next t => runSteps n t
    | .fault f => .fault f
    | .refused r => .refused r

end Sys2Proof.Machine
end

