-- ==== Sys2Proof/Certificates/Slice0/Obligations.lean ====
section
/-! DEFINITION. The statements about the machine, for the provers. Each names the rule of spec/ it formalises. -/

section Statements

open Sys2Proof Sys2Proof.Machine

/-! ### Encoding -/

/-- 30_encoding.md R146 to R148: words written out from the opcode map and the field layout. -/
def Obligations.SampleWordsDecode : Prop :=
  decode 0x00000000#32 = .ok .nop ∧ decode 0x00000B00#32 = .ok .nop ∧ decode 0x00000004#32 = .ok .resetAll
  ∧ decode 0x00000010#32 = .ok .qmfTx ∧ decode 0x00000120#32 = .ok (.encL .bits5)
  ∧ decode 0x00000423#32 = .ok (.decH .bits3) ∧ decode 0x00000230#32 = .ok (.encPair .bits4 .bits2)
  ∧ decode 0x00000741#32 = .ok (.decFrame .bits3 .bits3 false)
  ∧ decode 0x00000841#32 = .ok (.decFrame .bits6 .bits2 true) ∧ decode 0x00000053#32 = .ok .smulq15
  ∧ decode 0x00000056#32 = .error .illegalOpc ∧ decode 0x00001056#32 = .error .illegalOpc
  ∧ decode 0x00001055#32 = .error .rsvdBits

/-- 30_encoding.md R152: the word of a command decodes to the command, with every mode and flag. -/
def Obligations.DecodeOfEncode : Prop := ∀ i : Instr, decode (encode i) = .ok i

/-- 30_encoding.md R145, R146: which words are which command. A word is a command exactly when its opcode, its reserved
bits and the fields the command uses are those of the command's word; the bits of a field it ignores are free. -/
def Obligations.DecodesExactlyItsWords : Prop :=
  ∀ (v : Word) (i : Instr), decode v = .ok i ↔ v &&& usedMask i = encode i

/-- 10_state.md R42, 20_memory.md R109: a write of a command's word to `CMD` runs that command, after the access is
taken from the host's list, and nothing else happens in the step. -/
def Obligations.StepRunsDecodedCommand : Prop :=
  (∀ (s : State) (v : Word) (rest : List HostInput) (i : Instr),
    s.bus.inputs = cmdWrite v :: rest → decode v = .ok i →
      step s = exec i { s with bus := { s.bus with inputs := rest } })
  ∧ (∀ (s : State) (nbits w : Nat) (i : Instr),
    decodeTableWord nbits w = some i → step (s.withFetchWord nbits w) = exec i s)

/-! ### Errors -/

/-- 60_exceptions.md R433, R437 with 30_encoding.md R147 to R149: the checks of a command word, in their order. The
first that fails records its error and does nothing else; a word that passes them all runs and records none. -/
def Obligations.CommandChecksInOrder : Prop :=
  ∀ (s : State) (v : Word) (rest : List HostInput), s.bus.inputs = cmdWrite v :: rest →
    let o := v.toNat % 256
    let fails := fun e : ErrCode =>
      step s = .next { s with bus := { s.bus with inputs := rest }, status := recordError e s.status }
    if illegalOpcode o = true then fails .illegalOpc
    else if v.toNat / 4096 ≠ 0 then fails .rsvdBits
    else if usesLmode o = true ∧ v.toNat / 256 % 4 = 3 then fails .rsvdMode
    else if usesHmode o = true ∧ v.toNat / 1024 % 2 = 1 then fails .rsvdMode
    else ∃ (i : Instr) (t : State), decode v = .ok i
      ∧ exec i { s with bus := { s.bus with inputs := rest } } = .next t ∧ step s = .next t ∧ t.status = s.status

/-- 60_exceptions.md R432: what recording an error leaves, what clears it, and that a recorded error blocks nothing:
whatever `STATUS` holds, a step does the same to every other part of the block and returns the same word to the host,
but for a read of `STATUS` itself. -/
def Obligations.ErrorRecording : Prop :=
  (∀ (e : ErrCode) (s : State), s.raiseError e =
    { s with status := { err := true, errCode := if s.status.err then s.status.errCode else errNumber e } })
  ∧ (∀ (s : State) (v : Word) (rest : List HostInput),
    s.bus.inputs = .write 0x008#14 .w32 v :: rest → v.toNat / 2 % 2 = 1 →
      step s = .next { s with status := { err := false, errCode := 0 }, bus := { s.bus with inputs := rest } })
  ∧ (∀ (s t : State) (st : Status), step s = .next t →
    ∃ (st' : Status) (w : Word), step { s with status := st } =
        .next { t with status := st', bus := { t.bus with readData := w } }
      ∧ w = if s.bus.inputs.head? = some (.read 0x008#14 .w32) then readReg { s with status := st } .status
        else t.bus.readData)

/-- 20_memory.md R105: an access of another width or alignment reads 0, writes nothing, and records `BUS`. -/
def Obligations.BusErrorHasNoEffect : Prop :=
  ∀ (s : State) (o : BitVec 14) (w : Width) (rest : List HostInput), w ≠ .w32 ∨ o.toNat % 4 ≠ 0 →
    (s.bus.inputs = .read o w :: rest →
      step s = .next { s with status := recordError .bus s.status, bus := { inputs := rest, readData := 0 } })
    ∧ (∀ v : Word, s.bus.inputs = .write o w v :: rest →
      step s = .next { s with status := recordError .bus s.status, bus := { s.bus with inputs := rest } })

/-! ### The host window -/

/-- 20_memory.md R106: an unimplemented word reads 0 and ignores writes, a read-only word ignores writes, and the
reserved bits of `STATUS` read 0 and ignore writes; none of these records an error. -/
def Obligations.UnimplementedWords : Prop :=
  (∀ (s : State) (o : BitVec 14) (rest : List HostInput), o.toNat % 4 = 0 →
    (unimplementedOffset o.toNat = true → s.bus.inputs = .read o .w32 :: rest →
      step s = .next { s with bus := { inputs := rest, readData := 0 } })
    ∧ (∀ v : Word, unimplementedOffset o.toNat = true ∨ readOnlyOffset o.toNat = true →
      s.bus.inputs = .write o .w32 v :: rest → step s = .next { s with bus := { s.bus with inputs := rest } }))
  ∧ (∀ s : State, (readReg s .status).toNat / 4 % 4 = 0 ∧ (readReg s .status).toNat / 8192 = 0)
  ∧ (∀ (s : State) (v : Word) (rest : List HostInput), v.toNat / 2 % 2 = 0 →
    s.bus.inputs = .write 0x008#14 .w32 v :: rest → step s = .next { s with bus := { s.bus with inputs := rest } })

/-- 20_memory.md R107: a read changes nothing in the block and, repeated, returns the same word; a write of any word but
`CMD`, and but `STATUS` with bit 1 set, changes neither the status, nor a context, nor the PLC state, nor any register or
buffer byte but those of the word it addresses. -/
def Obligations.AccessSideEffects : Prop :=
  (∀ (s : State) (o : BitVec 14) (rest : List HostInput), o.toNat % 4 = 0 → s.bus.inputs = .read o .w32 :: rest →
    ∃ w : Word, step s = .next { s with bus := { inputs := rest, readData := w } }
      ∧ ∀ (x : Word) (more : List HostInput),
        step { s with bus := { inputs := .read o .w32 :: more, readData := x } } =
          .next { s with bus := { inputs := more, readData := w } })
  ∧ (∀ (s : State) (o : BitVec 14) (v : Word) (rest : List HostInput), o.toNat % 4 = 0 → o.toNat ≠ 0x004 →
    ¬ (o.toNat = 0x008 ∧ v.toNat / 2 % 2 = 1) → s.bus.inputs = .write o .w32 v :: rest →
      ∃ t : State, step s = .next t ∧ t.status = s.status ∧ t.enc = s.enc ∧ t.dec = s.dec ∧ t.plc = s.plc
        ∧ t.bus = { s.bus with inputs := rest }
        ∧ (∀ r : HostReg, regOffset r ≠ o.toNat → readReg t r = readReg s r)
        ∧ (∀ a : Nat, a < o.toNat ∨ o.toNat + 4 ≤ a → t.mem.get a = s.mem.get a))

/-- 10_state.md R44: `FRAMELEN` takes a write in range, ignores any other without an error, and reads as a number; its
reset value is 40. -/
def Obligations.FrameLengthRegister : Prop :=
  (∀ (s : State) (v : Word) (rest : List HostInput), s.bus.inputs = .write 0x00C#14 .w32 v :: rest →
    step s = .next { s with
      regs := { s.regs with frameLen := if 1 ≤ v.toNat ∧ v.toNat ≤ 160 then v.toNat else s.regs.frameLen }
      bus := { s.bus with inputs := rest } })
  ∧ (∀ (s : State) (rest : List HostInput), s.regs.Ok → s.bus.inputs = .read 0x00C#14 .w32 :: rest →
    ∃ w : Word, w.toNat = s.regs.frameLen ∧ step s = .next { s with bus := { inputs := rest, readData := w } })
  ∧ State.reset.regs.frameLen = 40

/-- 10_state.md R45, R46, R47: what the sample, index and operand registers store of a write and what they read as. A
write to one of them leaves every other register, and everything else, as it was. -/
def Obligations.DataRegisters : Prop :=
  (∀ (s : State) (r : HostReg) (rest : List HostInput),
    s.bus.inputs = .read (BitVec.ofNat 14 (regOffset r)) .w32 :: rest →
      step s = .next { s with bus := { inputs := rest, readData := readReg s r } })
  ∧ (∀ s : State, (readReg s .x0).toInt = s.regs.x0.toInt ∧ (readReg s .x1).toInt = s.regs.x1.toInt
    ∧ (readReg s .xl).toInt = s.regs.xl.toInt ∧ (readReg s .xh).toInt = s.regs.xh.toInt
    ∧ (readReg s .y0).toInt = s.regs.y0.toInt ∧ (readReg s .y1).toInt = s.regs.y1.toInt
    ∧ (readReg s .nsTgt).toInt = s.regs.nsTgt.toInt ∧ (readReg s .nsErr).toInt = s.regs.nsErr.toInt
    ∧ (readReg s .satR).toInt = s.regs.satR.toInt ∧ (readReg s .il).toNat = s.regs.il.toNat
    ∧ (readReg s .ih).toNat = s.regs.ih.toNat ∧ (readReg s .code).toNat = s.regs.code.toNat
    ∧ readReg s .satA = s.regs.satA ∧ readReg s .satB = s.regs.satB)
  ∧ (∀ (s : State) (v : Word) (rest : List HostInput) (r : HostReg),
    s.bus.inputs = .write (BitVec.ofNat 14 (regOffset r)) .w32 v :: rest →
    r ∈ ([.x0, .x1, .xl, .xh, .il, .ih, .code, .satA, .satB] : List HostReg) →
      ∃ t : State, step s = .next t
        ∧ (r ∈ ([.x0, .x1, .xl, .xh] : List HostReg) → readReg t r = (v.extractLsb' 0 16).signExtend 32)
        ∧ (r = .il → (readReg t r).toNat = v.toNat % 64) ∧ (r = .ih → (readReg t r).toNat = v.toNat % 4)
        ∧ (r = .code → (readReg t r).toNat = v.toNat % 256)
        ∧ (r ∈ ([.satA, .satB] : List HostReg) → readReg t r = v)
        ∧ (∀ q : HostReg, q ≠ r → readReg t q = readReg s q)
        ∧ t.status = s.status ∧ t.enc = s.enc ∧ t.dec = s.dec ∧ t.plc = s.plc ∧ t.mem = s.mem
        ∧ t.bus = { s.bus with inputs := rest })
  ∧ (∀ (s : State) (v : Word) (rest : List HostInput) (r : HostReg),
    s.bus.inputs = .write (BitVec.ofNat 14 (regOffset r)) .w32 v :: rest →
    r ∈ ([.y0, .y1, .nsTgt, .nsErr, .satR] : List HostReg) →
      step s = .next { s with bus := { s.bus with inputs := rest } })

/-- 10_state.md R43: the fields of `STATUS`, what a write does to it, what an error leaves in it, and that `ERRCODE` is 0
whenever `ERR` is 0, which no step breaks. -/
def Obligations.StatusRegister : Prop :=
  (∀ s : State, let w := readReg s .status
    w.getLsbD 0 = false ∧ w.getLsbD 1 = s.status.err ∧ w.extractLsb' 2 2 = 0#2 ∧ w.extractLsb' 4 4 = s.status.errCode
    ∧ w.getLsbD 8 = s.plc.prevBfi ∧ w.getLsbD 9 = s.plc.xfActive
    ∧ (w.extractLsb' 10 3).toNat = classNumber s.plc.cls ∧ w.extractLsb' 13 19 = 0#19)
  ∧ (∀ (s : State) (v : Word) (rest : List HostInput), s.bus.inputs = .write 0x008#14 .w32 v :: rest →
    step s = .next { s with
      status := if v.getLsbD 1 then { err := false, errCode := 0 } else s.status
      bus := { s.bus with inputs := rest } })
  ∧ (∀ (e : ErrCode) (s : State), (s.raiseError e).status.err = true
    ∧ (s.status.err = false → (s.raiseError e).status.errCode = errNumber e)
    ∧ (s.status.err = true → (s.raiseError e).status.errCode = s.status.errCode))
  ∧ (∀ s t : State, (s.status.err = false → s.status.errCode = 0) → step s = .next t →
    (t.status.err = false → t.status.errCode = 0))
  ∧ readReg State.reset .status = 0

/-- 20_memory.md R102: each word of the two context windows reads as its field, sign-extended, and a word that holds no
field reads 0; a write changes nothing. -/
def Obligations.ContextWindows : Prop :=
  ∀ (s : State) (o : BitVec 14) (rest : List HostInput), o.toNat % 4 = 0 → 0x200 ≤ o.toNat → o.toNat < 0x600 →
    (s.bus.inputs = .read o .w32 :: rest → step s = .next { s with
      bus := { inputs := rest
               readData := (if o.toNat < 0x400 then ctxField s.enc (o.toNat - 0x200)
                 else ctxField s.dec (o.toNat - 0x400)).signExtend 32 } })
    ∧ (∀ v : Word, s.bus.inputs = .write o .w32 v :: rest →
      step s = .next { s with bus := { s.bus with inputs := rest } })

/-- 20_memory.md R103: each word of the PLC window reads as its field, where the field's count fits a word (what a larger
count reads as is a free value, log 14), and a word past the fields reads 0; a write changes nothing. -/
def Obligations.PlcWindow : Prop :=
  ∀ (s : State) (o : BitVec 14) (rest : List HostInput), o.toNat % 4 = 0 → 0x600 ≤ o.toNat → o.toNat < 0x800 →
    (∀ n : Nat, n < 2 ^ 32 →
      n = (if o.toNat = 0x600 then classNumber s.plc.cls
        else if o.toNat = 0x604 then s.plc.t0
        else if o.toNat = 0x608 then episodeNumber s.plc.episode
        else if o.toNat = 0x60C then s.plc.prevBfi.toNat
        else if o.toNat = 0x610 then s.plc.cntL
        else if o.toNat = 0x614 then s.plc.cntH
        else if o.toNat = 0x618 then s.plc.xfPos
        else if o.toNat = 0x61C then s.plc.xfActive.toNat
        else if o.toNat = 0x620 then s.plc.tSyn
        else 0) →
      s.bus.inputs = .read o .w32 :: rest →
        step s = .next { s with bus := { inputs := rest, readData := BitVec.ofNat 32 n } })
    ∧ (∀ v : Word, s.bus.inputs = .write o .w32 v :: rest →
      step s = .next { s with bus := { s.bus with inputs := rest } })

/-- 10_state.md R66, 20_memory.md R101: a host write to an element of `PCMBUF` or `CODEBUF` stores its low bits there and
changes no other byte of any buffer; a read of an element of any buffer returns it. -/
def Obligations.BufferWords : Prop :=
  (∀ (s : State) (k : Nat) (v : Word) (rest : List HostInput), k < 320 → s.mem.wf = true →
    s.bus.inputs = .write (BitVec.ofNat 14 (0x0800 + 4 * k)) .w32 v :: rest →
      ∃ m : Memory, step s = .next { s with mem := m, bus := { s.bus with inputs := rest } }
        ∧ m.pcm k = v.extractLsb' 0 16
        ∧ ∀ a : Nat, a ≠ 0x0800 + 4 * k → a ≠ 0x0800 + 4 * k + 1 → m.get a = s.mem.get a)
  ∧ (∀ (s : State) (k : Nat) (v : Word) (rest : List HostInput), k < 160 → s.mem.wf = true →
    s.bus.inputs = .write (BitVec.ofNat 14 (0x1000 + 4 * k)) .w32 v :: rest →
      ∃ m : Memory, step s = .next { s with mem := m, bus := { s.bus with inputs := rest } }
        ∧ m.code k = v.extractLsb' 0 8 ∧ ∀ a : Nat, a ≠ 0x1000 + 4 * k → m.get a = s.mem.get a)
  ∧ (∀ (s : State) (k : Nat) (rest : List HostInput) (base : Nat) (x : Word),
    (base = 0x0800 ∧ k < 320 ∧ x = (s.mem.pcm k).signExtend 32)
      ∨ (base = 0x1000 ∧ k < 160 ∧ x = (s.mem.code k).setWidth 32)
      ∨ (base = 0x1800 ∧ k < 160 ∧ x = (s.mem.nst k).signExtend 32)
      ∨ (base = 0x2000 ∧ k < 160 ∧ x = (s.mem.nse k).signExtend 32) →
    s.bus.inputs = .read (BitVec.ofNat 14 (base + 4 * k)) .w32 :: rest →
      step s = .next { s with bus := { inputs := rest, readData := x } })

/-! ### Reset and system commands -/

/-- 70_reset_and_hazards.md R470: what the reset input leaves, whatever the state before, and that the machine starts in
that state. -/
def Obligations.PowerOnReset : Prop :=
  (∀ (s : State) (rest : List HostInput), s.bus.inputs = .powerOnReset :: rest →
    step s = .next { State.reset with bus := { s.bus with inputs := rest } })
  ∧ readReg State.reset .id = 0x47373232#32 ∧ readReg State.reset .frameLen = 40
  ∧ (∀ r : HostReg, r ≠ .id → r ≠ .frameLen → readReg State.reset r = 0)
  ∧ State.reset.status = { err := false, errCode := 0 }
  ∧ State.reset.enc.IsReset ∧ State.reset.dec.IsReset ∧ State.reset.plc.IsReset profile.plc
  ∧ (∀ a : Nat, State.reset.mem.get a = 0)
  ∧ exec .resetAll State.reset = .next State.reset

/-- 44_codec_commands.md R290: every word with opcode 0 and reserved bits 0 is a `NOP`, which changes no state; opcode 0
with a reserved bit set raises `RSVD_BITS` and changes nothing else. -/
def Obligations.NopChangesNothing : Prop :=
  (∀ s : State, exec .nop s = .next s)
  ∧ (∀ (s : State) (v : Word) (rest : List HostInput), s.bus.inputs = cmdWrite v :: rest →
    v.toNat % 256 = 0 → step s = .next { s with
      bus := { s.bus with inputs := rest }
      status := if v.toNat / 4096 = 0 then s.status else recordError .rsvdBits s.status })

/-- 44_codec_commands.md R291 to R294, 70_reset_and_hazards.md R471, R472: what each reset command leaves, that it
leaves everything else, and that a second reset changes nothing more. -/
def Obligations.ResetCommands : Prop :=
  (∃ (C : Ctx) (p : Plc), C.IsReset ∧ p.IsReset profile.plc
    ∧ ∀ s : State, exec .resetEnc s = .next { s with enc := C }
      ∧ exec .resetDec s = .next { s with dec := C }
      ∧ exec .plcReset s = .next { s with plc := p }
      ∧ exec .resetAll s = .next { s with enc := C, dec := C, plc := p })
  ∧ (∀ (i : Instr) (s t : State), i ∈ ([.resetEnc, .resetDec, .plcReset, .resetAll] : List Instr) →
    exec i s = .next t → exec i t = .next t ∧ t.regs = s.regs ∧ t.status = s.status ∧ t.mem = s.mem)
  ∧ (∀ s t : State, exec .plcReset s = .next t →
    (readReg t .status).getLsbD 8 = false ∧ (readReg t .status).getLsbD 9 = false
    ∧ (readReg t .status).extractLsb' 10 3 = 0#3)

/-- 44_codec_commands.md R298: after `RESET_ENC` and `RESET_DEC`, what the host reads back of encodings and decodings of
pairs is the same whatever the state was before; and after `PLC_RESET` too, so is what a frame encoded and then decoded,
good or lost, leaves in the contexts, the PLC state and the buffers. -/
def Obligations.ResetForgetsHistory : Prop :=
  (∀ (s s' : State) (m : LMode) (q : BitVec 6 → I16) (xs : List (Word × Word)) (cs : List Word),
    profile.invq m = some q →
    let prog := [command .resetEnc, command .resetDec]
      ++ xs.flatMap (fun x => encodeLine x.1 x.2 m .bits2 ++ [rdReg .code])
      ++ cs.flatMap (fun c => decodeLine c m .bits2 ++ [rdReg .y0])
    ∀ n : Nat, n ≤ prog.length → (∃ r : HostReg, rdReg r ∈ prog.take n) →
      ∃ t t' : State, runSteps n { s with bus := { s.bus with inputs := prog } } = .next t
        ∧ runSteps n { s' with bus := { s'.bus with inputs := prog } } = .next t'
        ∧ t.bus.readData = t'.bus.readData ∧ t.enc = t'.enc ∧ t.dec = t'.dec)
  ∧ (∀ (s s' : State) (m : LMode) (q : BitVec 6 → I16) (loss : Bool), profile.invq m = some q →
    s.regs.frameLen = s'.regs.frameLen → s.mem = s'.mem →
    let prog := [command .resetEnc, command .resetDec, command .plcReset, command (.encFrame m .bits2),
      command (.decFrame m .bits2 loss)]
    ∃ t t' : State, runSteps 5 { s with bus := { s.bus with inputs := prog } } = .next t
      ∧ runSteps 5 { s' with bus := { s'.bus with inputs := prog } } = .next t'
      ∧ t.enc = t'.enc ∧ t.dec = t'.dec ∧ t.plc = t'.plc ∧ t.mem = t'.mem)

/-! ### The saturating unit -/

/-- 40_saturating_arith.md R180, R181 and the laws of R183: the primitives over the integers. Only one product
saturates, and a shift by the width or more has the value the rule gives. -/
def Obligations.FixedPointPrimitives : Prop :=
  ∀ (a b : I16) (n : Nat),
    (add16 a b).toInt = max (-32768) (min 32767 (a.toInt + b.toInt))
    ∧ (sub16 a b).toInt = max (-32768) (min 32767 (a.toInt - b.toInt))
    ∧ (neg16 a).toInt = max (-32768) (min 32767 (-a.toInt))
    ∧ (mult a b).toInt = (if a.toInt = -32768 ∧ b.toInt = -32768 then 32767 else a.toInt * b.toInt / 32768)
    ∧ (shl16 a n).toInt = max (-32768) (min 32767 (a.toInt * 2 ^ n))
    ∧ (shr16 a n).toInt = a.toInt / 2 ^ n
    ∧ (16 ≤ n → (shl16 a n).toInt = if a.toInt = 0 then 0 else if 0 < a.toInt then 32767 else -32768)
    ∧ (15 ≤ n → (shr16 a n).toInt = if 0 ≤ a.toInt then 0 else -1)

/-- 40_saturating_arith.md R184, R185, R186: `SAT`, `SADD` and `SSUB`. -/
def Obligations.SaturateAddSubtract : Prop :=
  ∀ s : State, let a := (s.regs.satA.extractLsb' 0 16 : I16).toInt
    let b := (s.regs.satB.extractLsb' 0 16 : I16).toInt
    (∃ v : I16, v.toInt = max (-32768) (min 32767 s.regs.satA.toInt)
      ∧ exec .sat s = .next { s with regs := { s.regs with satR := v } })
    ∧ (∃ v : I16, v.toInt = max (-32768) (min 32767 (a + b))
      ∧ exec .sadd s = .next { s with regs := { s.regs with satR := v } })
    ∧ (∃ v : I16, v.toInt = max (-32768) (min 32767 (a - b))
      ∧ exec .ssub s = .next { s with regs := { s.regs with satR := v } })

/-- 40_saturating_arith.md R187, R188, R189: `SMULQ15`, `SSHL` and `SSHR`. The shift count is `SAT_B[4:0]`. -/
def Obligations.MultiplyAndShift : Prop :=
  ∀ s : State, let a := (s.regs.satA.extractLsb' 0 16 : I16).toInt
    let b := (s.regs.satB.extractLsb' 0 16 : I16).toInt
    let n := s.regs.satB.toNat % 32
    (∃ v : I16, v.toInt = max (-32768) (min 32767 (a * b / 2 ^ 15))
      ∧ exec .smulq15 s = .next { s with regs := { s.regs with satR := v } })
    ∧ (∃ v : I16, v.toInt = max (-32768) (min 32767 (a * 2 ^ n))
      ∧ exec .sshl s = .next { s with regs := { s.regs with satR := v } })
    ∧ (∃ v : I16, v.toInt = a / 2 ^ n
      ∧ exec .sshr s = .next { s with regs := { s.regs with satR := v } })

/-! ### The filterbank -/

/-- 41_qmf.md R200, R201: the delay line after a shift, the two dot products, and the symmetry of the reference
coefficients. -/
def Obligations.DelayLineAndProducts : Prop :=
  (∀ (D : Vector I16 24) (u v : I16), (push2 D u v)[0] = v ∧ (push2 D u v)[1] = u
    ∧ ∀ k : Fin 22, (push2 D u v)[k.val + 2] = D[k.val])
  ∧ (∀ h D : Vector I16 24,
    dotEven h D = ∑ i : Fin 12, h[2 * i.val].toInt * D[2 * i.val].toInt
    ∧ dotOdd h D = ∑ i : Fin 12, h[2 * i.val + 1].toInt * D[2 * i.val + 1].toInt)
  ∧ (∀ j : Fin 24, profile.qmfH[j] = profile.qmfH[23 - j.val])

/-- 41_qmf.md R202: `QMF_TX`, and that under `G722_REF` its outputs never saturate: they are at most 25928 in
magnitude, whatever the delay line holds. -/
def Obligations.QmfAnalysis : Prop :=
  ∀ s : State, let D := push2 s.enc.D s.regs.x0 s.regs.x1
    let XA := dotEven qmfHRef D
    let XB := dotOdd qmfHRef D
    ∃ xl xh : I16, xl.toInt = (XA + XB) / 2 ^ 14 ∧ xh.toInt = (XA - XB) / 2 ^ 14
      ∧ |xl.toInt| ≤ 25928 ∧ |xh.toInt| ≤ 25928
      ∧ exec .qmfTx s = .next { s with
          enc := { s.enc with D := D }, regs := { s.regs with xl := xl, xh := xh } }

/-- 41_qmf.md R203: `QMF_RX`. -/
def Obligations.QmfSynthesis : Prop :=
  ∀ s : State, let D := push2 s.dec.D (add16 s.regs.xl s.regs.xh) (sub16 s.regs.xl s.regs.xh)
    ∃ y0 y1 : I16, y0.toInt = max (-32768) (min 32767 (dotEven qmfHRef D / 2 ^ 11))
      ∧ y1.toInt = max (-32768) (min 32767 (dotOdd qmfHRef D / 2 ^ 11))
      ∧ exec .qmfRx s = .next { s with
          dec := { s.dec with D := D }, regs := { s.regs with y0 := y0, y1 := y1 } }

/-! ### The adaptation -/

/-- 42_adpcm_adapt.md R222, R238, R226, R227, R228: the histories after a sample, and the prediction from the new
coefficients and the shifted histories. -/
def Obligations.AdaptHistoriesAndPrediction : Prop :=
  ∀ (B : Band) (d w : I16) (k : BandId), let A := adapt profile B d w k
    let r := add16 B.s d
    let p := add16 B.sz d
    let tap := fun i : Fin 7 => mult A.b[i] (add16 A.d[i] A.d[i])
    A.d = #v[d, d, B.d[1], B.d[2], B.d[3], B.d[4], B.d[5]] ∧ A.r = #v[r, r, B.r[1]] ∧ A.p = #v[p, p, B.p[1]]
    ∧ A.a[0] = B.a[0] ∧ A.b[0] = B.b[0]
    ∧ A.sp = add16 (mult A.a[1] (add16 r r)) (mult A.a[2] (add16 B.r[1] B.r[1]))
    ∧ A.sz = add16 (add16 (add16 (add16 (add16 (add16 0 (tap 6)) (tap 5)) (tap 4)) (tap 3)) (tap 2)) (tap 1)
    ∧ A.s = add16 A.sp A.sz

/-- 42_adpcm_adapt.md R223, R224, R225, R229: the new coefficients, from the old ones and the old histories. `a[2]` is
formed from the old `a[1]`, and `a[1]` from the new `a[2]`. -/
def Obligations.AdaptCoefficients : Prop :=
  ∀ (B : Band) (d w : I16) (k : BandId), let A := adapt profile B d w k
    let p := add16 B.sz d
    let neg := fun x : I16 => x.toInt < 0
    (∀ i : Fin 6, A.b[i.val + 1] =
      add16 (if d.toInt = 0 then 0 else if (neg B.d[i.val + 1] ↔ neg d) then 128 else -128)
        (mult B.b[i.val + 1] 32640))
    ∧ A.a[2].toInt = max (-12288) (min 12288
      (add16 (add16 (shr16 (if (neg p ↔ neg B.p[1]) then neg16 (shl16 B.a[1] 2) else shl16 B.a[1] 2) 7)
        (if (neg p ↔ neg B.p[2]) then 128 else -128)) (mult B.a[2] 32512)).toInt)
    ∧ A.a[1].toInt = max (-(15360 - A.a[2].toInt)) (min (15360 - A.a[2].toInt)
      (add16 (if (neg p ↔ neg B.p[1]) then 192 else -192) (mult B.a[1] 32640)).toInt)

/-- 42_adpcm_adapt.md R232, R233: the step size after a sample. -/
def Obligations.AdaptStepSize : Prop :=
  ∀ (B : Band) (d w : I16), let L := adapt profile B d w .low
    let H := adapt profile B d w .high
    L.nb.toInt = max 0 (min 18432 (max (-32768) (min 32767 (B.nb.toInt * 127 / 128 + w.toInt))))
    ∧ L.det = ilaRef (L.nb.toNat / 64 + 64)
    ∧ H.nb.toInt = max 0 (min 22528 (max (-32768) (min 32767 (B.nb.toInt * 127 / 128 + w.toInt))))
    ∧ H.det = ilaRef (H.nb.toNat / 64)

/-- 42_adpcm_adapt.md R235, R236, R237: the bounds after every sample, from any sub-state. -/
def Obligations.AdaptBounds : Prop :=
  ∀ (B : Band) (d w : I16) (k : BandId), let A := adapt profile B d w k
    (-12288 : Int) ≤ A.a[2].toInt ∧ A.a[2].toInt ≤ 12288 ∧ |A.a[1].toInt| ≤ 15360 - A.a[2].toInt ∧ |A.a[1].toInt| ≤ 27648
    ∧ 0 ≤ A.nb.toInt
    ∧ (k = .low → A.nb.toInt ≤ 18432 ∧ 32 ≤ A.det.toInt ∧ A.det.toInt ≤ 16384
      ∧ ∃ j : Nat, 64 ≤ j ∧ j ≤ 352 ∧ A.det = profile.ila j)
    ∧ (k = .high → A.nb.toInt ≤ 22528 ∧ 8 ≤ A.det.toInt ∧ A.det.toInt ≤ 16384
      ∧ ∃ j : Nat, j ≤ 352 ∧ A.det = profile.ila j)

/-- 42_adpcm_adapt.md R240: the step-size half reads and writes only `nb` and `det`, the predictor half only the rest, so
running the step-size half first gives the same sub-state. -/
def Obligations.AdaptHalvesIndependent : Prop :=
  ∀ (B : Band) (d w : I16) (k : BandId), let S := scale profile (logscl profile B w k) k
    adapt profile B d w k =
      { adapt profile S d w k with nb := S.nb, det := S.det }
    ∧ (∀ (nb det w' : I16), { adapt profile { B with nb := nb, det := det } d w' k with nb := S.nb, det := S.det } =
      adapt profile B d w k)
    ∧ (∀ (C : Band) (d' : I16), C.nb = B.nb → (adapt profile C d' w k).nb = (adapt profile B d w k).nb
      ∧ (adapt profile C d' w k).det = (adapt profile B d w k).det)

/-! ### The quantizers -/

/-- 43_quantizers.md R261 with the tables of `G722_REF`: the index of a difference signal, from the number of scaled
thresholds its magnitude reaches. The indices 0 to 3 are never produced. -/
def Obligations.LowBandQuantizer : Prop :=
  ∀ el det : I16, let wd := if 0 ≤ el.toInt then el.toInt else -(el.toInt + 1)
    let mag := 1 + (q6Ref.filter fun q => decide (q.toInt * det.toInt / 2 ^ 12 ≤ wd)).length
    1 ≤ mag ∧ mag ≤ 30
    ∧ (quantL profile el det).toNat =
      (if el.toInt < 0 then (if mag ≤ 2 then 64 - mag else 34 - mag) else 62 - mag)
    ∧ 4 ≤ (quantL profile el det).toNat

/-- 43_quantizers.md R275: the level does not decrease as the magnitude grows, `el` and `-(el+1)` have the same level,
the decoded magnitudes rise strictly with the level, and so a larger magnitude never decodes to a smaller one. At the
reset step size the scaled thresholds coincide in part, and the levels 1 to 3 are not reached. -/
def Obligations.QuantizerMonotone : Prop :=
  (∀ (wd wd' : Int) (det : I16), wd ≤ wd' → levelL profile wd det ≤ levelL profile wd' det)
  ∧ (∀ e e' : I16, e'.toInt = -(e.toInt + 1) → quantMag e = quantMag e')
  ∧ (∀ i j : Nat, 1 ≤ i → i < j → j ≤ 30 →
    |(profile.invq0 (profile.ilp i)).toInt| < |(profile.invq0 (profile.ilp j)).toInt|
    ∧ |(profile.invq0 (profile.iln i)).toInt| < |(profile.invq0 (profile.iln j)).toInt|)
  ∧ (∀ e e' det : I16, quantMag e ≤ quantMag e' →
    |(profile.invq0 (quantL profile e det)).toInt| ≤ |(profile.invq0 (quantL profile e' det)).toInt|)
  ∧ (profile.q6.map fun q => q.toInt * 32 / 2 ^ 12)
    = [0, 0, 0, 1, 1, 1, 2, 2, 2, 3, 3, 4, 4, 5, 5, 6, 6, 7, 7, 8, 9, 10, 11, 12, 13, 15, 17, 19, 22]
  ∧ quantL profile 0 32 = 58 ∧ (∀ wd : Int, 0 ≤ wd → 4 ≤ levelL profile wd 32)
  ∧ ∀ f ∈ [profile.ilp, profile.iln], [1, 2, 3, 30].map (fun k => |(profile.invq0 (f k)).toInt|) = [136, 432, 728, 24808]

/-- 43_quantizers.md R263, R262, R264, R270: `ENC_L`. -/
def Obligations.LowBandEncode : Prop :=
  (∀ (s : State) (m : LMode) (q : BitVec 6 → I16) (mask : BitVec 6), profile.invq m = some q →
    (m = .bits6 ∧ mask = 0x3F#6) ∨ (m = .bits5 ∧ mask = 0x3E#6) ∨ (m = .bits4 ∧ mask = 0x3C#6) →
    let B := s.enc.L
    let el := sub16 s.regs.xl B.s
    let il := quantL profile el B.det &&& mask
    let ic : BitVec 4 := (il >>> 2).setWidth 4
    exec (.encL m) s = .next { s with
      enc := { s.enc with L := adapt profile B (mult B.det (profile.qm4 ic)) (profile.wl (profile.rl42 ic)) .low }
      regs := { s.regs with il := il, nsTgt := el, nsErr := sub16 el (mult B.det (q il)) } })
  ∧ (∀ s : State, exec (.encL .bits3) s = .next { s with status := recordError .rsvdMode s.status })

/-- 43_quantizers.md R265, R266, R267, R270: `ENC_H`. -/
def Obligations.HighBandEncode : Prop :=
  (∀ s : State, let B := s.enc.H
    let eh := sub16 s.regs.xh B.s
    let wd := if 0 ≤ eh.toInt then eh.toInt else -(eh.toInt + 1)
    let ih : BitVec 2 := if 564 * B.det.toInt / 2 ^ 12 ≤ wd then (if eh.toInt < 0 then 0 else 2)
      else (if eh.toInt < 0 then 1 else 3)
    let w : I16 := if ih = 0 ∨ ih = 2 then 798 else -214
    exec (.encH .bits2) s = .next { s with
      enc := { s.enc with H := adapt profile B (mult B.det (profile.qm2 ih)) w .high }
      regs := { s.regs with ih := ih } })
  ∧ (∀ s : State, exec (.encH .bits3) s = .next { s with status := recordError .rsvdMode s.status })

/-- 43_quantizers.md R271, R273, R274, R270: `DEC_L` and `DEC_H`. Each output lies in the reconstruction limit. -/
def Obligations.BandDecode : Prop :=
  (∀ (s : State) (m : LMode) (q : BitVec 6 → I16) (mask : BitVec 6), profile.invq m = some q →
    (m = .bits6 ∧ mask = 0x3F#6) ∨ (m = .bits5 ∧ mask = 0x3E#6) ∨ (m = .bits4 ∧ mask = 0x3C#6) →
    let B := s.dec.L
    let il := s.regs.il &&& mask
    let ic : BitVec 4 := (il >>> 2).setWidth 4
    ∃ rl : I16, rl.toInt = max (-16384) (min 16383 (add16 B.s (mult B.det (q il))).toInt)
      ∧ exec (.decL m) s = .next { s with
        dec := { s.dec with L := adapt profile B (mult B.det (profile.qm4 ic)) (profile.wl (profile.rl42 ic)) .low }
        regs := { s.regs with xl := rl } })
  ∧ (∀ s : State, let B := s.dec.H
    let dh := mult B.det (profile.qm2 s.regs.ih)
    ∃ rh : I16, rh.toInt = max (-16384) (min 16383 (add16 B.s dh).toInt)
      ∧ exec (.decH .bits2) s = .next { s with
        dec := { s.dec with H := adapt profile B dh (profile.wh (profile.rh2 s.regs.ih)) .high }
        regs := { s.regs with xh := rh } })
  ∧ (∀ s : State, exec (.decL .bits3) s = .next { s with status := recordError .rsvdMode s.status }
    ∧ exec (.decH .bits3) s = .next { s with status := recordError .rsvdMode s.status })

/-- 43_quantizers.md R272: from equal sub-states, a sample encoded and its index decoded leave equal sub-states, in each
band, and the decoder's output is the prediction plus the encoder's own local decode. -/
def Obligations.EncoderDecoderAgree : Prop :=
  (∀ (s s1 s2 : State) (m : LMode) (q : BitVec 6 → I16), profile.invq m = some q → s.enc.L = s.dec.L →
    exec (.encL m) s = .next s1 → exec (.decL m) s1 = .next s2 →
      s2.enc.L = s2.dec.L ∧ s2.regs.xl = limit (add16 s.enc.L.s (mult s.enc.L.det (q s1.regs.il)))
        ∧ s1.regs.nsErr = sub16 s1.regs.nsTgt (mult s.enc.L.det (q s1.regs.il)))
  ∧ (∀ s s1 s2 : State, s.enc.H = s.dec.H → exec (.encH .bits2) s = .next s1 → exec (.decH .bits2) s1 = .next s2 →
    s2.enc.H = s2.dec.H)

/-! ### Pairs and frames -/

/-- 44_codec_commands.md R296, R297: the pair commands are their stages, one after the other; with a mode that is not
legal, they record `RSVD_MODE` and change nothing else. -/
def Obligations.PairCommandsCompose : Prop :=
  (∀ (s : State) (m : LMode) (h : HMode), (Instr.encPair m h).wellFormed profile = false →
    exec (.encPair m h) s = .next { s with status := recordError .rsvdMode s.status }
    ∧ exec (.decPair m h) s = .next { s with status := recordError .rsvdMode s.status })
  ∧ ∀ (s : State) (m : LMode) (q : BitVec 6 → I16), profile.invq m = some q →
    (∃ s1 s2 s3 : State, exec .qmfTx s = .next s1 ∧ exec (.encL m) s1 = .next s2
      ∧ exec (.encH .bits2) s2 = .next s3
      ∧ exec (.encPair m .bits2) s = .next { s3 with
        regs := { s3.regs with code := BitVec.ofNat 8 (s3.regs.ih.toNat * 64 + s3.regs.il.toNat) } })
    ∧ (∃ s1 s2 s3 : State,
      exec (.decL m) { s with
        regs := { s.regs with
          il := BitVec.ofNat 6 (s.regs.code.toNat % 64), ih := BitVec.ofNat 2 (s.regs.code.toNat / 64) } } = .next s1
      ∧ exec (.decH .bits2) s1 = .next s2 ∧ exec .qmfRx s2 = .next s3
      ∧ exec (.decPair m .bits2) s = .next s3)

/-- 44_codec_commands.md R299: `ENC_FRAME` is N `ENC_PAIR`s on the pairs of `PCMBUF`, with the codewords and the
noise-shaping pairs in the buffers and no host register written; no other byte of a buffer changes. With a mode that is
not legal, it records `RSVD_MODE` and changes nothing else. -/
def Obligations.EncFrameIsPairs : Prop :=
  (∀ (s : State) (m : LMode) (h : HMode), (Instr.encFrame m h).wellFormed profile = false →
    exec (.encFrame m h) s = .next { s with status := recordError .rsvdMode s.status })
  ∧ ∀ (s : State) (m : LMode) (q : BitVec 6 → I16), profile.invq m = some q → s.regs.Ok → s.mem.wf = true →
    ∃ (u : Nat → State) (t : State), u 0 = s
      ∧ (∀ n, n < s.regs.frameLen →
        exec (.encPair m .bits2) ((u n).loadPair (s.mem.pcm (2 * n)) (s.mem.pcm (2 * n + 1))) = .next (u (n + 1)))
      ∧ exec (.encFrame m .bits2) s = .next t
      ∧ t = { s with enc := (u s.regs.frameLen).enc, mem := t.mem }
      ∧ (∀ n, n < s.regs.frameLen → t.mem.code n = (u (n + 1)).regs.code
        ∧ t.mem.nst n = (u (n + 1)).regs.nsTgt ∧ t.mem.nse n = (u (n + 1)).regs.nsErr)
      ∧ (∀ a, ¬ encFrameStores s.regs.frameLen a → t.mem.get a = s.mem.get a)

/-- 44_codec_commands.md R297, R300: with no loss before it and no crossfade running, a good `DEC_FRAME` is N `DEC_PAIR`s
on the codewords of `CODEBUF`, with the PCM in `PCMBUF` and no host register written. -/
def Obligations.GoodFrameIsPairs : Prop :=
  ∀ (s : State) (m : LMode) (q : BitVec 6 → I16), profile.invq m = some q → s.regs.Ok → s.mem.wf = true →
    s.plc.prevBfi = false → s.plc.xfActive = false →
    ∃ (u : Nat → State) (t : State), u 0 = s
      ∧ (∀ n, n < s.regs.frameLen →
        exec (.decPair m .bits2) ((u n).loadCode (s.mem.code n)) = .next (u (n + 1)))
      ∧ exec (.decFrame m .bits2 false) s = .next t
      ∧ t = { s with dec := (u s.regs.frameLen).dec, plc := t.plc, mem := t.mem }
      ∧ (∀ n, n < s.regs.frameLen →
        t.mem.pcm (2 * n) = (u (n + 1)).regs.y0 ∧ t.mem.pcm (2 * n + 1) = (u (n + 1)).regs.y1)
      ∧ t.plc = { pushHistory profile.plc
          ((List.range s.regs.frameLen).map fun n => (u (n + 1)).regs.xl)
          ((List.range s.regs.frameLen).map fun n => (u (n + 1)).regs.xh) s.plc with
          episode := .none, prevBfi := false }

/-- 44_codec_commands.md R304: a frame encoded and its codewords decoded as a good frame, in the same mode and from equal
contexts, leave the band sub-states of the two contexts equal. -/
def Obligations.FrameRoundTrip : Prop :=
  ∀ (s t u : State) (m : LMode) (q : BitVec 6 → I16), profile.invq m = some q → s.regs.Ok → s.mem.wf = true →
    s.plc.prevBfi = false → s.enc.L = s.dec.L → s.enc.H = s.dec.H →
    exec (.encFrame m .bits2) s = .next t → exec (.decFrame m .bits2 false) t = .next u →
      u.dec.L = u.enc.L ∧ u.dec.H = u.enc.H ∧ u.plc.prevBfi = false

/-- 44_codec_commands.md R300, R301: a good `DEC_FRAME`, from every state: re-converged first where the frame before was
lost, then codeword by codeword in order, each decoded, crossfaded where a crossfade is running, and synthesized. It
writes `DEC`, `PLC` and the first 2N elements of `PCMBUF`, and nothing else. With a mode that is not legal, `DEC_FRAME`,
good or lost, records `RSVD_MODE` and changes nothing else. -/
def Obligations.GoodFrame : Prop :=
  (∀ (s : State) (m : LMode) (h : HMode) (loss : Bool), (Instr.decFrame m h loss).wellFormed profile = false →
    exec (.decFrame m h loss) s = .next { s with status := recordError .rsvdMode s.status })
  ∧ ∀ (s : State) (m : LMode) (q : BitVec 6 → I16), profile.invq m = some q → s.mem.wf = true → s.regs.Ok →
    ∃ (d : Nat → Ctx) (p : Nat → Plc) (lo hi : Nat → I16) (t : State),
      exec (.decFrame m .bits2 false) s = .next t
      ∧ d 0 = (if s.plc.prevBfi then reconvDec profile s.plc s.dec else s.dec)
      ∧ p 0 = (if s.plc.prevBfi then { s.plc with xfActive := true, xfPos := 0 } else s.plc)
      ∧ (∀ n, n < s.regs.frameLen →
        let l := decLF profile q m (d n).L (codeIl (s.mem.code n))
        let h := decHF profile (d n).H (codeIh (s.mem.code n))
        let y := qmfRxF profile (d n).D (lo n) (hi n)
        lo n = (if (p n).xfActive then xfOut profile.plc (p n) l.x else l.x) ∧ hi n = h.x
        ∧ d (n + 1) = { L := l.B, H := h.B, D := y.D }
        ∧ p (n + 1) = (if (p n).xfActive then xfAdvance (p n) else p n)
        ∧ t.mem.pcm (2 * n) = y.y0 ∧ t.mem.pcm (2 * n + 1) = y.y1)
      ∧ t = { s with dec := d s.regs.frameLen, plc := t.plc, mem := t.mem }
      ∧ t.plc = { pushHistory profile.plc ((List.range s.regs.frameLen).map lo) ((List.range s.regs.frameLen).map hi)
          (p s.regs.frameLen) with episode := .none, prevBfi := false }
      ∧ (∀ a, ¬ decFrameStores s.regs.frameLen a → t.mem.get a = s.mem.get a)

/-- 44_codec_commands.md R300, 45_plc_analysis.md R351, R352, 46_plc_synthesis.md R380, R391: a lost `DEC_FRAME`, from
every state. It analyses only where the frame before was good, and conceals N samples from that; their synthesis, sample
by sample in order, gives the PCM and `DEC.D`. It keeps the band sub-states, abandons a crossfade where it analyses,
counts the samples it conceals, and writes `DEC.D`, `PLC` and the first 2N elements of `PCMBUF`, and nothing else. -/
def Obligations.LostFrame : Prop :=
  ∀ (s : State) (m : LMode) (q : BitVec 6 → I16), profile.invq m = some q → s.mem.wf = true →
    let N := s.regs.frameLen
    let start := if s.plc.prevBfi then s.plc else analyse profile.plc s.dec.L.nb s.dec.H.nb s.plc
    let c := conceal profile.plc N start
    ∃ (D : Nat → Vector I16 24) (t : State), exec (.decFrame m .bits2 true) s = .next t
      ∧ c.lo.length = N ∧ c.hi.length = N ∧ D 0 = s.dec.D
      ∧ (∀ n, n < N → let y := qmfRxF profile (D n) (c.lo.getD n 0) (c.hi.getD n 0)
        D (n + 1) = y.D ∧ t.mem.pcm (2 * n) = y.y0 ∧ t.mem.pcm (2 * n + 1) = y.y1)
      ∧ t = { s with dec := { s.dec with D := D N }, plc := t.plc, mem := t.mem }
      ∧ t.plc = { pushHistory profile.plc c.lo c.hi c.plc with
          episode := if s.plc.prevBfi then .continuingLoss else .firstLoss
          prevBfi := true }
      ∧ t.plc.cls = start.cls ∧ t.plc.t0 = start.t0 ∧ t.plc.lpc = start.lpc ∧ t.plc.hbPer = start.hbPer
      ∧ t.plc.tSyn = start.tSyn
      ∧ t.plc.cntL = (if s.plc.prevBfi then s.plc.cntL else 0) + N
      ∧ t.plc.cntH = (if s.plc.prevBfi then s.plc.cntH else 0) + N
      ∧ t.plc.wL = attW profile.plc t.plc.cls t.plc.cntL ∧ t.plc.wH = attW profile.plc t.plc.cls t.plc.cntH
      ∧ (s.plc.prevBfi = false → t.plc.xfActive = false ∧ t.plc.xfPos = 0)
      ∧ t.plc.xfBuf.length = 80
      ∧ (∀ a, ¬ decFrameStores N a → t.mem.get a = s.mem.get a)

/-- 44_codec_commands.md R300, 70_reset_and_hazards.md R476: a lost frame does not read the buffers. Two states that
differ only in what the buffers hold get the same contexts, the same PLC state and the same PCM. -/
def Obligations.LostFrameIgnoresBuffers : Prop :=
  ∀ (s t : State) (m : LMode) (n : Memory), s.mem.wf = true → n.wf = true →
    exec (.decFrame m .bits2 true) s = .next t →
      ∃ n' : Memory, exec (.decFrame m .bits2 true) { s with mem := n } = .next { t with mem := n' }
        ∧ (m ≠ .bits3 → ∀ k, k < 2 * s.regs.frameLen → n'.pcm k = t.mem.pcm k)

/-- 10_state.md R48: a command writes no register outside its row, and what it writes depends on the registers of its row
only, beside the contexts, the PLC state, the buffers and the frame length. -/
def Obligations.CommandRegisters : Prop :=
  (∀ (i : Instr) (s t : State) (r : HostReg), exec i s = .next t → r ∉ regsWritten i → r ≠ .status →
    readReg t r = readReg s r)
  ∧ (∀ (i : Instr) (s s' t t' : State), i.wellFormed profile = true → exec i s = .next t → exec i s' = .next t' →
    s.enc = s'.enc → s.dec = s'.dec → s.plc = s'.plc → s.mem = s'.mem → s.regs.frameLen = s'.regs.frameLen →
    (∀ r ∈ regsRead i, readReg s r = readReg s' r) →
      (∀ r ∈ regsWritten i, readReg t r = readReg t' r) ∧ t.enc = t'.enc ∧ t.dec = t'.dec ∧ t.plc = t'.plc
        ∧ t.mem = t'.mem)

/-- 10_state.md R61, 44_codec_commands.md R306: which command may write which context, the PLC state and the buffers;
and that no host access but a write to `CMD` or the reset input changes a context. -/
def Obligations.ContextWriters : Prop :=
  (∀ (i : Instr) (s t : State), exec i s = .next t →
    (writesEnc i = false → t.enc = s.enc) ∧ (writesDec i = false → t.dec = s.dec)
    ∧ (writesPlc i = false → t.plc = s.plc) ∧ (writesBuffers i = false → t.mem = s.mem) ∧ t.bus = s.bus
    ∧ (i.wellFormed profile = true → t.status = s.status))
  ∧ (∀ (s t : State) (x : HostInput) (rest : List HostInput), s.bus.inputs = x :: rest → step s = .next t →
    (∀ v : Word, x ≠ cmdWrite v) → x ≠ .powerOnReset → t.enc = s.enc ∧ t.dec = s.dec ∧ t.plc = s.plc)

/-! ### Packet-loss concealment -/

/-- 45_plc_analysis.md R330: the histories after a frame of N samples, longer or shorter than the history, and that
nothing else of the PLC state changes. -/
def Obligations.PushHistory : Prop :=
  ∀ (P : PlcParams) (p : Plc) (lo hi : List I16), p.histL.length = P.histLen → p.histH.length = 160 →
    lo.length = hi.length →
    let N := lo.length
    let shifted := fun (len : Nat) (buf src new : List I16) =>
      new.length = len ∧ ∀ j, j < len →
        new.getD j 0 = (if len ≤ N then src.getD (N - len + j) 0
          else if j < len - N then buf.getD (N + j) 0 else src.getD (j - (len - N)) 0)
    ∃ L H : List I16, pushHistory P lo hi p = { p with histL := L, histH := H }
      ∧ shifted P.histLen p.histL lo L ∧ shifted 160 p.histH hi H

/-- 45_plc_analysis.md R334, R335: the coefficients that the recursion returns solve the normal equations of the
autocorrelation, so that the recursion is the textbook one in the sign convention of R334. -/
def Obligations.LevinsonSolvesNormalEquations : Prop :=
  ∀ (rr : Nat → Rat) (p : Nat) (a : List Rat), levinson rr p = some a →
    a.length = p ∧ ∀ i, 1 ≤ i → i ≤ p →
      rr i + ∑ j ∈ Finset.range p, a.getD j 0 * rr (Int.natAbs ((i : Int) - (j + 1))) = 0

/-- 45_plc_analysis.md R339, R341, R343: a correlation is carried as its signed square (log 2), which orders the
correlations as the reals do and is compared with the square of the threshold. -/
def Obligations.SignedSquaresOrderCorrelations : Prop :=
  let corr := fun X E : Rat => if 0 < E then (X : Real) / Real.sqrt (E : Real) else 0
  (∀ X E X' E' : Rat, signedSq X E < signedSq X' E' ↔ corr X E < corr X' E')
  ∧ (∀ X E : Rat, voicedThrSq < signedSq X E ↔ (7 / 10 : Real) < corr X E)

/-- 45_plc_analysis.md R341: `t0` lies in `[MINPIT, MAXPIT]` and in the refinement set of a selected lag, no lag of those
sets has a larger correlation, and none that ties is smaller. -/
def Obligations.PitchLagIsBest : Prop :=
  ∀ exc : List Rat, let P := profile.plc
    let sel := P.pitchSelect ((lagsFrom P.tauMin P.tauMax).map
      (normCorr (decimLen P) (whiten P (decimate P exc))))
    let cand := fun T : Nat => ∃ τ : Nat, (τ = sel.1 ∨ sel.2 = some τ)
      ∧ max P.minPit (4 * τ - 2) ≤ T ∧ T ≤ min P.maxPit (4 * τ + 2)
    let t0 := pitchLag P exc
    P.minPit ≤ t0 ∧ t0 ≤ P.maxPit ∧ cand t0
    ∧ ∀ T : Nat, cand T → pitchCorr P exc T ≤ pitchCorr P exc t0
      ∧ (pitchCorr P exc T = pitchCorr P exc t0 → t0 ≤ T)

/-- 45_plc_analysis.md R346: where the prior cycle has a peak, the class is promoted exactly when a sample of the last
cycle exceeds 8 times it; promoted or not, a sample of the last cycle within that limit is kept, one beyond it becomes
the limit with its sign, and no earlier sample changes. -/
def Obligations.TransientLimitsTheLastCycle : Prop :=
  ∀ (P : PlcParams) (t0 : Nat) (exc : List Rat) (c : SigClass), exc.length = P.excLen → 2 * t0 ≤ P.excLen →
    let top := peak (priorCycle P t0 exc)
    let out := transientLimit P t0 exc
    (0 < top → (∀ j : Nat, j < t0 → let x := (lastCycle P t0 exc).getD j 0
        (lastCycle P t0 out).getD j 0 = if |x| ≤ 8 * top then x else if x < 0 then -(8 * top) else 8 * top)
      ∧ (∀ x ∈ lastCycle P t0 out, |x| ≤ 8 * top)
      ∧ (transientClass P t0 exc c = .transient ↔ c = .transient ∨ ∃ x ∈ lastCycle P t0 exc, 8 * top < |x|))
    ∧ (¬ 0 < top → out = exc ∧ transientClass P t0 exc c = c)
    ∧ out.length = P.excLen ∧ out.take (P.excLen - t0) = exc.take (P.excLen - t0)

/-- 46_plc_synthesis.md R386: the attenuation weight, for every choice of decrements at least 0 and of the class's end. It
lies in [0, 1], never rises with the count, starts at 1 unless the class ends at once, is 0 from the class's end on, and
before that falls along the three segments. -/
def Obligations.AttenuationWeight : Prop :=
  ∀ (P : PlcParams) (cls : SigClass) (c c' : Nat), (∀ k : Nat, 0 ≤ P.attSlope cls k) →
    0 ≤ attW P cls c ∧ attW P cls c ≤ 1 ∧ (c ≤ c' → attW P cls c' ≤ attW P cls c)
    ∧ (P.attEnd cls ≠ 0 → attW P cls 0 = 1) ∧ (P.attEnd cls ≤ c → attW P cls c = 0)
    ∧ (c < P.attEnd cls → c ≤ 80 → attW P cls c = max 0 (1 - P.attSlope cls 0 * c))
    ∧ (c < P.attEnd cls → 80 ≤ c → c ≤ 160 →
      attW P cls c = max 0 (1 - (P.attSlope cls 0 * 80 + P.attSlope cls 1 * (c - 80))))
    ∧ (c < P.attEnd cls → 160 ≤ c → attW P cls c =
      max 0 (1 - (P.attSlope cls 0 * 80 + P.attSlope cls 1 * 80 + P.attSlope cls 2 * (c - 160))))

/-- 46_plc_synthesis.md R389: the crossfade of a recovered sample. The first 20 are the buffer's, the next 60 mix with a
weight that rises by 1/60, the last is the decoded sample, and the episode then ends. That a mixed sample lies between
the two it mixes rests on the model's reading of `PLC_ROUND` (log 6). -/
def Obligations.CrossfadeSchedule : Prop :=
  ∀ (p : Plc) (rl : I16), p.xfPos < 80 →
    let x := p.xfBuf.getD p.xfPos 0
    let out := xfOut profile.plc p rl
    (p.xfPos < 20 → out = x)
    ∧ (20 ≤ p.xfPos → let g : Rat := ((p.xfPos : Rat) - 19) / 60
      out = sat16 (Config.plcRound (g * (rl.toInt : Rat) + (1 - g) * (x.toInt : Rat))))
    ∧ (p.xfPos = 79 → out = rl)
    ∧ min rl.toInt x.toInt ≤ out.toInt ∧ out.toInt ≤ max rl.toInt x.toInt
    ∧ xfAdvance p = { p with xfPos := p.xfPos + 1, xfActive := if p.xfPos = 79 then false else p.xfActive }

/-- 46_plc_synthesis.md R395, R396: what re-convergence writes into the decoder's bands, the leaked coefficients among
it, and that the bounds of every band field still hold after it, for every value of the OPEN parameters. The bounds rest
on the model's reading of `PLC_ROUND` (log 6) and on its range of `RECONV_LEAK` (log 7). -/
def Obligations.ReconvergeKeepsBounds : Prop :=
  ∀ (p : Plc) (C : Ctx), C.Ok profile →
    let R := reconvDec profile p C
    let leak := fun x : I16 => sat16 (Config.plcRound (Config.reconvLeak * (x.toInt : Rat)))
    R.Ok profile ∧ R.D = C.D
    ∧ (∀ i : Fin 2, R.L.a[i.val + 1] = leak C.L.a[i.val + 1] ∧ R.H.a[i.val + 1] = leak C.H.a[i.val + 1])
    ∧ (∀ i : Fin 6, R.L.b[i.val + 1] = leak C.L.b[i.val + 1] ∧ R.H.b[i.val + 1] = leak C.H.b[i.val + 1])
    ∧ R.L.a[0] = C.L.a[0] ∧ R.H.a[0] = C.H.a[0] ∧ R.L.b[0] = C.L.b[0] ∧ R.H.b[0] = C.H.b[0]
    ∧ (∀ i : Fin 7, R.L.d[i] = 0 ∧ R.H.d[i] = 0)
    ∧ R.L.r[1] = p.histL.getD (profile.plc.histLen - 1) 0 ∧ R.L.r[2] = p.histL.getD (profile.plc.histLen - 2) 0
    ∧ R.H.r[1] = p.histH.getD 159 0 ∧ R.H.r[2] = p.histH.getD 158 0
    ∧ (∀ i : Fin 3, R.L.p[i].toInt = R.L.r[i].toInt / 2 ∧ R.H.p[i].toInt = R.H.r[i].toInt / 2)
    ∧ (160 < p.cntH → R.L.det = 32 ∧ R.L.nb = 0 ∧ R.H.det = 8 ∧ R.H.nb = 0)
    ∧ (¬ 160 < p.cntH → R.L.det = C.L.det ∧ R.L.nb = C.L.nb ∧ R.H.det = C.H.det ∧ R.H.nb = C.H.nb)
    ∧ R.L.sz = 0 ∧ R.H.sz = 0 ∧ R.L.s = R.L.sp ∧ R.H.s = R.H.sp

/-- 46_plc_synthesis.md R398: after `RESET_DEC` and `PLC_RESET`, a lost frame gives PCM 0, for every value of the OPEN
parameters; the host then reads `PREV_BFI` set, no crossfade, and class `WEAKLY_VOICED`. -/
def Obligations.LossFromCleanStart : Prop :=
  ∀ (s : State) (m : LMode) (q : BitVec 6 → I16), profile.invq m = some q → s.mem.wf = true →
    ∃ s1 s2 t : State, exec .resetDec s = .next s1 ∧ exec .plcReset s1 = .next s2
      ∧ exec (.decFrame m .bits2 true) s2 = .next t
      ∧ (∀ k, k < 2 * s.regs.frameLen → t.mem.pcm k = 0)
      ∧ t.dec.IsReset ∧ (∀ x ∈ t.plc.lpc, x = 0) ∧ (∀ x ∈ t.plc.exc, x = 0) ∧ (∀ x ∈ t.plc.hbPer, x = 0)
      ∧ (∀ x ∈ t.plc.xfBuf, x = 0)
      ∧ readReg t .status &&& 0x1F00#32 = 0x0900#32

/-! ### Invariants -/

/-- 10_state.md R66 (log 13): every step keeps the buffers' canonical form. -/
def Obligations.StepKeepsBufferForm : Prop :=
  ∀ s t : State, s.mem.wf = true → step s = .next t → t.mem.wf = true

/-- 10_state.md R56 to R58, 42_adpcm_adapt.md R228, R233, R235 to R237: every step keeps the bounds and conventions of all
four band sub-states: the coefficient bounds, the step size as the table's entry of the log step size, the zero
coefficients of index 0, the twin entries of the histories, and the prediction as the sum of its two sections. That
re-convergence keeps them rests on the model's reading of `PLC_ROUND` and `RECONV_LEAK` (log 6, log 7). -/
def Obligations.StepKeepsBandBounds : Prop :=
  ∀ s t : State, s.enc.Ok profile → s.dec.Ok profile → step s = .next t → t.enc.Ok profile ∧ t.dec.Ok profile

/-- 10_state.md R62, R63, 46_plc_synthesis.md R386: every step keeps the lengths and ranges of the PLC state, for every
value of the OPEN parameters: the pitch lag in its range or 0, the two counters equal, the weights in [0, 1], a crossfade
only after a good frame and short of its end, the phase inside the period, and `NONE` exactly when no loss is pending. -/
def Obligations.StepKeepsPlcShape : Prop :=
  ∀ s t : State, s.plc.Ok profile.plc → step s = .next t → t.plc.Ok profile.plc

/-- 10_state.md R44, R43, 60_exceptions.md R431, 20_memory.md R101: every step keeps `FRAMELEN` in 1 to 160, `STATUS` with
only the codes that are ever recorded, and every buffer byte inside an implemented element. -/
def Obligations.StepKeepsRegisterRanges : Prop :=
  ∀ s t : State, s.regs.Ok → s.status.Ok → s.mem.inBuffers = true → step s = .next t →
    t.regs.Ok ∧ t.status.Ok ∧ t.mem.inBuffers = true

/-- 70_reset_and_hazards.md R470: the state after reset meets every invariant above. -/
def Obligations.ResetStateIsOk : Prop := State.reset.Ok

/-- 44_codec_commands.md R301, 60_exceptions.md R430, R439: every command and every host access, from every state, ends in
a next state: the block has no trap and no fault. A step takes exactly one access from the host's list, and none where
the list is empty. -/
def Obligations.EveryStepAnswersNext : Prop :=
  (∀ (i : Instr) (s : State), ∃ t : State, exec i s = .next t)
  ∧ (∀ s : State, ∃ t : State, step s = .next t ∧ t.bus.inputs = s.bus.inputs.tail)

end Statements
end

