-- ==== Sys2Proof/Laws/Config.lean ====
section
/-! SUPPORT. The ranges of the OPEN parameters, whatever their raw values: 45_plc_analysis.md R353, R340, R344, R349
and 46_plc_synthesis.md R386, R388, R396 (log 4 to 7). -/

namespace Sys2Proof.Config

theorem maxPit_lo : 40 ≤ maxPit := by unfold maxPit; omega

theorem maxPit_hi : maxPit ≤ 160 := by unfold maxPit; omega

theorem minPit_lo : 4 ≤ minPit := by unfold minPit; omega

theorem minPit_hi : minPit ≤ 4 * (maxPit / 4) := by
  have := maxPit_lo
  have h := Nat.mod_lt minPitRaw (show 4 * (maxPit / 4) - 3 > 0 by omega)
  unfold minPit
  omega

theorem minPit_le_maxPit : minPit ≤ maxPit := by have := minPit_hi; omega

/-- A selected lag lies in `τmin .. τmax`. -/
theorem tauInRange_mem (τ : Nat) : plc.tauMin ≤ tauInRange τ ∧ tauInRange τ ≤ plc.tauMax := by
  show (minPit + 3) / 4 ≤ _ ∧ _ ≤ maxPit / 4
  have h := minPit_hi
  have hm := Nat.mod_lt τ (show maxPit / 4 + 1 - (minPit + 3) / 4 > 0 by omega)
  unfold tauInRange
  omega

theorem pitchSelect_fst_mem (c : List Rat) :
    plc.tauMin ≤ (pitchSelect c).1 ∧ (pitchSelect c).1 ≤ plc.tauMax := tauInRange_mem _

theorem classDowngrade_cases (cmax : Rat) (nbL nbH : I16) :
    classDowngrade cmax nbL nbH = .weaklyVoiced ∨ classDowngrade cmax nbL nbH = .vuvTransition := by
  unfold classDowngrade; split <;> simp

theorem pulseAlign_mem (exc : List Rat) (t0 : Nat) (h : minPit ≤ t0) :
    minPit ≤ pulseAlign exc t0 ∧ pulseAlign exc t0 ≤ t0 := by
  have hm := Nat.mod_lt (pulseAlignRaw exc t0) (show t0 + 1 - minPit > 0 by omega)
  unfold pulseAlign
  omega

theorem attSlope_nonneg (c : SigClass) (k : Nat) : 0 ≤ attSlope c k := by
  unfold attSlope; split <;> linarith

theorem xfTail_mem (k : Nat) : 0 ≤ xfTail k ∧ xfTail k ≤ 1 := by
  unfold xfTail; split
  · norm_num
  · split
    · norm_num
    · constructor <;> linarith

theorem lpcWin_nonneg (i : Nat) : 0 ≤ lpcWin i := by unfold lpcWin; split <;> linarith

theorem lagW_pos (k : Nat) : 0 < lagW k := by
  unfold lagW; split
  · assumption
  · norm_num

theorem dcA_mem : 0 < dcA ∧ dcA < 1 := by
  unfold dcA
  have h1 : (0 : Rat) < ((dcANumRaw + 1 : Nat) : Rat) := by positivity
  have h2 : (0 : Rat) < ((dcANumRaw + dcADenRaw + 2 : Nat) : Rat) := by positivity
  refine ⟨div_pos h1 h2, (div_lt_one h2).2 ?_⟩
  exact_mod_cast (by omega : dcANumRaw + 1 < dcANumRaw + dcADenRaw + 2)

theorem reconvLeak_mem : 0 < reconvLeak ∧ reconvLeak ≤ 15359 / 15360 := by
  unfold reconvLeak
  have h1 : (0 : Rat) < ((reconvNumRaw + 1 : Nat) : Rat) := by positivity
  have h2 : (0 : Rat) < ((reconvNumRaw + reconvDenRaw + 2 : Nat) : Rat) := by positivity
  simp only
  split
  · exact ⟨div_pos h1 h2, by linarith⟩
  · norm_num

/-- `PLC_ROUND` is within 1 of its argument. -/
theorem plcRound_near (v : Rat) : v - 1 < (plcRound v : Rat) ∧ (plcRound v : Rat) < v + 1 := by
  unfold plcRound; split
  · exact ⟨by have : v ≤ (v.ceil : Rat) := Rat.le_ceil; linarith, Rat.ceil_lt⟩
  · exact ⟨by have := Rat.lt_floor (x := v); linarith, by have : (v.floor : Rat) ≤ v := Rat.floor_le v; linarith⟩

/-- `PLC_ROUND` keeps an integer. -/
theorem plcRound_int (n : Int) : plcRound (n : Rat) = n := by
  unfold plcRound; split <;> simp

end Sys2Proof.Config
end

