-- ==== Sys2Proof/Laws/Memory.lean ====
section
/-! SUPPORT. The laws of the buffers: a read after a write, and the canonical form, which every operation keeps and
which makes equal memories equal data. -/

namespace Sys2Proof.Machine

/-! ### Bytes -/

/-- A byte below every listed offset reads 0. -/
theorem Memory.get_of_lt (m : Memory) (lo y : Nat) (h : Memory.wfFrom lo m = true) (hy : y < lo) : m.get y = 0 := by
  induction m generalizing lo with
  | nil => rfl
  | cons d l ih =>
    obtain ⟨j, d⟩ := d
    simp only [Memory.wfFrom, Bool.and_eq_true, decide_eq_true_eq] at h
    rw [Memory.get, if_neg (by omega)]
    exact ih (j + 1) h.2 (by omega)

theorem Memory.get_cons (k a : Nat) (c : Byte) (rest : Memory) :
    Memory.get ((k, c) :: rest) a = if k = a then c else Memory.get rest a := rfl

theorem Memory.get_put (m : Memory) (a x : Nat) (b : Byte) (lo : Nat) (h : Memory.wfFrom lo m = true) :
    (m.put a b).get x = if x = a then b else m.get x := by
  induction m generalizing lo with
  | nil =>
    rw [Memory.put]
    by_cases hb : b = 0
    · rw [if_pos hb]; split <;> simp [Memory.get, hb]
    · rw [if_neg hb, Memory.get_cons]; simp only [eq_comm]
  | cons c rest ih =>
    obtain ⟨k, c⟩ := c
    simp only [Memory.wfFrom, Bool.and_eq_true, decide_eq_true_eq] at h
    obtain ⟨⟨hk, hc⟩, hr⟩ := h
    have hrk : ∀ y, y < k + 1 → Memory.get rest y = 0 := fun y hy => Memory.get_of_lt rest (k + 1) y hr hy
    unfold Memory.put
    split
    · rename_i hak
      by_cases hb : b = 0
      · rw [if_pos hb, Memory.get_cons]
        split
        · rw [if_neg (by omega)]
        · split
          · rename_i hx; rw [hb, hx, hrk a (by omega)]
          · rfl
      · rw [if_neg hb, Memory.get_cons]
        simp only [eq_comm]
    · split
      · rename_i hak
        subst hak
        by_cases hb : b = 0
        · rw [if_pos hb, Memory.get_cons]
          split
          · rename_i hx; rw [hb, hx, hrk a (by omega)]
          · rw [if_neg (by omega)]
        · rw [if_neg hb, Memory.get_cons, Memory.get_cons]
          by_cases hx : x = a
          · rw [if_pos hx.symm, if_pos hx]
          · rw [if_neg (Ne.symm hx), if_neg hx, if_neg (Ne.symm hx)]
      · rename_i h1 h2
        rw [Memory.get_cons, Memory.get_cons]
        split
        · rw [if_neg (by omega)]
        · exact ih (k + 1) hr

theorem Memory.wfFrom_mono (m : Memory) (lo hi : Nat) (h : lo ≤ hi) (hm : Memory.wfFrom hi m = true) :
    Memory.wfFrom lo m = true := by
  cases m with
  | nil => rfl
  | cons c rest =>
    obtain ⟨k, c⟩ := c
    simp only [Memory.wfFrom, Bool.and_eq_true, decide_eq_true_eq] at hm ⊢
    exact ⟨⟨by omega, hm.1.2⟩, hm.2⟩

theorem Memory.wfFrom_cons (lo k : Nat) (c : Byte) (rest : Memory) :
    Memory.wfFrom lo ((k, c) :: rest) = true ↔ lo ≤ k ∧ c ≠ 0 ∧ Memory.wfFrom (k + 1) rest = true := by
  simp only [Memory.wfFrom, Bool.and_eq_true, decide_eq_true_eq, and_assoc]

theorem Memory.wfFrom_put (m : Memory) (lo a : Nat) (b : Byte) (ha : lo ≤ a) (h : Memory.wfFrom lo m = true) :
    Memory.wfFrom lo (m.put a b) = true := by
  induction m generalizing lo with
  | nil =>
    rw [Memory.put]
    split
    · rfl
    · rename_i hb; exact (Memory.wfFrom_cons ..).2 ⟨ha, hb, rfl⟩
  | cons c rest ih =>
    obtain ⟨k, c⟩ := c
    obtain ⟨hk, hc, hr⟩ := (Memory.wfFrom_cons ..).1 h
    unfold Memory.put
    split
    · split
      · exact h
      · rename_i hak hb
        exact (Memory.wfFrom_cons ..).2 ⟨ha, hb, (Memory.wfFrom_cons ..).2 ⟨hak, hc, hr⟩⟩
    · split
      · rename_i hak
        subst hak
        split
        · exact Memory.wfFrom_mono rest lo (a + 1) (by omega) hr
        · rename_i hb; exact (Memory.wfFrom_cons ..).2 ⟨ha, hb, hr⟩
      · exact (Memory.wfFrom_cons ..).2 ⟨hk, hc, ih (k + 1) (by omega) hr⟩

@[simp] theorem Memory.wf_nil : Memory.wf [] = true := rfl

@[simp] theorem Memory.get_nil (a : Nat) : Memory.get [] a = 0 := rfl

/-- A write keeps the canonical form. -/
theorem Memory.wf_put (m : Memory) (a : Nat) (b : Byte) (h : m.wf = true) : (m.put a b).wf = true :=
  Memory.wfFrom_put m 0 a b (by omega) h

/-- A read after a write of one byte. -/
theorem Memory.get_put_wf (m : Memory) (a x : Nat) (b : Byte) (h : m.wf = true) :
    (m.put a b).get x = if x = a then b else m.get x :=
  Memory.get_put m a x b 0 h

theorem Memory.get_put_same (m : Memory) (a : Nat) (b : Byte) (h : m.wf = true) : (m.put a b).get a = b := by
  simp [Memory.get_put_wf m a a b h]

/-- A store leaves every other byte, in every list. -/
theorem Memory.get_put_ne (m : Memory) (a x : Nat) (b : Byte) (hx : x ≠ a) : (m.put a b).get x = m.get x := by
  induction m with
  | nil => simp only [Memory.put]; split <;> simp [Memory.get, Ne.symm hx]
  | cons c rest ih =>
    obtain ⟨k, c⟩ := c
    simp only [Memory.put]
    split
    · split <;> simp [Memory.get, Ne.symm hx]
    · split
      · subst_vars
        split <;> simp [Memory.get, Ne.symm hx]
      · simp only [Memory.get, ih]

theorem Memory.get_put_other (m : Memory) (a x : Nat) (b : Byte) (h : m.wf = true) (hx : x ≠ a) :
    (m.put a b).get x = m.get x := by
  simp [Memory.get_put_wf m a x b h, hx]

/-- Memories in canonical form that read alike are the same list. -/
theorem Memory.ext_of_get (m n : Memory) (hm : m.wf = true) (hn : n.wf = true) (h : ∀ a, m.get a = n.get a) :
    m = n := by
  unfold Memory.wf at hm hn
  generalize 0 = lo at hm hn
  induction m generalizing n lo with
  | nil =>
    cases n with
    | nil => rfl
    | cons d n =>
      obtain ⟨j, d⟩ := d
      simp only [Memory.wfFrom, Bool.and_eq_true, decide_eq_true_eq] at hn
      have := h j
      simp only [Memory.get, if_true] at this
      exact absurd this.symm hn.1.2
  | cons c m ih =>
    obtain ⟨k, c⟩ := c
    simp only [Memory.wfFrom, Bool.and_eq_true, decide_eq_true_eq] at hm
    cases n with
    | nil =>
      have := h k
      simp only [Memory.get, if_true] at this
      exact absurd this hm.1.2
    | cons d n =>
      obtain ⟨j, d⟩ := d
      simp only [Memory.wfFrom, Bool.and_eq_true, decide_eq_true_eq] at hn
      have hkj : k = j := by
        rcases lt_trichotomy k j with hlt | heq | hgt
        · have := h k
          simp only [Memory.get, if_true, show j ≠ k by omega, if_false] at this
          exact absurd (this.trans (Memory.get_of_lt n (j + 1) k hn.2 (by omega))) hm.1.2
        · exact heq
        · have := h j
          simp only [Memory.get, if_true, show k ≠ j by omega, if_false] at this
          exact absurd (this.symm.trans (Memory.get_of_lt m (k + 1) j hm.2 (by omega))) hn.1.2
      subst hkj
      have hcd : c = d := by simpa [Memory.get] using h k
      subst hcd
      congr 1
      refine ih n (fun y => ?_) (k + 1) hm.2 hn.2
      by_cases hy : k = y
      · subst hy
        rw [Memory.get_of_lt m (k + 1) k hm.2 (by omega), Memory.get_of_lt n (k + 1) k hn.2 (by omega)]
      · simpa [Memory.get, hy] using h y

/-! ### 16-bit elements -/

theorem Memory.wf_put16 (m : Memory) (a : Nat) (v : I16) (h : m.wf = true) : (m.put16 a v).wf = true :=
  Memory.wf_put _ _ _ (Memory.wf_put _ _ _ h)

theorem Memory.get_put16 (m : Memory) (a x : Nat) (v : I16) (h : m.wf = true) :
    (m.put16 a v).get x =
      if x = a + 1 then v.extractLsb' 8 8 else if x = a then v.extractLsb' 0 8 else m.get x := by
  unfold Memory.put16
  rw [Memory.get_put_wf _ _ _ _ (Memory.wf_put _ _ _ h), Memory.get_put_wf _ _ _ _ h]

theorem Memory.get_put16_other (m : Memory) (a x : Nat) (v : I16) (h : m.wf = true) (h0 : x ≠ a)
    (h1 : x ≠ a + 1) : (m.put16 a v).get x = m.get x := by
  simp [Memory.get_put16 m a x v h, h0, h1]

theorem Memory.get16_put16_same (m : Memory) (a : Nat) (v : I16) (h : m.wf = true) :
    (m.put16 a v).get16 a = v := by
  unfold Memory.get16
  rw [Memory.get_put16 _ _ _ _ h, Memory.get_put16 _ _ _ _ h]
  simp
  ext i hi
  rw [BitVec.getElem_append]
  split <;> simp [BitVec.getElem_extractLsb', BitVec.getLsbD_eq_getElem, hi]
  · rw [← BitVec.getLsbD_eq_getElem]; congr 1; omega

theorem Memory.get16_put16_other (m : Memory) (a x : Nat) (v : I16) (h : m.wf = true) (h0 : x + 1 < a ∨ a + 1 < x) :
    (m.put16 a v).get16 x = m.get16 x := by
  unfold Memory.get16
  rw [Memory.get_put16_other _ _ _ _ h (by omega) (by omega), Memory.get_put16_other _ _ _ _ h (by omega) (by omega)]

theorem Memory.get16_put_other (m : Memory) (a x : Nat) (b : Byte) (h : m.wf = true) (h0 : a ≠ x) (h1 : a ≠ x + 1) :
    (m.put a b).get16 x = m.get16 x := by
  unfold Memory.get16
  rw [Memory.get_put_other _ _ _ _ h (by omega), Memory.get_put_other _ _ _ _ h (by omega)]

/-! ### Elements -/

theorem Memory.wf_setPcm (m : Memory) (k : Nat) (v : I16) (h : m.wf = true) : (m.setPcm k v).wf = true :=
  Memory.wf_put16 _ _ _ h

theorem Memory.wf_setCode (m : Memory) (k : Nat) (v : Byte) (h : m.wf = true) : (m.setCode k v).wf = true :=
  Memory.wf_put _ _ _ h

theorem Memory.wf_setNst (m : Memory) (k : Nat) (v : I16) (h : m.wf = true) : (m.setNst k v).wf = true :=
  Memory.wf_put16 _ _ _ h

theorem Memory.wf_setNse (m : Memory) (k : Nat) (v : I16) (h : m.wf = true) : (m.setNse k v).wf = true :=
  Memory.wf_put16 _ _ _ h

theorem Memory.pcm_setPcm_same (m : Memory) (k : Nat) (v : I16) (h : m.wf = true) : (m.setPcm k v).pcm k = v :=
  Memory.get16_put16_same _ _ _ h

theorem Memory.pcm_setPcm_other (m : Memory) (j k : Nat) (v : I16) (h : m.wf = true) (hj : j ≠ k) :
    (m.setPcm k v).pcm j = m.pcm j :=
  Memory.get16_put16_other _ _ _ _ h (by unfold pcmAddr; omega)

theorem Memory.code_setCode_same (m : Memory) (k : Nat) (v : Byte) (h : m.wf = true) : (m.setCode k v).code k = v :=
  Memory.get_put_same _ _ _ h

theorem Memory.code_setCode_other (m : Memory) (j k : Nat) (v : Byte) (h : m.wf = true) (hj : j ≠ k) :
    (m.setCode k v).code j = m.code j :=
  Memory.get_put_other _ _ _ _ h (by unfold codeAddr; omega)

theorem Memory.nst_setNst_same (m : Memory) (k : Nat) (v : I16) (h : m.wf = true) : (m.setNst k v).nst k = v :=
  Memory.get16_put16_same _ _ _ h

theorem Memory.nst_setNst_other (m : Memory) (j k : Nat) (v : I16) (h : m.wf = true) (hj : j ≠ k) :
    (m.setNst k v).nst j = m.nst j :=
  Memory.get16_put16_other _ _ _ _ h (by unfold nstAddr; omega)

theorem Memory.nse_setNse_same (m : Memory) (k : Nat) (v : I16) (h : m.wf = true) : (m.setNse k v).nse k = v :=
  Memory.get16_put16_same _ _ _ h

theorem Memory.nse_setNse_other (m : Memory) (j k : Nat) (v : I16) (h : m.wf = true) (hj : j ≠ k) :
    (m.setNse k v).nse j = m.nse j :=
  Memory.get16_put16_other _ _ _ _ h (by unfold nseAddr; omega)

/-! ### Elements of different buffers, in the ranges of 10_state.md R66 -/

theorem Memory.pcm_setCode (m : Memory) (j k : Nat) (v : Byte) (h : m.wf = true) (hj : j < 320) :
    (m.setCode k v).pcm j = m.pcm j :=
  Memory.get16_put_other _ _ _ _ h (by unfold codeAddr pcmAddr; omega) (by unfold codeAddr pcmAddr; omega)

theorem Memory.pcm_setNst (m : Memory) (j k : Nat) (v : I16) (h : m.wf = true) (hj : j < 320) :
    (m.setNst k v).pcm j = m.pcm j :=
  Memory.get16_put16_other _ _ _ _ h (by unfold nstAddr pcmAddr; omega)

theorem Memory.pcm_setNse (m : Memory) (j k : Nat) (v : I16) (h : m.wf = true) (hj : j < 320) :
    (m.setNse k v).pcm j = m.pcm j :=
  Memory.get16_put16_other _ _ _ _ h (by unfold nseAddr pcmAddr; omega)

theorem Memory.code_setPcm (m : Memory) (j k : Nat) (v : I16) (h : m.wf = true) (hk : k < 320) :
    (m.setPcm k v).code j = m.code j :=
  Memory.get_put16_other _ _ _ _ h (by unfold codeAddr pcmAddr; omega) (by unfold codeAddr pcmAddr; omega)

theorem Memory.code_setNst (m : Memory) (j k : Nat) (v : I16) (h : m.wf = true) (hj : j < 160) :
    (m.setNst k v).code j = m.code j :=
  Memory.get_put16_other _ _ _ _ h (by unfold codeAddr nstAddr; omega) (by unfold codeAddr nstAddr; omega)

theorem Memory.code_setNse (m : Memory) (j k : Nat) (v : I16) (h : m.wf = true) (hj : j < 160) :
    (m.setNse k v).code j = m.code j :=
  Memory.get_put16_other _ _ _ _ h (by unfold codeAddr nseAddr; omega) (by unfold codeAddr nseAddr; omega)

theorem Memory.nst_setCode (m : Memory) (j k : Nat) (v : Byte) (h : m.wf = true) (hk : k < 160) :
    (m.setCode k v).nst j = m.nst j :=
  Memory.get16_put_other _ _ _ _ h (by unfold codeAddr nstAddr; omega) (by unfold codeAddr nstAddr; omega)

theorem Memory.nst_setNse (m : Memory) (j k : Nat) (v : I16) (h : m.wf = true) (hj : j < 160) :
    (m.setNse k v).nst j = m.nst j :=
  Memory.get16_put16_other _ _ _ _ h (by unfold nseAddr nstAddr; omega)

theorem Memory.nse_setCode (m : Memory) (j k : Nat) (v : Byte) (h : m.wf = true) (hk : k < 160) :
    (m.setCode k v).nse j = m.nse j :=
  Memory.get16_put_other _ _ _ _ h (by unfold codeAddr nseAddr; omega) (by unfold codeAddr nseAddr; omega)

theorem Memory.nse_setNst (m : Memory) (j k : Nat) (v : I16) (h : m.wf = true) (hk : k < 160) :
    (m.setNst k v).nse j = m.nse j :=
  Memory.get16_put16_other _ _ _ _ h (by unfold nseAddr nstAddr; omega)

/-! ### The buffers' extent -/

theorem elementByte_iff (a : Nat) : elementByte a = true ↔
    (0x0800 ≤ a ∧ a < 0x0D00 ∧ a % 4 < 2) ∨ (0x1000 ≤ a ∧ a < 0x1280 ∧ a % 4 = 0)
      ∨ (0x1800 ≤ a ∧ a < 0x1A80 ∧ a % 4 < 2) ∨ (0x2000 ≤ a ∧ a < 0x2280 ∧ a % 4 < 2) := by
  unfold elementByte
  simp only [Bool.or_eq_true, Bool.and_eq_true, decide_eq_true_iff, and_assoc, or_assoc]

/-- A write to a byte of an element keeps every listed byte inside the buffers. -/
theorem Memory.inBuffers_put (m : Memory) (a : Nat) (b : Byte) (ha : elementByte a = true)
    (h : m.inBuffers = true) : (m.put a b).inBuffers = true := by
  unfold Memory.inBuffers at *
  induction m with
  | nil =>
    rw [Memory.put]
    split <;> simp [ha]
  | cons c rest ih =>
    obtain ⟨k, c⟩ := c
    simp only [List.all_cons, Bool.and_eq_true] at h
    unfold Memory.put
    split
    · split <;> simp only [List.all_cons, Bool.and_eq_true]
      · exact h
      · exact ⟨ha, h⟩
    · split
      · split
        · exact h.2
        · simp only [List.all_cons, Bool.and_eq_true]; exact ⟨ha, h.2⟩
      · simp only [List.all_cons, Bool.and_eq_true]; exact ⟨h.1, ih h.2⟩

theorem Memory.inBuffers_setPcm (m : Memory) (k : Nat) (v : I16) (hk : k < 320) (h : m.inBuffers = true) :
    (m.setPcm k v).inBuffers = true := by
  unfold Memory.setPcm Memory.put16
  refine Memory.inBuffers_put _ _ _ ?_ (Memory.inBuffers_put _ _ _ ?_ h) <;>
    · rw [elementByte_iff]; unfold pcmAddr; omega

theorem Memory.inBuffers_setCode (m : Memory) (k : Nat) (v : Byte) (hk : k < 160) (h : m.inBuffers = true) :
    (m.setCode k v).inBuffers = true := by
  refine Memory.inBuffers_put _ _ _ ?_ h
  rw [elementByte_iff]; unfold codeAddr; omega

theorem Memory.inBuffers_setNst (m : Memory) (k : Nat) (v : I16) (hk : k < 160) (h : m.inBuffers = true) :
    (m.setNst k v).inBuffers = true := by
  unfold Memory.setNst Memory.put16
  refine Memory.inBuffers_put _ _ _ ?_ (Memory.inBuffers_put _ _ _ ?_ h) <;>
    · rw [elementByte_iff]; unfold nstAddr; omega

theorem Memory.inBuffers_setNse (m : Memory) (k : Nat) (v : I16) (hk : k < 160) (h : m.inBuffers = true) :
    (m.setNse k v).inBuffers = true := by
  unfold Memory.setNse Memory.put16
  refine Memory.inBuffers_put _ _ _ ?_ (Memory.inBuffers_put _ _ _ ?_ h) <;>
    · rw [elementByte_iff]; unfold nseAddr; omega

end Sys2Proof.Machine
end

