-- ==== Sys2Proof/Laws/Numbers.lean ====
section
/-! SUPPORT. The primitives of 40_saturating_arith.md over the integers: what each result reads as. -/

namespace Sys2Proof.Machine

theorem i16_lo (v : I16) : -32768 ≤ v.toInt := by have := BitVec.le_toInt v; omega

theorem i16_hi (v : I16) : v.toInt ≤ 32767 := by have := BitVec.toInt_lt (x := v); omega

theorem clamp_lo (v lo hi : Int) : lo ≤ clamp v lo hi := by unfold clamp; omega

theorem clamp_hi (v lo hi : Int) (h : lo ≤ hi) : clamp v lo hi ≤ hi := by unfold clamp; omega

theorem clamp_of_mem (v lo hi : Int) (h0 : lo ≤ v) (h1 : v ≤ hi) : clamp v lo hi = v := by unfold clamp; omega

theorem toInt_ofInt16 (v : Int) (h0 : -32768 ≤ v) (h1 : v ≤ 32767) : (BitVec.ofInt 16 v).toInt = v := by
  rw [BitVec.toInt_ofInt, Int.bmod_eq_of_le (by omega) (by omega)]

/-- `sat16` over the integers: 40_saturating_arith.md R180. -/
@[simp] theorem toInt_sat16 (v : Int) : (sat16 v).toInt = clamp v (-32768) 32767 :=
  toInt_ofInt16 _ (clamp_lo ..) (clamp_hi _ _ _ (by omega))

theorem sat16_toInt (x : I16) : sat16 x.toInt = x := by
  apply BitVec.eq_of_toInt_eq
  rw [toInt_sat16, clamp_of_mem _ _ _ (i16_lo x) (i16_hi x)]

theorem toInt_add16 (a b : I16) : (add16 a b).toInt = clamp (a.toInt + b.toInt) (-32768) 32767 := toInt_sat16 _

theorem toInt_sub16 (a b : I16) : (sub16 a b).toInt = clamp (a.toInt - b.toInt) (-32768) 32767 := toInt_sat16 _

theorem toInt_neg16 (a : I16) : (neg16 a).toInt = clamp (-a.toInt) (-32768) 32767 := toInt_sat16 _

theorem toInt_mult (a b : I16) : (mult a b).toInt = clamp (a.toInt * b.toInt / 2 ^ 15) (-32768) 32767 :=
  toInt_sat16 _

theorem toInt_shl16 (a : I16) (n : Nat) : (shl16 a n).toInt = clamp (a.toInt * 2 ^ n) (-32768) 32767 :=
  toInt_sat16 _

/-- The right shift cannot leave i16: 40_saturating_arith.md R181. -/
theorem toInt_shr16 (a : I16) (n : Nat) : (shr16 a n).toInt = a.toInt / 2 ^ n := by
  have hp : (1 : Int) ≤ 2 ^ n := one_le_pow₀ (by norm_num)
  have h0 := i16_lo a
  have h1 := i16_hi a
  refine toInt_ofInt16 _ ?_ ?_
  · refine (Int.le_ediv_iff_mul_le (by omega)).2 ?_
    nlinarith
  · refine Int.le_of_lt_add_one ((Int.ediv_lt_iff_lt_mul (by omega)).2 ?_)
    nlinarith

/-- A 16-bit clamp whose bounds lie in i16. -/
theorem toInt_clamp16 (v : I16) (lo hi : Int) (h0 : -32768 ≤ lo) (h1 : lo ≤ hi) (h2 : hi ≤ 32767) :
    (clamp16 v lo hi).toInt = clamp v.toInt lo hi := by
  unfold clamp16
  rw [toInt_sat16]
  exact clamp_of_mem _ _ _ (h0.trans (clamp_lo ..)) ((clamp_hi _ _ _ h1).trans h2)

theorem toInt_limit (v : I16) : (limit v).toInt = clamp v.toInt (-16384) 16383 :=
  toInt_clamp16 v _ _ (by omega) (by omega) (by omega)

/-- What a sample register reads as: sign-extended (10_state.md R45). -/
theorem toInt_sampleWord (x : I16) : (sampleWord x).toInt = x.toInt := by
  unfold sampleWord
  exact BitVec.toInt_signExtend_of_le (by omega)

theorem sampleOf_sampleWord (x : I16) : sampleOf (sampleWord x) = x := by
  apply BitVec.eq_of_getLsbD_eq
  intro i hi
  simp [sampleOf, sampleWord, BitVec.getElem_signExtend, hi, show i < 32 by omega]

@[simp] theorem codeIl_packCode (ih : BitVec 2) (il : BitVec 6) : codeIl (packCode ih il) = il := by
  revert ih il; decide

@[simp] theorem codeIh_packCode (ih : BitVec 2) (il : BitVec 6) : codeIh (packCode ih il) = ih := by
  revert ih il; decide

end Sys2Proof.Machine
end

