-- ==== Sys2Proof/Laws/State.lean ====
section
/-! SUPPORT. What each update of a state leaves in each part of it: one lemma per part, so that no proof unfolds a
record update. -/

namespace Sys2Proof.Machine

/-! ### The runs inside the frame commands, named -/

/-- The loop of a good frame, run. -/
def State.goodRun (P : Profile) (t : BitVec 6 → I16) (m : LMode) (s : State) : DecRun :=
  forN s.regs.frameLen (decSample P t m) ⟨goodStartDec P s.plc s.dec, goodStartPlc s.plc, s.mem, [], []⟩

/-- The concealment of a lost frame, run. -/
def State.lostConceal (P : Profile) (s : State) : Conceal :=
  conceal P.plc s.regs.frameLen (lostStart P.plc s.dec s.plc)

/-- The synthesis loop of a lost frame, run. -/
def State.lostRun (P : Profile) (s : State) : RxRun :=
  forN s.regs.frameLen (lostSample P (s.lostConceal P).lo (s.lostConceal P).hi) ⟨s.dec.D, s.mem⟩

/-! ### `setSatR` -/

@[simp] theorem State.setSatR_regs (v : I16) (s : State) :
    (s.setSatR v).regs = { s.regs with satR := v } := by
  unfold State.setSatR; rfl

@[simp] theorem State.setSatR_status (v : I16) (s : State) :
    (s.setSatR v).status = s.status := by
  unfold State.setSatR; rfl

@[simp] theorem State.setSatR_enc (v : I16) (s : State) : (s.setSatR v).enc = s.enc := by
  unfold State.setSatR; rfl

@[simp] theorem State.setSatR_dec (v : I16) (s : State) : (s.setSatR v).dec = s.dec := by
  unfold State.setSatR; rfl

@[simp] theorem State.setSatR_plc (v : I16) (s : State) : (s.setSatR v).plc = s.plc := by
  unfold State.setSatR; rfl

@[simp] theorem State.setSatR_mem (v : I16) (s : State) : (s.setSatR v).mem = s.mem := by
  unfold State.setSatR; rfl

@[simp] theorem State.setSatR_bus (v : I16) (s : State) : (s.setSatR v).bus = s.bus := by
  unfold State.setSatR; rfl

/-! ### `raiseError` -/

@[simp] theorem State.raiseError_regs (e : ErrCode) (s : State) :
    (s.raiseError e).regs = s.regs := by
  unfold State.raiseError; rfl

@[simp] theorem State.raiseError_status (e : ErrCode) (s : State) :
    (s.raiseError e).status = recordError e s.status := by
  unfold State.raiseError; rfl

@[simp] theorem State.raiseError_enc (e : ErrCode) (s : State) :
    (s.raiseError e).enc = s.enc := by
  unfold State.raiseError; rfl

@[simp] theorem State.raiseError_dec (e : ErrCode) (s : State) :
    (s.raiseError e).dec = s.dec := by
  unfold State.raiseError; rfl

@[simp] theorem State.raiseError_plc (e : ErrCode) (s : State) :
    (s.raiseError e).plc = s.plc := by
  unfold State.raiseError; rfl

@[simp] theorem State.raiseError_mem (e : ErrCode) (s : State) :
    (s.raiseError e).mem = s.mem := by
  unfold State.raiseError; rfl

@[simp] theorem State.raiseError_bus (e : ErrCode) (s : State) :
    (s.raiseError e).bus = s.bus := by
  unfold State.raiseError; rfl

/-! ### `clearError` -/

@[simp] theorem State.clearError_regs (v : Word) (s : State) :
    (s.clearError v).regs = s.regs := by
  unfold State.clearError; rfl

@[simp] theorem State.clearError_status (v : Word) (s : State) :
    (s.clearError v).status = writeStatus v s.status := by
  unfold State.clearError; rfl

@[simp] theorem State.clearError_enc (v : Word) (s : State) :
    (s.clearError v).enc = s.enc := by
  unfold State.clearError; rfl

@[simp] theorem State.clearError_dec (v : Word) (s : State) :
    (s.clearError v).dec = s.dec := by
  unfold State.clearError; rfl

@[simp] theorem State.clearError_plc (v : Word) (s : State) :
    (s.clearError v).plc = s.plc := by
  unfold State.clearError; rfl

@[simp] theorem State.clearError_mem (v : Word) (s : State) :
    (s.clearError v).mem = s.mem := by
  unfold State.clearError; rfl

@[simp] theorem State.clearError_bus (v : Word) (s : State) :
    (s.clearError v).bus = s.bus := by
  unfold State.clearError; rfl

/-! ### `resetEnc` -/

@[simp] theorem State.resetEnc_regs (s : State) : (s.resetEnc).regs = s.regs := by
  unfold State.resetEnc; rfl

@[simp] theorem State.resetEnc_status (s : State) : (s.resetEnc).status = s.status := by
  unfold State.resetEnc; rfl

@[simp] theorem State.resetEnc_enc (s : State) : (s.resetEnc).enc = Ctx.reset := by
  unfold State.resetEnc; rfl

@[simp] theorem State.resetEnc_dec (s : State) : (s.resetEnc).dec = s.dec := by
  unfold State.resetEnc; rfl

@[simp] theorem State.resetEnc_plc (s : State) : (s.resetEnc).plc = s.plc := by
  unfold State.resetEnc; rfl

@[simp] theorem State.resetEnc_mem (s : State) : (s.resetEnc).mem = s.mem := by
  unfold State.resetEnc; rfl

@[simp] theorem State.resetEnc_bus (s : State) : (s.resetEnc).bus = s.bus := by
  unfold State.resetEnc; rfl

/-! ### `resetDec` -/

@[simp] theorem State.resetDec_regs (s : State) : (s.resetDec).regs = s.regs := by
  unfold State.resetDec; rfl

@[simp] theorem State.resetDec_status (s : State) : (s.resetDec).status = s.status := by
  unfold State.resetDec; rfl

@[simp] theorem State.resetDec_enc (s : State) : (s.resetDec).enc = s.enc := by
  unfold State.resetDec; rfl

@[simp] theorem State.resetDec_dec (s : State) : (s.resetDec).dec = Ctx.reset := by
  unfold State.resetDec; rfl

@[simp] theorem State.resetDec_plc (s : State) : (s.resetDec).plc = s.plc := by
  unfold State.resetDec; rfl

@[simp] theorem State.resetDec_mem (s : State) : (s.resetDec).mem = s.mem := by
  unfold State.resetDec; rfl

@[simp] theorem State.resetDec_bus (s : State) : (s.resetDec).bus = s.bus := by
  unfold State.resetDec; rfl

/-! ### `resetPlc` -/

@[simp] theorem State.resetPlc_regs (P : PlcParams) (s : State) :
    (s.resetPlc P).regs = s.regs := by
  unfold State.resetPlc; rfl

@[simp] theorem State.resetPlc_status (P : PlcParams) (s : State) :
    (s.resetPlc P).status = s.status := by
  unfold State.resetPlc; rfl

@[simp] theorem State.resetPlc_enc (P : PlcParams) (s : State) :
    (s.resetPlc P).enc = s.enc := by
  unfold State.resetPlc; rfl

@[simp] theorem State.resetPlc_dec (P : PlcParams) (s : State) :
    (s.resetPlc P).dec = s.dec := by
  unfold State.resetPlc; rfl

@[simp] theorem State.resetPlc_plc (P : PlcParams) (s : State) :
    (s.resetPlc P).plc = Plc.reset P := by
  unfold State.resetPlc; rfl

@[simp] theorem State.resetPlc_mem (P : PlcParams) (s : State) :
    (s.resetPlc P).mem = s.mem := by
  unfold State.resetPlc; rfl

@[simp] theorem State.resetPlc_bus (P : PlcParams) (s : State) :
    (s.resetPlc P).bus = s.bus := by
  unfold State.resetPlc; rfl

/-! ### `qmfTx` -/

@[simp] theorem State.qmfTx_regs (P : Profile) (s : State) :
    (s.qmfTx P).regs = { s.regs with xl := (qmfTxF P s.enc.D s.regs.x0 s.regs.x1).xl, xh := (qmfTxF P s.enc.D s.regs.x0 s.regs.x1).xh } := by
  unfold State.qmfTx; rfl

@[simp] theorem State.qmfTx_status (P : Profile) (s : State) :
    (s.qmfTx P).status = s.status := by
  unfold State.qmfTx; rfl

@[simp] theorem State.qmfTx_enc (P : Profile) (s : State) :
    (s.qmfTx P).enc = { s.enc with D := (qmfTxF P s.enc.D s.regs.x0 s.regs.x1).D } := by
  unfold State.qmfTx; rfl

@[simp] theorem State.qmfTx_dec (P : Profile) (s : State) : (s.qmfTx P).dec = s.dec := by
  unfold State.qmfTx; rfl

@[simp] theorem State.qmfTx_plc (P : Profile) (s : State) : (s.qmfTx P).plc = s.plc := by
  unfold State.qmfTx; rfl

@[simp] theorem State.qmfTx_mem (P : Profile) (s : State) : (s.qmfTx P).mem = s.mem := by
  unfold State.qmfTx; rfl

@[simp] theorem State.qmfTx_bus (P : Profile) (s : State) : (s.qmfTx P).bus = s.bus := by
  unfold State.qmfTx; rfl

/-! ### `qmfRx` -/

@[simp] theorem State.qmfRx_regs (P : Profile) (s : State) :
    (s.qmfRx P).regs = { s.regs with y0 := (qmfRxF P s.dec.D s.regs.xl s.regs.xh).y0, y1 := (qmfRxF P s.dec.D s.regs.xl s.regs.xh).y1 } := by
  unfold State.qmfRx; rfl

@[simp] theorem State.qmfRx_status (P : Profile) (s : State) :
    (s.qmfRx P).status = s.status := by
  unfold State.qmfRx; rfl

@[simp] theorem State.qmfRx_enc (P : Profile) (s : State) : (s.qmfRx P).enc = s.enc := by
  unfold State.qmfRx; rfl

@[simp] theorem State.qmfRx_dec (P : Profile) (s : State) :
    (s.qmfRx P).dec = { s.dec with D := (qmfRxF P s.dec.D s.regs.xl s.regs.xh).D } := by
  unfold State.qmfRx; rfl

@[simp] theorem State.qmfRx_plc (P : Profile) (s : State) : (s.qmfRx P).plc = s.plc := by
  unfold State.qmfRx; rfl

@[simp] theorem State.qmfRx_mem (P : Profile) (s : State) : (s.qmfRx P).mem = s.mem := by
  unfold State.qmfRx; rfl

@[simp] theorem State.qmfRx_bus (P : Profile) (s : State) : (s.qmfRx P).bus = s.bus := by
  unfold State.qmfRx; rfl

/-! ### `encL` -/

@[simp] theorem State.encL_regs (P : Profile) (t : BitVec 6 → I16) (m : LMode) (s : State) :
    (s.encL P t m).regs = { s.regs with
      il := (encLF P t m s.enc.L s.regs.xl).il
      nsTgt := (encLF P t m s.enc.L s.regs.xl).tgt
      nsErr := (encLF P t m s.enc.L s.regs.xl).err } := by
  unfold State.encL; rfl

@[simp] theorem State.encL_status (P : Profile) (t : BitVec 6 → I16) (m : LMode) (s : State) :
    (s.encL P t m).status = s.status := by
  unfold State.encL; rfl

@[simp] theorem State.encL_enc (P : Profile) (t : BitVec 6 → I16) (m : LMode) (s : State) :
    (s.encL P t m).enc = { s.enc with L := (encLF P t m s.enc.L s.regs.xl).B } := by
  unfold State.encL; rfl

@[simp] theorem State.encL_dec (P : Profile) (t : BitVec 6 → I16) (m : LMode) (s : State) :
    (s.encL P t m).dec = s.dec := by
  unfold State.encL; rfl

@[simp] theorem State.encL_plc (P : Profile) (t : BitVec 6 → I16) (m : LMode) (s : State) :
    (s.encL P t m).plc = s.plc := by
  unfold State.encL; rfl

@[simp] theorem State.encL_mem (P : Profile) (t : BitVec 6 → I16) (m : LMode) (s : State) :
    (s.encL P t m).mem = s.mem := by
  unfold State.encL; rfl

@[simp] theorem State.encL_bus (P : Profile) (t : BitVec 6 → I16) (m : LMode) (s : State) :
    (s.encL P t m).bus = s.bus := by
  unfold State.encL; rfl

/-! ### `encH` -/

@[simp] theorem State.encH_regs (P : Profile) (s : State) :
    (s.encH P).regs = { s.regs with ih := (encHF P s.enc.H s.regs.xh).ih } := by
  unfold State.encH; rfl

@[simp] theorem State.encH_status (P : Profile) (s : State) :
    (s.encH P).status = s.status := by
  unfold State.encH; rfl

@[simp] theorem State.encH_enc (P : Profile) (s : State) :
    (s.encH P).enc = { s.enc with H := (encHF P s.enc.H s.regs.xh).B } := by
  unfold State.encH; rfl

@[simp] theorem State.encH_dec (P : Profile) (s : State) : (s.encH P).dec = s.dec := by
  unfold State.encH; rfl

@[simp] theorem State.encH_plc (P : Profile) (s : State) : (s.encH P).plc = s.plc := by
  unfold State.encH; rfl

@[simp] theorem State.encH_mem (P : Profile) (s : State) : (s.encH P).mem = s.mem := by
  unfold State.encH; rfl

@[simp] theorem State.encH_bus (P : Profile) (s : State) : (s.encH P).bus = s.bus := by
  unfold State.encH; rfl

/-! ### `decL` -/

@[simp] theorem State.decL_regs (P : Profile) (t : BitVec 6 → I16) (m : LMode) (s : State) :
    (s.decL P t m).regs = { s.regs with xl := (decLF P t m s.dec.L s.regs.il).x } := by
  unfold State.decL; rfl

@[simp] theorem State.decL_status (P : Profile) (t : BitVec 6 → I16) (m : LMode) (s : State) :
    (s.decL P t m).status = s.status := by
  unfold State.decL; rfl

@[simp] theorem State.decL_enc (P : Profile) (t : BitVec 6 → I16) (m : LMode) (s : State) :
    (s.decL P t m).enc = s.enc := by
  unfold State.decL; rfl

@[simp] theorem State.decL_dec (P : Profile) (t : BitVec 6 → I16) (m : LMode) (s : State) :
    (s.decL P t m).dec = { s.dec with L := (decLF P t m s.dec.L s.regs.il).B } := by
  unfold State.decL; rfl

@[simp] theorem State.decL_plc (P : Profile) (t : BitVec 6 → I16) (m : LMode) (s : State) :
    (s.decL P t m).plc = s.plc := by
  unfold State.decL; rfl

@[simp] theorem State.decL_mem (P : Profile) (t : BitVec 6 → I16) (m : LMode) (s : State) :
    (s.decL P t m).mem = s.mem := by
  unfold State.decL; rfl

@[simp] theorem State.decL_bus (P : Profile) (t : BitVec 6 → I16) (m : LMode) (s : State) :
    (s.decL P t m).bus = s.bus := by
  unfold State.decL; rfl

/-! ### `decH` -/

@[simp] theorem State.decH_regs (P : Profile) (s : State) :
    (s.decH P).regs = { s.regs with xh := (decHF P s.dec.H s.regs.ih).x } := by
  unfold State.decH; rfl

@[simp] theorem State.decH_status (P : Profile) (s : State) :
    (s.decH P).status = s.status := by
  unfold State.decH; rfl

@[simp] theorem State.decH_enc (P : Profile) (s : State) : (s.decH P).enc = s.enc := by
  unfold State.decH; rfl

@[simp] theorem State.decH_dec (P : Profile) (s : State) :
    (s.decH P).dec = { s.dec with H := (decHF P s.dec.H s.regs.ih).B } := by
  unfold State.decH; rfl

@[simp] theorem State.decH_plc (P : Profile) (s : State) : (s.decH P).plc = s.plc := by
  unfold State.decH; rfl

@[simp] theorem State.decH_mem (P : Profile) (s : State) : (s.decH P).mem = s.mem := by
  unfold State.decH; rfl

@[simp] theorem State.decH_bus (P : Profile) (s : State) : (s.decH P).bus = s.bus := by
  unfold State.decH; rfl

/-! ### `packCode` -/

@[simp] theorem State.packCode_regs (s : State) :
    (s.packCode).regs = { s.regs with code := Sys2Proof.Machine.packCode s.regs.ih s.regs.il } := by
  unfold State.packCode; rfl

@[simp] theorem State.packCode_status (s : State) : (s.packCode).status = s.status := by
  unfold State.packCode; rfl

@[simp] theorem State.packCode_enc (s : State) : (s.packCode).enc = s.enc := by
  unfold State.packCode; rfl

@[simp] theorem State.packCode_dec (s : State) : (s.packCode).dec = s.dec := by
  unfold State.packCode; rfl

@[simp] theorem State.packCode_plc (s : State) : (s.packCode).plc = s.plc := by
  unfold State.packCode; rfl

@[simp] theorem State.packCode_mem (s : State) : (s.packCode).mem = s.mem := by
  unfold State.packCode; rfl

@[simp] theorem State.packCode_bus (s : State) : (s.packCode).bus = s.bus := by
  unfold State.packCode; rfl

/-! ### `unpackCode` -/

@[simp] theorem State.unpackCode_regs (s : State) :
    (s.unpackCode).regs = { s.regs with il := codeIl s.regs.code, ih := codeIh s.regs.code } := by
  unfold State.unpackCode; rfl

@[simp] theorem State.unpackCode_status (s : State) :
    (s.unpackCode).status = s.status := by
  unfold State.unpackCode; rfl

@[simp] theorem State.unpackCode_enc (s : State) : (s.unpackCode).enc = s.enc := by
  unfold State.unpackCode; rfl

@[simp] theorem State.unpackCode_dec (s : State) : (s.unpackCode).dec = s.dec := by
  unfold State.unpackCode; rfl

@[simp] theorem State.unpackCode_plc (s : State) : (s.unpackCode).plc = s.plc := by
  unfold State.unpackCode; rfl

@[simp] theorem State.unpackCode_mem (s : State) : (s.unpackCode).mem = s.mem := by
  unfold State.unpackCode; rfl

@[simp] theorem State.unpackCode_bus (s : State) : (s.unpackCode).bus = s.bus := by
  unfold State.unpackCode; rfl

/-! ### `encFrame` -/

@[simp] theorem State.encFrame_regs (P : Profile) (t : BitVec 6 → I16) (m : LMode) (s : State) :
    (s.encFrame P t m).regs = s.regs := by
  unfold State.encFrame; rfl

@[simp] theorem State.encFrame_status (P : Profile) (t : BitVec 6 → I16) (m : LMode) (s : State) :
    (s.encFrame P t m).status = s.status := by
  unfold State.encFrame; rfl

@[simp] theorem State.encFrame_enc (P : Profile) (t : BitVec 6 → I16) (m : LMode) (s : State) :
    (s.encFrame P t m).enc = (forN s.regs.frameLen (encSample P t m) ⟨s.enc, s.mem⟩).enc := by
  unfold State.encFrame; rfl

@[simp] theorem State.encFrame_dec (P : Profile) (t : BitVec 6 → I16) (m : LMode) (s : State) :
    (s.encFrame P t m).dec = s.dec := by
  unfold State.encFrame; rfl

@[simp] theorem State.encFrame_plc (P : Profile) (t : BitVec 6 → I16) (m : LMode) (s : State) :
    (s.encFrame P t m).plc = s.plc := by
  unfold State.encFrame; rfl

@[simp] theorem State.encFrame_mem (P : Profile) (t : BitVec 6 → I16) (m : LMode) (s : State) :
    (s.encFrame P t m).mem = (forN s.regs.frameLen (encSample P t m) ⟨s.enc, s.mem⟩).mem := by
  unfold State.encFrame; rfl

@[simp] theorem State.encFrame_bus (P : Profile) (t : BitVec 6 → I16) (m : LMode) (s : State) :
    (s.encFrame P t m).bus = s.bus := by
  unfold State.encFrame; rfl

/-! ### `decGood` -/

@[simp] theorem State.decGood_regs (P : Profile) (t : BitVec 6 → I16) (m : LMode) (s : State) :
    (s.decGood P t m).regs = s.regs := by
  unfold State.decGood; rfl

@[simp] theorem State.decGood_status (P : Profile) (t : BitVec 6 → I16) (m : LMode) (s : State) :
    (s.decGood P t m).status = s.status := by
  unfold State.decGood; rfl

@[simp] theorem State.decGood_enc (P : Profile) (t : BitVec 6 → I16) (m : LMode) (s : State) :
    (s.decGood P t m).enc = s.enc := by
  unfold State.decGood; rfl

@[simp] theorem State.decGood_dec (P : Profile) (t : BitVec 6 → I16) (m : LMode) (s : State) :
    (s.decGood P t m).dec = (s.goodRun P t m).dec := by
  unfold State.decGood; rfl

@[simp] theorem State.decGood_plc (P : Profile) (t : BitVec 6 → I16) (m : LMode) (s : State) :
    (s.decGood P t m).plc = endFrame P.plc .none false (s.goodRun P t m).lo (s.goodRun P t m).hi (s.goodRun P t m).plc := by
  unfold State.decGood; rfl

@[simp] theorem State.decGood_mem (P : Profile) (t : BitVec 6 → I16) (m : LMode) (s : State) :
    (s.decGood P t m).mem = (s.goodRun P t m).mem := by
  unfold State.decGood; rfl

@[simp] theorem State.decGood_bus (P : Profile) (t : BitVec 6 → I16) (m : LMode) (s : State) :
    (s.decGood P t m).bus = s.bus := by
  unfold State.decGood; rfl

/-! ### `decLost` -/

@[simp] theorem State.decLost_regs (P : Profile) (s : State) :
    (s.decLost P).regs = s.regs := by
  unfold State.decLost; rfl

@[simp] theorem State.decLost_status (P : Profile) (s : State) :
    (s.decLost P).status = s.status := by
  unfold State.decLost; rfl

@[simp] theorem State.decLost_enc (P : Profile) (s : State) :
    (s.decLost P).enc = s.enc := by
  unfold State.decLost; rfl

@[simp] theorem State.decLost_dec (P : Profile) (s : State) :
    (s.decLost P).dec = { s.dec with D := (s.lostRun P).D } := by
  unfold State.decLost; rfl

@[simp] theorem State.decLost_plc (P : Profile) (s : State) :
    (s.decLost P).plc = endFrame P.plc (if s.plc.prevBfi then .continuingLoss else .firstLoss) true
      (s.lostConceal P).lo (s.lostConceal P).hi (s.lostConceal P).plc := by
  unfold State.decLost; rfl

@[simp] theorem State.decLost_mem (P : Profile) (s : State) :
    (s.decLost P).mem = (s.lostRun P).mem := by
  unfold State.decLost; rfl

@[simp] theorem State.decLost_bus (P : Profile) (s : State) :
    (s.decLost P).bus = s.bus := by
  unfold State.decLost; rfl

/-! ### `answer` -/

@[simp] theorem State.answer_regs (v : Word) (s : State) : (s.answer v).regs = s.regs := by
  unfold State.answer; rfl

@[simp] theorem State.answer_status (v : Word) (s : State) :
    (s.answer v).status = s.status := by
  unfold State.answer; rfl

@[simp] theorem State.answer_enc (v : Word) (s : State) : (s.answer v).enc = s.enc := by
  unfold State.answer; rfl

@[simp] theorem State.answer_dec (v : Word) (s : State) : (s.answer v).dec = s.dec := by
  unfold State.answer; rfl

@[simp] theorem State.answer_plc (v : Word) (s : State) : (s.answer v).plc = s.plc := by
  unfold State.answer; rfl

@[simp] theorem State.answer_mem (v : Word) (s : State) : (s.answer v).mem = s.mem := by
  unfold State.answer; rfl

@[simp] theorem State.answer_bus (v : Word) (s : State) :
    (s.answer v).bus = { s.bus with readData := v } := by
  unfold State.answer; rfl

/-! ### `setInputs` -/

@[simp] theorem State.setInputs_regs (xs : List HostInput) (s : State) :
    (s.setInputs xs).regs = s.regs := by
  unfold State.setInputs; rfl

@[simp] theorem State.setInputs_status (xs : List HostInput) (s : State) :
    (s.setInputs xs).status = s.status := by
  unfold State.setInputs; rfl

@[simp] theorem State.setInputs_enc (xs : List HostInput) (s : State) :
    (s.setInputs xs).enc = s.enc := by
  unfold State.setInputs; rfl

@[simp] theorem State.setInputs_dec (xs : List HostInput) (s : State) :
    (s.setInputs xs).dec = s.dec := by
  unfold State.setInputs; rfl

@[simp] theorem State.setInputs_plc (xs : List HostInput) (s : State) :
    (s.setInputs xs).plc = s.plc := by
  unfold State.setInputs; rfl

@[simp] theorem State.setInputs_mem (xs : List HostInput) (s : State) :
    (s.setInputs xs).mem = s.mem := by
  unfold State.setInputs; rfl

@[simp] theorem State.setInputs_bus (xs : List HostInput) (s : State) :
    (s.setInputs xs).bus = { s.bus with inputs := xs } := by
  unfold State.setInputs; rfl

/-! ### `powerOn` -/

@[simp] theorem State.powerOn_regs (s : State) : (s.powerOn).regs = Regs.reset := by
  unfold State.powerOn; rfl

@[simp] theorem State.powerOn_status (s : State) : (s.powerOn).status = ⟨false, 0⟩ := by
  unfold State.powerOn; rfl

@[simp] theorem State.powerOn_enc (s : State) : (s.powerOn).enc = Ctx.reset := by
  unfold State.powerOn; rfl

@[simp] theorem State.powerOn_dec (s : State) : (s.powerOn).dec = Ctx.reset := by
  unfold State.powerOn; rfl

@[simp] theorem State.powerOn_plc (s : State) :
    (s.powerOn).plc = Plc.reset Config.plc := by
  unfold State.powerOn; rfl

@[simp] theorem State.powerOn_mem (s : State) : (s.powerOn).mem = [] := by
  unfold State.powerOn; rfl

@[simp] theorem State.powerOn_bus (s : State) : (s.powerOn).bus = s.bus := by
  unfold State.powerOn; rfl

/-! ### `withStatus` -/

@[simp] theorem State.withStatus_regs (st : Status) (s : State) :
    (s.withStatus st).regs = s.regs := by
  unfold State.withStatus; rfl

@[simp] theorem State.withStatus_status (st : Status) (s : State) :
    (s.withStatus st).status = st := by
  unfold State.withStatus; rfl

@[simp] theorem State.withStatus_enc (st : Status) (s : State) :
    (s.withStatus st).enc = s.enc := by
  unfold State.withStatus; rfl

@[simp] theorem State.withStatus_dec (st : Status) (s : State) :
    (s.withStatus st).dec = s.dec := by
  unfold State.withStatus; rfl

@[simp] theorem State.withStatus_plc (st : Status) (s : State) :
    (s.withStatus st).plc = s.plc := by
  unfold State.withStatus; rfl

@[simp] theorem State.withStatus_mem (st : Status) (s : State) :
    (s.withStatus st).mem = s.mem := by
  unfold State.withStatus; rfl

@[simp] theorem State.withStatus_bus (st : Status) (s : State) :
    (s.withStatus st).bus = s.bus := by
  unfold State.withStatus; rfl

/-! ### `loadPair` -/

@[simp] theorem State.loadPair_regs (x0 x1 : I16) (s : State) :
    (s.loadPair x0 x1).regs = { s.regs with x0 := x0, x1 := x1 } := by
  unfold State.loadPair; rfl

@[simp] theorem State.loadPair_status (x0 x1 : I16) (s : State) :
    (s.loadPair x0 x1).status = s.status := by
  unfold State.loadPair; rfl

@[simp] theorem State.loadPair_enc (x0 x1 : I16) (s : State) :
    (s.loadPair x0 x1).enc = s.enc := by
  unfold State.loadPair; rfl

@[simp] theorem State.loadPair_dec (x0 x1 : I16) (s : State) :
    (s.loadPair x0 x1).dec = s.dec := by
  unfold State.loadPair; rfl

@[simp] theorem State.loadPair_plc (x0 x1 : I16) (s : State) :
    (s.loadPair x0 x1).plc = s.plc := by
  unfold State.loadPair; rfl

@[simp] theorem State.loadPair_mem (x0 x1 : I16) (s : State) :
    (s.loadPair x0 x1).mem = s.mem := by
  unfold State.loadPair; rfl

@[simp] theorem State.loadPair_bus (x0 x1 : I16) (s : State) :
    (s.loadPair x0 x1).bus = s.bus := by
  unfold State.loadPair; rfl

/-! ### `loadCode` -/

@[simp] theorem State.loadCode_regs (c : Byte) (s : State) :
    (s.loadCode c).regs = { s.regs with code := c } := by
  unfold State.loadCode; rfl

@[simp] theorem State.loadCode_status (c : Byte) (s : State) :
    (s.loadCode c).status = s.status := by
  unfold State.loadCode; rfl

@[simp] theorem State.loadCode_enc (c : Byte) (s : State) :
    (s.loadCode c).enc = s.enc := by
  unfold State.loadCode; rfl

@[simp] theorem State.loadCode_dec (c : Byte) (s : State) :
    (s.loadCode c).dec = s.dec := by
  unfold State.loadCode; rfl

@[simp] theorem State.loadCode_plc (c : Byte) (s : State) :
    (s.loadCode c).plc = s.plc := by
  unfold State.loadCode; rfl

@[simp] theorem State.loadCode_mem (c : Byte) (s : State) :
    (s.loadCode c).mem = s.mem := by
  unfold State.loadCode; rfl

@[simp] theorem State.loadCode_bus (c : Byte) (s : State) :
    (s.loadCode c).bus = s.bus := by
  unfold State.loadCode; rfl

/-! ### `withMem` -/

@[simp] theorem State.withMem_regs (m : Memory) (s : State) :
    (s.withMem m).regs = s.regs := by
  unfold State.withMem; rfl

@[simp] theorem State.withMem_status (m : Memory) (s : State) :
    (s.withMem m).status = s.status := by
  unfold State.withMem; rfl

@[simp] theorem State.withMem_enc (m : Memory) (s : State) :
    (s.withMem m).enc = s.enc := by
  unfold State.withMem; rfl

@[simp] theorem State.withMem_dec (m : Memory) (s : State) :
    (s.withMem m).dec = s.dec := by
  unfold State.withMem; rfl

@[simp] theorem State.withMem_plc (m : Memory) (s : State) :
    (s.withMem m).plc = s.plc := by
  unfold State.withMem; rfl

@[simp] theorem State.withMem_mem (m : Memory) (s : State) : (s.withMem m).mem = m := by
  unfold State.withMem; rfl

@[simp] theorem State.withMem_bus (m : Memory) (s : State) :
    (s.withMem m).bus = s.bus := by
  unfold State.withMem; rfl

end Sys2Proof.Machine
end

