-- ==== Sys2Proof/Laws/Ops.lean ====
section
/-! SUPPORT. What each shared operation can do, said once: the loop, the mode checks, running a command, and serving
an input. -/

namespace Sys2Proof.Machine

/-! ### Loops -/

@[simp] theorem forN_zero {α : Type} (f : Nat → α → α) (a : α) : forN 0 f a = a := rfl

theorem forN_succ {α : Type} (N : Nat) (f : Nat → α → α) (a : α) : forN (N + 1) f a = f N (forN N f a) := rfl

/-- A property that holds before the loop and that turn `n` carries from `n` to `n + 1` holds after it. -/
theorem forN_invariant {α : Type} (p : Nat → α → Prop) (f : Nat → α → α) (a : α) (N : Nat) (h0 : p 0 a)
    (hs : ∀ n b, n < N → p n b → p (n + 1) (f n b)) : p N (forN N f a) := by
  induction N with
  | zero => exact h0
  | succ N ih =>
    exact hs N _ (by omega) (ih fun n b hn hb => hs n b (by omega) hb)

/-- A property that no turn breaks. -/
theorem forN_keeps {α : Type} (p : α → Prop) (f : Nat → α → α) (a : α) (N : Nat) (h0 : p a)
    (hs : ∀ n b, n < N → p b → p (f n b)) : p (forN N f a) :=
  forN_invariant (fun _ => p) f a N h0 hs

/-- A property that the first turn brings about and that no later turn breaks. -/
theorem forN_first {α : Type} (p : α → Prop) (f : Nat → α → α) (a : α) (N : Nat) (hN : 0 < N) (h0 : p (f 0 a))
    (hs : ∀ n b, 0 < n → n < N → p b → p (f n b)) : p (forN N f a) := by
  induction N with
  | zero => omega
  | succ N ih =>
    rcases Nat.eq_zero_or_pos N with h | h
    · subst h; exact h0
    · exact hs N _ h (by omega) (ih h fun n b h0 h1 => hs n b h0 (by omega))

/-- Two loops in step. -/
theorem forN_relate {α β : Type} (r : Nat → α → β → Prop) (f : Nat → α → α) (g : Nat → β → β) (a : α) (b : β)
    (N : Nat) (h0 : r 0 a b) (hs : ∀ n x y, n < N → r n x y → r (n + 1) (f n x) (g n y)) :
    r N (forN N f a) (forN N g b) := by
  induction N with
  | zero => exact h0
  | succ N ih => exact hs N _ _ (by omega) (ih fun n x y hn hr => hs n x y (by omega) hr)

/-! ### Mode checks (43_quantizers.md R270) -/

@[simp] theorem checkModeH_bits2 (s : State) (k : Result) : checkModeH .bits2 s k = k := rfl

@[simp] theorem checkModeH_bits3 (s : State) (k : Result) :
    checkModeH .bits3 s k = .next (s.raiseError .rsvdMode) := rfl

theorem checkModeL_of_some (P : Profile) (m : LMode) (s : State) (k : (BitVec 6 → I16) → Result) (t : BitVec 6 → I16)
    (h : P.invq m = some t) : checkModeL P m s k = k t := by
  unfold checkModeL; rw [h]

theorem checkModeL_of_none (P : Profile) (m : LMode) (s : State) (k : (BitVec 6 → I16) → Result)
    (h : P.invq m = none) : checkModeL P m s k = .next (s.raiseError .rsvdMode) := by
  unfold checkModeL; rw [h]

/-- The mode check either ends the command with the error or lets it run. -/
theorem checkModeL_cases (P : Profile) (m : LMode) (s : State) (k : (BitVec 6 → I16) → Result) :
    (P.invq m = none ∧ checkModeL P m s k = .next (s.raiseError .rsvdMode))
      ∨ ∃ t, P.invq m = some t ∧ checkModeL P m s k = k t := by
  cases h : P.invq m with
  | none => exact .inl ⟨rfl, checkModeL_of_none P m s k h⟩
  | some t => exact .inr ⟨t, rfl, checkModeL_of_some P m s k t h⟩

/-- The reference profile defines the tables of the modes 0 to 2 and no other (00_scope.md R13). -/
theorem profile_invq_bits6 : profile.invq .bits6 = some profile.invq0 := rfl

theorem profile_invq_bits5 : profile.invq .bits5 = some profile.invq1 := rfl

theorem profile_invq_bits4 : profile.invq .bits4 = some profile.invq2 := rfl

theorem profile_invq_bits3 : profile.invq .bits3 = none := rfl

/-! ### Commands: the state each leaves when its modes are legal -/

theorem exec_encL (m : LMode) (s : State) (t : BitVec 6 → I16) (h : profile.invq m = some t) :
    exec (.encL m) s = .next (s.encL profile t m) :=
  checkModeL_of_some profile m s _ t h

theorem exec_encH (s : State) : exec (.encH .bits2) s = .next (s.encH profile) := rfl

theorem exec_decL (m : LMode) (s : State) (t : BitVec 6 → I16) (h : profile.invq m = some t) :
    exec (.decL m) s = .next (s.decL profile t m) :=
  checkModeL_of_some profile m s _ t h

theorem exec_decH (s : State) : exec (.decH .bits2) s = .next (s.decH profile) := rfl

theorem exec_encPair (m : LMode) (s : State) (t : BitVec 6 → I16) (h : profile.invq m = some t) :
    exec (.encPair m .bits2) s = .next ((((s.qmfTx profile).encL profile t m).encH profile).packCode) :=
  checkModeL_of_some profile m s _ t h

theorem exec_decPair (m : LMode) (s : State) (t : BitVec 6 → I16) (h : profile.invq m = some t) :
    exec (.decPair m .bits2) s = .next (((s.unpackCode.decL profile t m).decH profile).qmfRx profile) :=
  checkModeL_of_some profile m s _ t h

theorem exec_encFrame (m : LMode) (s : State) (t : BitVec 6 → I16) (h : profile.invq m = some t) :
    exec (.encFrame m .bits2) s = .next (s.encFrame profile t m) :=
  checkModeL_of_some profile m s _ t h

theorem exec_decFrame_good (m : LMode) (s : State) (t : BitVec 6 → I16) (h : profile.invq m = some t) :
    exec (.decFrame m .bits2 false) s = .next (s.decGood profile t m) :=
  checkModeL_of_some profile m s _ t h

theorem exec_decFrame_lost (m : LMode) (s : State) (t : BitVec 6 → I16) (h : profile.invq m = some t) :
    exec (.decFrame m .bits2 true) s = .next (s.decLost profile) :=
  checkModeL_of_some profile m s _ t h

/-- Everything a command can do: end with a mode error, or leave the state of its own effect. Every claim about all
commands starts here. -/
theorem exec_cases (i : Instr) (s t : State) (h : exec i s = .next t) :
    (i.wellFormed profile = false ∧ t = s.raiseError .rsvdMode)
    ∨ (i = .nop ∧ t = s)
    ∨ (i = .resetEnc ∧ t = s.resetEnc)
    ∨ (i = .resetDec ∧ t = s.resetDec)
    ∨ (i = .plcReset ∧ t = s.resetPlc profile.plc)
    ∨ (i = .resetAll ∧ t = (s.resetEnc.resetDec).resetPlc profile.plc)
    ∨ (i = .qmfTx ∧ t = s.qmfTx profile)
    ∨ (i = .qmfRx ∧ t = s.qmfRx profile)
    ∨ (∃ m q, i = .encL m ∧ profile.invq m = some q ∧ t = s.encL profile q m)
    ∨ (i = .encH .bits2 ∧ t = s.encH profile)
    ∨ (∃ m q, i = .decL m ∧ profile.invq m = some q ∧ t = s.decL profile q m)
    ∨ (i = .decH .bits2 ∧ t = s.decH profile)
    ∨ (∃ m q, i = .encPair m .bits2 ∧ profile.invq m = some q
        ∧ t = (((s.qmfTx profile).encL profile q m).encH profile).packCode)
    ∨ (∃ m q, i = .decPair m .bits2 ∧ profile.invq m = some q
        ∧ t = ((s.unpackCode.decL profile q m).decH profile).qmfRx profile)
    ∨ (∃ m q, i = .encFrame m .bits2 ∧ profile.invq m = some q ∧ t = s.encFrame profile q m)
    ∨ (∃ m q, i = .decFrame m .bits2 false ∧ profile.invq m = some q ∧ t = s.decGood profile q m)
    ∨ (∃ m q, i = .decFrame m .bits2 true ∧ profile.invq m = some q ∧ t = s.decLost profile)
    ∨ (∃ v, (i = .sat ∨ i = .sadd ∨ i = .ssub ∨ i = .smulq15 ∨ i = .sshl ∨ i = .sshr) ∧ t = s.setSatR v) := by
  have inj : ∀ {x y : State}, (Host.Outcome.next x : Result) = .next y → y = x := fun e => (Host.Outcome.next.inj e).symm
  have wf : ∀ {m : LMode}, profile.invq m = none → m.legal profile = false := by
    intro m hm; unfold LMode.legal; rw [hm]; rfl
  cases i with
  | nop => exact .inr (.inl ⟨rfl, inj h⟩)
  | resetEnc => exact .inr (.inr (.inl ⟨rfl, inj h⟩))
  | resetDec => exact .inr (.inr (.inr (.inl ⟨rfl, inj h⟩)))
  | plcReset => exact .inr (.inr (.inr (.inr (.inl ⟨rfl, inj h⟩))))
  | resetAll => exact .inr (.inr (.inr (.inr (.inr (.inl ⟨rfl, inj h⟩)))))
  | qmfTx => exact .inr (.inr (.inr (.inr (.inr (.inr (.inl ⟨rfl, inj h⟩))))))
  | qmfRx => exact .inr (.inr (.inr (.inr (.inr (.inr (.inr (.inl ⟨rfl, inj h⟩)))))))
  | encL m =>
    rcases checkModeL_cases profile m s (fun q => .next (s.encL profile q m)) with ⟨hn, he⟩ | ⟨q, hq, he⟩
    · exact .inl ⟨by simp [Instr.wellFormed, Instr.lmode?, wf hn], inj (he.symm.trans h)⟩
    · exact .inr (.inr (.inr (.inr (.inr (.inr (.inr (.inr (.inl ⟨m, q, rfl, hq, inj (he.symm.trans h)⟩))))))))
  | encH hm =>
    cases hm with
    | bits2 => exact .inr (.inr (.inr (.inr (.inr (.inr (.inr (.inr (.inr (.inl ⟨rfl, inj h⟩)))))))))
    | bits3 => exact .inl ⟨rfl, inj h⟩
  | decL m =>
    rcases checkModeL_cases profile m s (fun q => .next (s.decL profile q m)) with ⟨hn, he⟩ | ⟨q, hq, he⟩
    · exact .inl ⟨by simp [Instr.wellFormed, Instr.lmode?, wf hn], inj (he.symm.trans h)⟩
    · exact .inr (.inr (.inr (.inr (.inr (.inr (.inr (.inr (.inr (.inr (.inl
        ⟨m, q, rfl, hq, inj (he.symm.trans h)⟩))))))))))
  | decH hm =>
    cases hm with
    | bits2 => exact .inr (.inr (.inr (.inr (.inr (.inr (.inr (.inr (.inr (.inr (.inr (.inl ⟨rfl, inj h⟩)))))))))))
    | bits3 => exact .inl ⟨rfl, inj h⟩
  | encPair m hm =>
    rcases checkModeL_cases profile m s (fun q => checkModeH hm s
      (.next ((((s.qmfTx profile).encL profile q m).encH profile).packCode))) with ⟨hn, he⟩ | ⟨q, hq, he⟩
    · exact .inl ⟨by simp [Instr.wellFormed, Instr.lmode?, wf hn], inj (he.symm.trans h)⟩
    · cases hm with
      | bits2 =>
        exact .inr (.inr (.inr (.inr (.inr (.inr (.inr (.inr (.inr (.inr (.inr (.inr (.inl
          ⟨m, q, rfl, hq, inj (he.symm.trans h)⟩))))))))))))
      | bits3 => exact .inl ⟨by simp [Instr.wellFormed, Instr.lmode?, Instr.hmode?, HMode.legal], inj (he.symm.trans h)⟩
  | decPair m hm =>
    rcases checkModeL_cases profile m s (fun q => checkModeH hm s
      (.next (((s.unpackCode.decL profile q m).decH profile).qmfRx profile))) with ⟨hn, he⟩ | ⟨q, hq, he⟩
    · exact .inl ⟨by simp [Instr.wellFormed, Instr.lmode?, wf hn], inj (he.symm.trans h)⟩
    · cases hm with
      | bits2 =>
        exact .inr (.inr (.inr (.inr (.inr (.inr (.inr (.inr (.inr (.inr (.inr (.inr (.inr (.inl
          ⟨m, q, rfl, hq, inj (he.symm.trans h)⟩)))))))))))))
      | bits3 => exact .inl ⟨by simp [Instr.wellFormed, Instr.lmode?, Instr.hmode?, HMode.legal], inj (he.symm.trans h)⟩
  | encFrame m hm =>
    rcases checkModeL_cases profile m s (fun q => checkModeH hm s
      (.next (s.encFrame profile q m))) with ⟨hn, he⟩ | ⟨q, hq, he⟩
    · exact .inl ⟨by simp [Instr.wellFormed, Instr.lmode?, wf hn], inj (he.symm.trans h)⟩
    · cases hm with
      | bits2 =>
        exact .inr (.inr (.inr (.inr (.inr (.inr (.inr (.inr (.inr (.inr (.inr (.inr (.inr (.inr (.inl
          ⟨m, q, rfl, hq, inj (he.symm.trans h)⟩))))))))))))))
      | bits3 => exact .inl ⟨by simp [Instr.wellFormed, Instr.lmode?, Instr.hmode?, HMode.legal], inj (he.symm.trans h)⟩
  | decFrame m hm loss =>
    rcases checkModeL_cases profile m s (fun q => checkModeH hm s
      (.next (if loss then s.decLost profile else s.decGood profile q m))) with ⟨hn, he⟩ | ⟨q, hq, he⟩
    · exact .inl ⟨by simp [Instr.wellFormed, Instr.lmode?, wf hn], inj (he.symm.trans h)⟩
    · cases hm with
      | bits2 =>
        cases loss with
        | false =>
          exact .inr (.inr (.inr (.inr (.inr (.inr (.inr (.inr (.inr (.inr (.inr (.inr (.inr (.inr (.inr (.inl
            ⟨m, q, rfl, hq, inj (he.symm.trans h)⟩)))))))))))))))
        | true =>
          exact .inr (.inr (.inr (.inr (.inr (.inr (.inr (.inr (.inr (.inr (.inr (.inr (.inr (.inr (.inr (.inr (.inl
            ⟨m, q, rfl, hq, inj (he.symm.trans h)⟩))))))))))))))))
      | bits3 => exact .inl ⟨by simp [Instr.wellFormed, Instr.lmode?, Instr.hmode?, HMode.legal], inj (he.symm.trans h)⟩
  | sat =>
    exact .inr (.inr (.inr (.inr (.inr (.inr (.inr (.inr (.inr (.inr (.inr (.inr (.inr (.inr (.inr (.inr (.inr
      ⟨_, by simp, inj h⟩))))))))))))))))
  | sadd =>
    exact .inr (.inr (.inr (.inr (.inr (.inr (.inr (.inr (.inr (.inr (.inr (.inr (.inr (.inr (.inr (.inr (.inr
      ⟨_, by simp, inj h⟩))))))))))))))))
  | ssub =>
    exact .inr (.inr (.inr (.inr (.inr (.inr (.inr (.inr (.inr (.inr (.inr (.inr (.inr (.inr (.inr (.inr (.inr
      ⟨_, by simp, inj h⟩))))))))))))))))
  | smulq15 =>
    exact .inr (.inr (.inr (.inr (.inr (.inr (.inr (.inr (.inr (.inr (.inr (.inr (.inr (.inr (.inr (.inr (.inr
      ⟨_, by simp, inj h⟩))))))))))))))))
  | sshl =>
    exact .inr (.inr (.inr (.inr (.inr (.inr (.inr (.inr (.inr (.inr (.inr (.inr (.inr (.inr (.inr (.inr (.inr
      ⟨_, by simp, inj h⟩))))))))))))))))
  | sshr =>
    exact .inr (.inr (.inr (.inr (.inr (.inr (.inr (.inr (.inr (.inr (.inr (.inr (.inr (.inr (.inr (.inr (.inr
      ⟨_, by simp, inj h⟩))))))))))))))))

/-! ### Serving an input -/

/-- A write to a word other than `CMD` changes the registers, the status or the buffers, and nothing else. -/
theorem writeTarget_keeps (v : Word) (s : State) (w : Target) :
    (writeTarget v s w).enc = s.enc ∧ (writeTarget v s w).dec = s.dec ∧ (writeTarget v s w).plc = s.plc
      ∧ (writeTarget v s w).bus = s.bus := by
  cases w with
  | reg r => cases r <;> exact ⟨rfl, rfl, rfl, rfl⟩
  | _ => exact ⟨rfl, rfl, rfl, rfl⟩

/-- Everything one step can do. -/
theorem step_cases (s t : State) (h : step s = .next t) :
    (s.bus.inputs = [] ∧ t = s)
    ∨ (∃ o w rest, s.bus.inputs = .read o w :: rest ∧ t = hostRead o w (s.setInputs rest))
    ∨ (∃ o w v rest, s.bus.inputs = .write o w v :: rest ∧ accessOk o w = false
        ∧ t = (s.setInputs rest).raiseError .bus)
    ∨ (∃ o w v rest, s.bus.inputs = .write o w v :: rest ∧ accessOk o w = true
        ∧ targetAt o.toNat ≠ .reg .cmd ∧ t = writeTarget v (s.setInputs rest) (targetAt o.toNat))
    ∨ (∃ o w v rest e, s.bus.inputs = .write o w v :: rest ∧ accessOk o w = true
        ∧ targetAt o.toNat = .reg .cmd ∧ decode v = .error e ∧ t = (s.setInputs rest).raiseError (decodeErrCode e))
    ∨ (∃ o w v rest i, s.bus.inputs = .write o w v :: rest ∧ accessOk o w = true
        ∧ targetAt o.toNat = .reg .cmd ∧ decode v = .ok i ∧ exec i (s.setInputs rest) = .next t)
    ∨ (∃ rest, s.bus.inputs = .powerOnReset :: rest ∧ t = (s.setInputs rest).powerOn) := by
  have inj : ∀ {x y : State}, (Host.Outcome.next x : Result) = .next y → y = x := fun e => (Host.Outcome.next.inj e).symm
  unfold step serveNext at h
  split at h
  · exact .inl ⟨‹_›, inj h⟩
  · rename_i x rest hx
    cases x with
    | read o w => exact .inr (.inl ⟨o, w, rest, hx, inj h⟩)
    | powerOnReset => exact .inr (.inr (.inr (.inr (.inr (.inr ⟨rest, hx, inj h⟩)))))
    | write o w v =>
      unfold serve hostWrite at h
      simp only at h
      split at h
      · rename_i hok
        split at h
        · rename_i hc
          unfold runCommand at h
          split at h
          · rename_i i hi
            exact .inr (.inr (.inr (.inr (.inr (.inl ⟨o, w, v, rest, i, hx, hok, hc, hi, h⟩)))))
          · rename_i e he
            exact .inr (.inr (.inr (.inr (.inl ⟨o, w, v, rest, e, hx, hok, hc, he, inj h⟩))))
        · rename_i hc
          exact .inr (.inr (.inr (.inl ⟨o, w, v, rest, hx, hok, hc, inj h⟩)))
      · rename_i hok
        exact .inr (.inr (.inl ⟨o, w, v, rest, hx, by simpa using hok, inj h⟩))

/-- Serving the oldest input. -/
theorem step_of_inputs (s : State) (x : HostInput) (rest : List HostInput) (h : s.bus.inputs = x :: rest) :
    step s = serve x (s.setInputs rest) := by
  unfold step serveNext; rw [h]

end Sys2Proof.Machine
end

