-- ==== Sys2Proof/Laws/Plc.lean ====
section
/-! SUPPORT. The concealment's parts: the lengths of what they make, which fields each writes, and the range of the
pitch lag. -/

namespace Sys2Proof.Machine

/-! ### Lengths -/

theorem length_pushBuf (len : Nat) (buf src : List I16) (h : buf.length = len) : (pushBuf len buf src).length = len := by
  unfold pushBuf; split <;> simp <;> omega

theorem length_dcFrom (dcA xp vp : Rat) (xs : List Rat) : (dcFrom dcA xp vp xs).length = xs.length := by
  induction xs generalizing xp vp with
  | nil => rfl
  | cons x xs ih => simp [dcFrom, ih]

theorem length_levinsonFrom (rr : Nat → Rat) (left i : Nat) (a : List Rat) (E : Rat) (out : List Rat)
    (hi : 1 ≤ i) (ha : a.length = i - 1) (h : levinsonFrom rr left i a E = some out) :
    out.length = i - 1 + left := by
  induction left generalizing i a E with
  | zero => simp only [levinsonFrom, Option.some.injEq] at h; subst h; omega
  | succ left ih =>
    simp only [levinsonFrom] at h
    split at h
    · cases h
    · have := ih (i + 1) _ _ (by omega) (by simp; omega) h
      omega

theorem length_levinson (rr : Nat → Rat) (p : Nat) (out : List Rat) (h : levinson rr p = some out) :
    out.length = p := by
  unfold levinson at h
  split at h
  · cases h
  · simpa using length_levinsonFrom rr p 1 [] _ out (by omega) rfl h

theorem length_residual (P : PlcParams) (u lpc : List Rat) : (residual P u lpc).length = P.excLen := by
  simp [residual]

theorem length_transientLimit (P : PlcParams) (t0 : Nat) (exc : List Rat) :
    (transientLimit P t0 exc).length = exc.length := by
  simp only [transientLimit, lastCycle]; split <;> simp; omega

theorem length_unvoicedExc (P : PlcParams) (c : SigClass) (exc : List Rat) :
    (unvoicedExc P c exc).length = exc.length := by
  unfold unvoicedExc; split <;> simp

theorem length_captureHb (P : PlcParams) (plc : Plc) (hh : plc.histH.length = 160) :
    (captureHb P plc).hbPer.length = 160 := by
  simp only [captureHb]; split <;> simp [hh]

/-! ### The pitch lag (45_plc_analysis.md R341) -/

theorem foldl_betterLag_mem (f : Nat → Rat) (lo hi : Nat) (xs : List Nat) (b : Nat) (hb : lo ≤ b ∧ b ≤ hi)
    (hx : ∀ x ∈ xs, lo ≤ x ∧ x ≤ hi) : lo ≤ xs.foldl (betterLag f) b ∧ xs.foldl (betterLag f) b ≤ hi := by
  induction xs generalizing b with
  | nil => exact hb
  | cons x xs ih =>
    refine ih _ ?_ fun y hy => hx y (by simp [hy])
    have := hx x (by simp)
    unfold betterLag
    split
    · exact this
    · split
      · omega
      · exact hb

theorem mem_lagsFrom (lo hi x : Nat) (h : x ∈ lagsFrom lo hi) : lo ≤ x ∧ x ≤ hi := by
  simp only [lagsFrom, List.mem_map, List.mem_range] at h
  obtain ⟨k, hk, rfl⟩ := h
  omega

theorem mem_refineSet (P : PlcParams) (τ x : Nat) (h : x ∈ refineSet P τ) : P.minPit ≤ x ∧ x ≤ P.maxPit := by
  have := mem_lagsFrom _ _ _ h
  omega

/-- The lag that the search finds, under the machine's parameters. -/
theorem pitchLag_mem (exc : List Rat) :
    Config.plc.minPit ≤ pitchLag Config.plc exc ∧ pitchLag Config.plc exc ≤ Config.plc.maxPit := by
  unfold pitchLag
  refine foldl_betterLag_mem _ _ _ _ _ ?_ ?_
  · have h := Config.tauInRange_mem (Config.pitchSelectRaw
      ((lagsFrom Config.plc.tauMin Config.plc.tauMax).map (normCorr (decimLen Config.plc)
        (whiten Config.plc (decimate Config.plc exc))))).1
    have h1 : Config.plc.tauMin = (Config.plc.minPit + 3) / 4 := rfl
    have h2 : Config.plc.tauMax = Config.plc.maxPit / 4 := rfl
    show _ ≤ 4 * Config.tauInRange _ ∧ 4 * Config.tauInRange _ ≤ _
    omega
  · intro x hx
    rcases List.mem_append.1 hx with hx | hx
    · exact mem_refineSet _ _ _ hx
    · split at hx
      · exact mem_refineSet _ _ _ hx
      · cases hx

/-! ### What the concealment loop writes -/

/-- One turn of the loop leaves every other field of `PLC`. -/
theorem concealSample_keeps (P : PlcParams) (c : Conceal) :
    (concealSample P c).plc.cls = c.plc.cls ∧ (concealSample P c).plc.t0 = c.plc.t0
      ∧ (concealSample P c).plc.lpc = c.plc.lpc ∧ (concealSample P c).plc.hbPer = c.plc.hbPer
      ∧ (concealSample P c).plc.tSyn = c.plc.tSyn ∧ (concealSample P c).plc.histL = c.plc.histL
      ∧ (concealSample P c).plc.histH = c.plc.histH ∧ (concealSample P c).plc.prevBfi = c.plc.prevBfi
      ∧ (concealSample P c).plc.episode = c.plc.episode ∧ (concealSample P c).plc.xfActive = c.plc.xfActive
      ∧ (concealSample P c).plc.xfPos = c.plc.xfPos ∧ (concealSample P c).plc.xfBuf = c.plc.xfBuf := by
  unfold concealSample Plc.withSyn
  exact ⟨rfl, rfl, rfl, rfl, rfl, rfl, rfl, rfl, rfl, rfl, rfl, rfl⟩

/-- One turn makes one sample of each band and counts it. -/
theorem concealSample_counts (P : PlcParams) (c : Conceal) :
    (concealSample P c).plc.cntL = c.plc.cntL + 1 ∧ (concealSample P c).plc.cntH = c.plc.cntH + 1
      ∧ (concealSample P c).lo.length = c.lo.length + 1 ∧ (concealSample P c).hi.length = c.hi.length + 1 := by
  unfold concealSample
  exact ⟨rfl, rfl, by simp, by simp⟩

end Sys2Proof.Machine
end

