-- ==== Sys2Proof/Machine/Acceptance.lean ====
section
/-! DEFINITION. The acceptance properties of the source's section 8, as properties that a profile is checked against,
each with its unstated bound as a parameter: 46_plc_synthesis.md R399, 45_plc_analysis.md R354, 92_eei_decisions.md D62,
93_implementation_defined.md section 1.3. They do not follow from the rules for every parameter value; what does follow
stands in Laws/Acceptance.lean. -/

namespace Sys2Proof.Machine

/-! ### Frames on a state -/

/-- The first `N` elements of `CODEBUF` written. -/
def State.loadCodes (N : Nat) (codes : Nat → Byte) (s : State) : State :=
  { s with mem := forN N (fun n m => m.setCode n (codes n)) s.mem }

/-- The first `2N` elements of `PCMBUF` written. -/
def State.loadPcm (N : Nat) (pcm : Nat → I16) (s : State) : State :=
  { s with mem := forN (2 * N) (fun k m => m.setPcm k (pcm k)) s.mem }

/-- `DEC_FRAME` after its checks, good or lost (44_codec_commands.md R300). -/
def State.decFrame (P : Profile) (t : BitVec 6 → I16) (m : LMode) (loss : Bool) (s : State) : State :=
  if loss then s.decLost P else s.decGood P t m

/-! ### A trial: a signal encoded, and decoded with a stretch of frames lost -/

/-- What the properties of 46_plc_synthesis.md R399 are about: "feeding a real signal, then marking frames N..N+k as
lost, then resuming real frames". -/
structure Trial where
  /-- `FRAMELEN` of both sides -/
  frameLen : Nat
  mode : LMode
  /-- `INVQ_L[mode]` -/
  table : BitVec 6 → I16
  /-- the PCM samples fed to the encoder -/
  signal : Nat → I16
  /-- the first lost frame -/
  first : Nat
  /-- how many frames are lost from there -/
  count : Nat

/-- Whether a frame is lost. -/
def Trial.lost (T : Trial) (i : Nat) : Bool := decide (T.first ≤ i) && decide (i < T.first + T.count)

/-- The first frame after the loss. -/
def Trial.resume (T : Trial) : Nat := T.first + T.count

/-- The state that both sides start from: reset, with the frame length set (70_reset_and_hazards.md R473). -/
def Trial.start (P : Profile) (T : Trial) : State :=
  { State.reset with plc := Plc.reset P.plc, regs := { Regs.reset with frameLen := T.frameLen } }

/-- The encoder after `i` frames. -/
def Trial.encAt (P : Profile) (T : Trial) : Nat → State
  | 0 => T.start P
  | i + 1 =>
    ((Trial.encAt P T i).loadPcm T.frameLen fun k => T.signal (2 * T.frameLen * i + k)).encFrame P T.table T.mode

/-- Codeword `n` of frame `i`. -/
def Trial.codeOf (P : Profile) (T : Trial) (i n : Nat) : Byte := (T.encAt P (i + 1)).mem.code n

/-- The decoder after `i` frames: with the losses, or, as the reference, without. -/
def Trial.decAt (P : Profile) (T : Trial) (lossy : Bool) : Nat → State
  | 0 => T.start P
  | i + 1 =>
    ((Trial.decAt P T lossy i).loadCodes T.frameLen (T.codeOf P i)).decFrame P T.table T.mode (lossy && T.lost i)

/-- PCM sample `k` of frame `i`. -/
def Trial.out (P : Profile) (T : Trial) (lossy : Bool) (i k : Nat) : I16 := (T.decAt P lossy (i + 1)).mem.pcm k

/-! ### Continuity and re-convergence (46_plc_synthesis.md R399, its first property) -/

/-- The step from the last PCM sample before frame `i` to its first, in the decoding with losses. -/
def Trial.jump (P : Profile) (T : Trial) (i : Nat) : Int :=
  |(T.out P true i 0).toInt - (T.out P true (i - 1) (2 * T.frameLen - 1)).toInt|

/-- (a): no single-sample discontinuity above `δ` at the loss boundary or at the recovery boundary. A boundary with no
frame before it is none. -/
def Trial.ContinuousWithin (P : Profile) (T : Trial) (δ : Int) : Prop :=
  ∀ i : Nat, (i = T.first ∨ i = T.resume) → 0 < i → T.jump P i ≤ δ

/-- (b): from `K` frames after the loss on, the output is that of the decoding without loss, bit for bit. -/
def Trial.ReconvergesWithin (P : Profile) (T : Trial) (K : Nat) : Prop :=
  ∀ i k : Nat, T.resume + K ≤ i → k < 2 * T.frameLen → T.out P true i k = T.out P false i k

/-! ### Energy (46_plc_synthesis.md R399, its second property; 92_eei_decisions.md D62) -/

/-- The energy of a frame: `Σ PCMBUF[k]²` over its 2N samples (D62). -/
def Trial.energy (P : Profile) (T : Trial) (lossy : Bool) (i : Nat) : Rat :=
  sumFrom 0 (2 * T.frameLen) fun k => ratOf (T.out P lossy i k) * ratOf (T.out P lossy i k)

/-- An energy within the ratio `r` of the mean of its two neighbours; `r` is 1/5 for the source's "within 20%" (D62). -/
def energyWithin (r before lost after : Rat) : Prop :=
  (1 - r) * ((before + after) / 2) ≤ lost ∧ lost ≤ (1 + r) * ((before + after) / 2)

/-- The energy of the one lost frame is within the ratio `r` of the mean of the frames just before and just after. -/
def Trial.EnergyKeptWithin (P : Profile) (T : Trial) (r : Rat) : Prop :=
  T.count = 1 → 0 < T.first →
    energyWithin r (T.energy P true (T.first - 1)) (T.energy P true T.first) (T.energy P true (T.first + 1))

/-! ### No loss (90_conflicts.md C6, 93_implementation_defined.md section 1.3) -/

/-- Without loss, from frame 2 on, the output is the input delayed by `delay` samples, within `b`. -/
def Trial.TracksWithin (P : Profile) (T : Trial) (delay : Nat) (b : Int) : Prop :=
  ∀ i k : Nat, 2 ≤ i → k < 2 * T.frameLen → delay ≤ 2 * T.frameLen * i + k →
    |(T.out P false i k).toInt - (T.signal (2 * T.frameLen * i + k - delay)).toInt| ≤ b

/-! ### Classification (45_plc_analysis.md R354) -/

/-- A buffered low-band history of a steady tone is classified as voiced, with a lag within `tol` samples of its period.
The source's case is a period of 40 samples, 200 Hz at the sub-band rate, and a tolerance of 2. -/
def ToneIsVoiced (P : PlcParams) (nbL nbH : I16) (plc : Plc) (period tol : Nat) : Prop :=
  let a := analyse P nbL nbH plc
  a.cls = .voiced ∧ period ≤ a.t0 + tol ∧ a.t0 ≤ period + tol

/-- A buffered low-band history of noise is classified as unvoiced. -/
def NoiseIsUnvoiced (P : PlcParams) (nbL nbH : I16) (plc : Plc) : Prop := (analyse P nbL nbH plc).cls = .unvoiced

end Sys2Proof.Machine
end

