-- ==== Sys2Proof/Laws/Acceptance.lean ====
section
/-! SUPPORT. The acceptance properties of 46_plc_synthesis.md R399 as theorems with the bound as a parameter, and those
of 45_plc_analysis.md R354. "They are not consequences of the rules for every parameter value" (R399), so each theorem
carries what it rests on as a hypothesis. -/

namespace Sys2Proof.Machine

/-! ### Frames are what the command runs -/

theorem exec_decFrame (m : LMode) (loss : Bool) (s : State) (t : BitVec 6 → I16) (h : profile.invq m = some t) :
    exec (.decFrame m .bits2 loss) s = .next (s.decFrame profile t m loss) := by
  cases loss
  · exact exec_decFrame_good m s t h
  · exact exec_decFrame_lost m s t h

/-! ### Loading the codewords -/

@[simp] theorem State.loadCodes_regs (N : Nat) (c : Nat → Byte) (s : State) : (s.loadCodes N c).regs = s.regs := by
  unfold State.loadCodes; rfl

@[simp] theorem State.loadCodes_dec (N : Nat) (c : Nat → Byte) (s : State) : (s.loadCodes N c).dec = s.dec := by
  unfold State.loadCodes; rfl

@[simp] theorem State.loadCodes_plc (N : Nat) (c : Nat → Byte) (s : State) : (s.loadCodes N c).plc = s.plc := by
  unfold State.loadCodes; rfl

/-- Loading writes the codewords, keeps the canonical form, and leaves the PCM. -/
theorem State.loadCodes_mem (N : Nat) (c : Nat → Byte) (s : State) (hw : s.mem.wf = true) :
    (s.loadCodes N c).mem.wf = true ∧ (∀ n < N, (s.loadCodes N c).mem.code n = c n)
      ∧ ∀ k < 320, (s.loadCodes N c).mem.pcm k = s.mem.pcm k := by
  unfold State.loadCodes
  refine forN_invariant
    (fun i m => Memory.wf m = true ∧ (∀ n < i, Memory.code m n = c n) ∧ ∀ k < 320, m.pcm k = s.mem.pcm k)
    _ _ N ⟨hw, by omega, fun _ _ => rfl⟩ ?_
  rintro i m - ⟨hm, hc, hp⟩
  refine ⟨Memory.wf_setCode _ _ _ hm, fun n hn => ?_, fun k hk => ?_⟩
  · by_cases h : n = i
    · subst h; exact Memory.code_setCode_same _ _ _ hm
    · rw [Memory.code_setCode_other _ _ _ _ hm h]; exact hc n (by omega)
  · rw [Memory.pcm_setCode _ _ _ _ hm hk]; exact hp k hk

/-! ### One turn of each loop -/

theorem wf_decSample (P : Profile) (t : BitVec 6 → I16) (m : LMode) (n : Nat) (r : DecRun) (h : r.mem.wf = true) :
    (decSample P t m n r).mem.wf = true :=
  Memory.wf_setPcm _ _ _ (Memory.wf_setPcm _ _ _ h)

theorem wf_lostSample (P : Profile) (lo hi : List I16) (n : Nat) (r : RxRun) (h : r.mem.wf = true) :
    (lostSample P lo hi n r).mem.wf = true :=
  Memory.wf_setPcm _ _ _ (Memory.wf_setPcm _ _ _ h)

/-- The PCM after a turn: the two samples of its pair, and every other as before. -/
theorem pcm_setPair (m : Memory) (n k : Nat) (y0 y1 : I16) (h : m.wf = true) :
    ((m.setPcm (2 * n) y0).setPcm (2 * n + 1) y1).pcm k =
      if k = 2 * n + 1 then y1 else if k = 2 * n then y0 else m.pcm k := by
  have h1 := Memory.wf_setPcm m (2 * n) y0 h
  split
  · subst_vars; exact Memory.pcm_setPcm_same _ _ _ h1
  · rename_i hk
    rw [Memory.pcm_setPcm_other _ _ _ _ h1 hk]
    split
    · subst_vars; exact Memory.pcm_setPcm_same _ _ _ h
    · exact Memory.pcm_setPcm_other _ _ _ _ h ‹_›

theorem code_setPair (m : Memory) (n k : Nat) (y0 y1 : I16) (h : m.wf = true) (hn : n < 160) :
    ((m.setPcm (2 * n) y0).setPcm (2 * n + 1) y1).code k = m.code k := by
  rw [Memory.code_setPcm _ _ _ _ (Memory.wf_setPcm _ _ _ h) (by omega), Memory.code_setPcm _ _ _ _ h (by omega)]

/-- A turn outside a crossfade: the decoder's own sample, and `PLC` untouched. -/
theorem decSample_plain (P : Profile) (t : BitVec 6 → I16) (m : LMode) (n : Nat) (r : DecRun)
    (h : r.plc.xfActive = false) : (decSample P t m n r).plc = r.plc := by
  simp [decSample, h]

/-- The crossfade of a turn: off, or one place on. -/
theorem decSample_xf (P : Profile) (t : BitVec 6 → I16) (m : LMode) (n p : Nat) (r : DecRun)
    (h : r.plc.xfActive = false ∨ r.plc.xfPos = p ∧ p < 80) :
    (decSample P t m n r).plc.xfActive = false
      ∨ (decSample P t m n r).plc.xfPos = p + 1 ∧ p + 1 < 80 := by
  by_cases hx : r.plc.xfActive = false
  · rw [decSample_plain P t m n r hx]; exact .inl hx
  · have hx' : r.plc.xfActive = true := by simpa using hx
    obtain ⟨hp, hl⟩ := h.resolve_left hx
    simp only [decSample, hx', if_true, xfAdvance, hp, xfLen]
    by_cases h80 : p + 1 = 80
    · exact .inl (by simp [h80])
    · exact .inr ⟨trivial, by omega⟩

/-! ### A good frame -/

@[simp] theorem endFrame_prevBfi (P : PlcParams) (ep : Episode) (b : Bool) (lo hi : List I16) (plc : Plc) :
    (endFrame P ep b lo hi plc).prevBfi = b := by unfold endFrame; rfl

@[simp] theorem endFrame_xfActive (P : PlcParams) (ep : Episode) (b : Bool) (lo hi : List I16) (plc : Plc) :
    (endFrame P ep b lo hi plc).xfActive = plc.xfActive := by unfold endFrame pushHistory; rfl

@[simp] theorem endFrame_xfPos (P : PlcParams) (ep : Episode) (b : Bool) (lo hi : List I16) (plc : Plc) :
    (endFrame P ep b lo hi plc).xfPos = plc.xfPos := by unfold endFrame pushHistory; rfl

@[simp] theorem endFrame_xfBuf (P : PlcParams) (ep : Episode) (b : Bool) (lo hi : List I16) (plc : Plc) :
    (endFrame P ep b lo hi plc).xfBuf = plc.xfBuf := by unfold endFrame pushHistory; rfl

@[simp] theorem endFrame_cls (P : PlcParams) (ep : Episode) (b : Bool) (lo hi : List I16) (plc : Plc) :
    (endFrame P ep b lo hi plc).cls = plc.cls := by unfold endFrame pushHistory; rfl

@[simp] theorem endFrame_cntL (P : PlcParams) (ep : Episode) (b : Bool) (lo hi : List I16) (plc : Plc) :
    (endFrame P ep b lo hi plc).cntL = plc.cntL := by unfold endFrame pushHistory; rfl

@[simp] theorem endFrame_lpc (P : PlcParams) (ep : Episode) (b : Bool) (lo hi : List I16) (plc : Plc) :
    (endFrame P ep b lo hi plc).lpc = plc.lpc := by unfold endFrame pushHistory; rfl

@[simp] theorem endFrame_syn (P : PlcParams) (ep : Episode) (b : Bool) (lo hi : List I16) (plc : Plc) :
    (endFrame P ep b lo hi plc).syn = plc.syn := by unfold endFrame pushHistory Plc.syn; rfl

theorem State.decGood_wf (P : Profile) (t : BitVec 6 → I16) (m : LMode) (s : State) (h : s.mem.wf = true) :
    (s.decGood P t m).mem.wf = true := by
  rw [State.decGood_mem]
  exact forN_keeps (fun r : DecRun => r.mem.wf = true) _ _ _ h fun n b _ hb => wf_decSample P t m n b hb

theorem State.decLost_wf (P : Profile) (s : State) (h : s.mem.wf = true) : (s.decLost P).mem.wf = true := by
  rw [State.decLost_mem]
  exact forN_keeps (fun r : RxRun => r.mem.wf = true) _ _ _ h fun n b _ hb => wf_lostSample P _ _ n b hb

/-- The crossfade after a good frame: off, or a frame further on, from 0 where the frame before was lost. -/
theorem State.decGood_xf (P : Profile) (t : BitVec 6 → I16) (m : LMode) (s : State) (p : Nat)
    (h1 : s.plc.prevBfi = true → p = 0)
    (h0 : s.plc.prevBfi = false → s.plc.xfActive = false ∨ s.plc.xfPos = p ∧ p < 80) :
    (s.decGood P t m).plc.xfActive = false
      ∨ (s.decGood P t m).plc.xfPos = p + s.regs.frameLen ∧ p + s.regs.frameLen < 80 := by
  simp only [State.decGood_plc, endFrame_xfActive, endFrame_xfPos]
  refine forN_invariant (fun n (r : DecRun) => r.plc.xfActive = false ∨ r.plc.xfPos = p + n ∧ p + n < 80)
    _ _ _ ?_ ?_
  · unfold goodStartPlc reconvPlc
    cases hb : s.plc.prevBfi with
    | true => exact .inr ⟨(h1 hb).symm, by have := h1 hb; omega⟩
    | false => exact h0 hb
  · intro n r _ hr
    exact decSample_xf P t m n (p + n) r hr

/-- A good frame outside an episode and outside a crossfade leaves both as they are. -/
theorem State.decGood_clean (P : Profile) (t : BitVec 6 → I16) (m : LMode) (s : State)
    (h1 : s.plc.prevBfi = false) (h0 : s.plc.xfActive = false) :
    (s.decGood P t m).plc.prevBfi = false ∧ (s.decGood P t m).plc.xfActive = false := by
  simp only [State.decGood_plc, endFrame_xfActive, endFrame_prevBfi]
  refine ⟨trivial, forN_keeps (fun r : DecRun => r.plc.xfActive = false) _ _ _ ?_ ?_⟩
  · simpa [goodStartPlc, h1] using h0
  · intro n r _ hr
    rw [decSample_plain P t m n r hr]; exact hr

/-- Two decoders with the same context and the same codewords, both outside an episode and a crossfade, give the same
PCM and the same context, whatever else `PLC` and the buffers hold (44_codec_commands.md R300). -/
theorem State.decGood_agree (P : Profile) (t : BitVec 6 → I16) (m : LMode) (s u : State) (hd : s.dec = u.dec)
    (hN : s.regs.frameLen = u.regs.frameLen) (hl : s.regs.frameLen ≤ 160)
    (hs : s.mem.wf = true) (hu : u.mem.wf = true)
    (hs1 : s.plc.prevBfi = false) (hs0 : s.plc.xfActive = false)
    (hu1 : u.plc.prevBfi = false) (hu0 : u.plc.xfActive = false)
    (hc : ∀ n < s.regs.frameLen, s.mem.code n = u.mem.code n) :
    (s.decGood P t m).dec = (u.decGood P t m).dec
      ∧ ∀ k < 2 * s.regs.frameLen, (s.decGood P t m).mem.pcm k = (u.decGood P t m).mem.pcm k := by
  simp only [State.decGood_dec, State.decGood_mem]
  unfold State.goodRun
  rw [← hN]
  generalize hM : s.regs.frameLen = N at *
  have H : ∀ (N' : Nat), N' ≤ N → _ := fun N' hN' => forN_relate
    (fun n (x y : DecRun) => x.dec = y.dec ∧ x.plc.xfActive = false ∧ y.plc.xfActive = false
      ∧ x.mem.wf = true ∧ y.mem.wf = true ∧ (∀ j < N, x.mem.code j = y.mem.code j)
      ∧ ∀ k < 2 * n, x.mem.pcm k = y.mem.pcm k)
    (decSample P t m) (decSample P t m) ⟨goodStartDec P s.plc s.dec, goodStartPlc s.plc, s.mem, [], []⟩
    ⟨goodStartDec P u.plc u.dec, goodStartPlc u.plc, u.mem, [], []⟩ N'
    ⟨by simpa [goodStartDec, hs1, hu1] using hd, by simpa [goodStartPlc, hs1] using hs0,
      by simpa [goodStartPlc, hu1] using hu0, hs, hu, hc, by omega⟩ (by
    rintro n x y hn ⟨e, ax, ay, wx, wy, cs, ps⟩
    refine ⟨?_, by rw [decSample_plain P t m n x ax]; exact ax, by rw [decSample_plain P t m n y ay]; exact ay,
      wf_decSample P t m n x wx, wf_decSample P t m n y wy, fun j hj => ?_, fun k hk => ?_⟩
    · simp [decSample, ax, ay, e, cs n (by omega)]
    · simp only [decSample]
      rw [code_setPair _ _ _ _ _ wx (by omega), code_setPair _ _ _ _ _ wy (by omega), cs j hj]
    · simp only [decSample]
      rw [pcm_setPair _ _ _ _ _ wx, pcm_setPair _ _ _ _ _ wy]
      simp only [ax, ay, e, cs n (by omega), Bool.false_eq_true, if_false]
      split
      · rfl
      · split
        · rfl
        · exact ps k (by omega))
  obtain ⟨e, -, -, -, -, -, ps⟩ := H N le_rfl
  exact ⟨e, ps⟩

/-! ### Both decodings of a trial, frame by frame -/

theorem Trial.decAt_succ (P : Profile) (T : Trial) (lossy : Bool) (i : Nat) :
    T.decAt P lossy (i + 1) =
      ((T.decAt P lossy i).loadCodes T.frameLen (T.codeOf P i)).decFrame P T.table T.mode (lossy && T.lost i) := rfl

theorem Trial.decAt_good (P : Profile) (T : Trial) (lossy : Bool) (i : Nat) (h : (lossy && T.lost i) = false) :
    T.decAt P lossy (i + 1) =
      ((T.decAt P lossy i).loadCodes T.frameLen (T.codeOf P i)).decGood P T.table T.mode := by
  rw [Trial.decAt_succ, h]; rfl

theorem Trial.decAt_lost (P : Profile) (T : Trial) (i : Nat) (h : T.lost i = true) :
    T.decAt P true (i + 1) = ((T.decAt P true i).loadCodes T.frameLen (T.codeOf P i)).decLost P := by
  rw [Trial.decAt_succ, h]; rfl

theorem Trial.lost_iff (T : Trial) (i : Nat) : T.lost i = true ↔ T.first ≤ i ∧ i < T.resume := by
  simp [Trial.lost, Trial.resume]

theorem Trial.lost_before (T : Trial) (i : Nat) (h : i < T.first) : T.lost i = false := by
  simp [Trial.lost]; omega

theorem Trial.lost_after (T : Trial) (i : Nat) (h : T.resume ≤ i) : T.lost i = false := by
  simp [Trial.lost, Trial.resume] at *; omega

/-- Every frame keeps the frame length and the canonical form of the buffers. -/
theorem Trial.decAt_form (P : Profile) (T : Trial) (lossy : Bool) (i : Nat) :
    (T.decAt P lossy i).regs.frameLen = T.frameLen ∧ (T.decAt P lossy i).mem.wf = true := by
  induction i with
  | zero => exact ⟨rfl, rfl⟩
  | succ i ih =>
    have hw := (State.loadCodes_mem T.frameLen (T.codeOf P i) _ ih.2).1
    rw [Trial.decAt_succ]
    unfold State.decFrame
    split
    · exact ⟨by simpa using ih.1, State.decLost_wf _ _ hw⟩
    · exact ⟨by simpa using ih.1, State.decGood_wf _ _ _ _ hw⟩

/-- Up to the loss, and throughout the reference, the decoder is outside an episode and outside a crossfade. -/
theorem Trial.decAt_clean (P : Profile) (T : Trial) (lossy : Bool) (i : Nat)
    (h : ∀ j < i, (lossy && T.lost j) = false) :
    (T.decAt P lossy i).plc.prevBfi = false ∧ (T.decAt P lossy i).plc.xfActive = false := by
  induction i with
  | zero => exact ⟨rfl, rfl⟩
  | succ i ih =>
    have := ih fun j hj => h j (by omega)
    rw [Trial.decAt_good P T lossy i (h i (by omega))]
    exact State.decGood_clean _ _ _ _ (by simpa using this.1) (by simpa using this.2)

/-- After a lost frame the decoder is inside an episode. -/
theorem Trial.decAt_prevBfi (P : Profile) (T : Trial) (i : Nat) (h : T.lost i = true) :
    (T.decAt P true (i + 1)).plc.prevBfi = true := by
  rw [Trial.decAt_lost P T i h]; simp

/-- After the loss the crossfade runs on, a frame at a time, and ends with its 80th sample (46_plc_synthesis.md
R389). -/
theorem Trial.decAt_recovers (P : Profile) (T : Trial) (j : Nat) :
    (T.decAt P true (T.resume + j + 1)).plc.prevBfi = false
      ∧ ((T.decAt P true (T.resume + j + 1)).plc.xfActive = false
        ∨ (T.decAt P true (T.resume + j + 1)).plc.xfPos = (j + 1) * T.frameLen ∧ (j + 1) * T.frameLen < 80) := by
  have hg : ∀ j, (true && T.lost (T.resume + j)) = false := fun j => by
    rw [Trial.lost_after T _ (by omega)]; rfl
  have step : ∀ j p, ((T.decAt P true (T.resume + j)).plc.prevBfi = true → p = 0) →
      ((T.decAt P true (T.resume + j)).plc.prevBfi = false →
        (T.decAt P true (T.resume + j)).plc.xfActive = false
          ∨ (T.decAt P true (T.resume + j)).plc.xfPos = p ∧ p < 80) →
      (T.decAt P true (T.resume + j + 1)).plc.prevBfi = false
        ∧ ((T.decAt P true (T.resume + j + 1)).plc.xfActive = false
          ∨ (T.decAt P true (T.resume + j + 1)).plc.xfPos = p + T.frameLen ∧ p + T.frameLen < 80) := by
    intro j p h1 h0
    rw [Trial.decAt_good P T true _ (hg j)]
    refine ⟨by simp, ?_⟩
    have := State.decGood_xf P T.table T.mode
      ((T.decAt P true (T.resume + j)).loadCodes T.frameLen (T.codeOf P (T.resume + j))) p
      (by simpa using h1) (by simpa using h0)
    simpa [(Trial.decAt_form P T true _).1] using this
  induction j with
  | zero =>
    have h := step 0 0 (fun _ => rfl) (fun hb => ?_)
    · simpa using h
    · rcases Nat.eq_zero_or_pos T.count with hc | hc
      · refine .inl (Trial.decAt_clean P T true _ fun j hj => ?_).2
        rw [Trial.lost_before T j (by unfold Trial.resume at hj; omega)]; rfl
      · have := Trial.decAt_prevBfi P T (T.resume - 1)
          ((Trial.lost_iff T _).2 ⟨by unfold Trial.resume; omega, by unfold Trial.resume; omega⟩)
        rw [show T.resume - 1 + 1 = T.resume by unfold Trial.resume; omega] at this
        simp [this] at hb
  | succ j ih =>
    have h := step (j + 1) ((j + 1) * T.frameLen) (fun hb => ?_) (fun _ => ih.2)
    · rw [show (j + 1 + 1) * T.frameLen = (j + 1) * T.frameLen + T.frameLen by ring]; exact h
    · rw [show T.resume + (j + 1) = T.resume + j + 1 by omega] at hb
      simp [ih.1] at hb

/-! ### Re-convergence: 46_plc_synthesis.md R399 (b) -/

/-- A bound that holds, a larger one holds. -/
theorem Trial.reconvergesWithin_mono (P : Profile) (T : Trial) (K K' : Nat) (h : T.ReconvergesWithin P K)
    (hK : K ≤ K') : T.ReconvergesWithin P K' := fun i k hi => h i k (by omega)

/-- Once the crossfade is over, the decoder contexts alone decide: if they are equal after `K` frames, every later
frame is the reference's, bit for bit, and they stay equal. -/
theorem Trial.reconverges_of_contexts (P : Profile) (T : Trial) (K : Nat) (hl : T.frameLen ≤ 160)
    (hK : 80 ≤ K * T.frameLen)
    (he : (T.decAt P true (T.resume + K)).dec = (T.decAt P false (T.resume + K)).dec) :
    T.ReconvergesWithin P K ∧ ∀ i, T.resume + K ≤ i → (T.decAt P true i).dec = (T.decAt P false i).dec := by
  have hpos : 0 < K := by rcases Nat.eq_zero_or_pos K with h | h; · subst h; omega
                          · exact h
  have frame : ∀ j, (T.decAt P true (T.resume + K + j)).dec = (T.decAt P false (T.resume + K + j)).dec →
      (T.decAt P true (T.resume + K + j + 1)).dec = (T.decAt P false (T.resume + K + j + 1)).dec
        ∧ ∀ k < 2 * T.frameLen, T.out P true (T.resume + K + j) k = T.out P false (T.resume + K + j) k := by
    intro j hd
    obtain ⟨fl, wl⟩ := Trial.decAt_form P T true (T.resume + K + j)
    obtain ⟨fr, wr⟩ := Trial.decAt_form P T false (T.resume + K + j)
    have hxl : (T.decAt P true (T.resume + K + j)).plc.prevBfi = false
        ∧ (T.decAt P true (T.resume + K + j)).plc.xfActive = false := by
      have := Trial.decAt_recovers P T (K + j - 1)
      rw [show T.resume + (K + j - 1) + 1 = T.resume + K + j by omega, show K + j - 1 + 1 = K + j by omega] at this
      refine ⟨this.1, this.2.resolve_right fun h => ?_⟩
      have : K * T.frameLen ≤ (K + j) * T.frameLen := Nat.mul_le_mul_right _ (by omega)
      omega
    have hxr := Trial.decAt_clean P T false (T.resume + K + j) fun _ _ => rfl
    obtain ⟨lw, lc, -⟩ := State.loadCodes_mem T.frameLen (T.codeOf P (T.resume + K + j)) _ wl
    obtain ⟨rw', rc, -⟩ := State.loadCodes_mem T.frameLen (T.codeOf P (T.resume + K + j)) _ wr
    have := State.decGood_agree P T.table T.mode
      ((T.decAt P true (T.resume + K + j)).loadCodes T.frameLen (T.codeOf P (T.resume + K + j)))
      ((T.decAt P false (T.resume + K + j)).loadCodes T.frameLen (T.codeOf P (T.resume + K + j)))
      (by simpa using hd) (by simp [fl, fr]) (by simpa [fl] using hl) lw rw' (by simpa using hxl.1)
      (by simpa using hxl.2) (by simpa using hxr.1) (by simpa using hxr.2)
      (by intro n hn; have hn' : n < T.frameLen := by simpa [fl] using hn
          rw [lc n hn', rc n hn'])
    have e1 := Trial.decAt_good P T true (T.resume + K + j) (by rw [Trial.lost_after T _ (by omega)]; rfl)
    have e2 := Trial.decAt_good P T false (T.resume + K + j) rfl
    refine ⟨by rw [e1, e2]; exact this.1, fun k hk => ?_⟩
    unfold Trial.out
    rw [e1, e2]
    exact this.2 k (by simpa [fl] using hk)
  have all : ∀ j, (T.decAt P true (T.resume + K + j)).dec = (T.decAt P false (T.resume + K + j)).dec := by
    intro j
    induction j with
    | zero => exact he
    | succ j ih => exact (frame j ih).1
  refine ⟨fun i k hi hk => ?_, fun i hi => ?_⟩
  · obtain ⟨j, rfl⟩ := Nat.exists_eq_add_of_le hi
    exact (frame j (all j)).2 k hk
  · obtain ⟨j, rfl⟩ := Nat.exists_eq_add_of_le hi
    exact all j

/-- A trial without a lost frame is its own reference. -/
theorem Trial.decAt_of_no_loss (P : Profile) (T : Trial) (hc : T.count = 0) (i : Nat) :
    T.decAt P true i = T.decAt P false i := by
  have hl : ∀ j, T.lost j = false := fun j => by simp [Trial.lost, hc]
  induction i with
  | zero => rfl
  | succ i ih => rw [Trial.decAt_succ, Trial.decAt_succ, ih, hl]; rfl

theorem Trial.reconverges_of_no_loss (P : Profile) (T : Trial) (hc : T.count = 0) : T.ReconvergesWithin P 0 := by
  intro i k _ _
  unfold Trial.out
  rw [Trial.decAt_of_no_loss P T hc]

/-! ### The recovery boundary: 46_plc_synthesis.md R399 (a) -/

/-- A bound that holds, a larger one holds. -/
theorem Trial.continuousWithin_mono (P : Profile) (T : Trial) (δ ε : Int) (h : T.ContinuousWithin P δ)
    (hle : δ ≤ ε) : T.ContinuousWithin P ε := fun i hi hp => (h i hi hp).trans hle

/-- The first PCM sample of the first good frame after a loss: synthesized from the first sample of the crossfade buffer
(46_plc_synthesis.md R389) and the decoded high-band sample. -/
theorem State.decGood_pcm0 (P : Profile) (t : BitVec 6 → I16) (m : LMode) (s : State) (hw : s.mem.wf = true)
    (hN : 0 < s.regs.frameLen) (hb : s.plc.prevBfi = true) :
    ∃ rh, (s.decGood P t m).mem.pcm 0 = (qmfRxF P s.dec.D (s.plc.xfBuf.getD 0 0) rh).y0 := by
  have H := forN_first
    (fun r : DecRun => r.mem.wf = true ∧ ∃ rh, r.mem.pcm 0 = (qmfRxF P s.dec.D (s.plc.xfBuf.getD 0 0) rh).y0)
    (decSample P t m) ⟨goodStartDec P s.plc s.dec, goodStartPlc s.plc, s.mem, [], []⟩ s.regs.frameLen hN
    ⟨wf_decSample P t m 0 _ hw, (decHF P (goodStartDec P s.plc s.dec).H (codeIh (s.mem.code 0))).x, ?_⟩ ?_
  · rw [State.decGood_mem]
    exact H.2
  · simp only [decSample]
    rw [pcm_setPair _ _ _ _ _ hw]
    simp [goodStartPlc, goodStartDec, hb, reconvPlc, reconvDec, xfOut, xfFlat]
  · rintro n r h0 - ⟨w, rh, h⟩
    refine ⟨wf_decSample P t m n r w, rh, ?_⟩
    simp only [decSample]
    rw [pcm_setPair _ _ _ _ _ w, if_neg (by omega), if_neg (by omega), h]

/-- The next sample that the concealment would make of the low band. -/
def Plc.nextLo (P : PlcParams) (plc : Plc) : I16 := round16 P (attW P plc.cls plc.cntL * synSample P plc.lpc plc.syn)

/-- The first low-band sample that `conceal` makes. -/
theorem conceal_lo0 (P : PlcParams) (N : Nat) (plc : Plc) (hN : 0 < N) :
    (conceal P N plc).lo.getD 0 0 = plc.nextLo P := by
  have H := forN_first (fun c : Conceal => ∃ l, c.lo = plc.nextLo P :: l) (fun _ => concealSample P)
    ⟨plc, [], []⟩ N hN
    ⟨[], by simp [concealSample, Plc.nextLo]⟩ (by
      rintro n c - - ⟨l, h⟩
      exact ⟨l ++ [_], by simp only [concealSample, h]; rfl⟩)
  obtain ⟨l, h⟩ := H
  simp [conceal, h]

/-- The crossfade buffer begins with the sample that the concealment would make next (46_plc_synthesis.md R387), outside
the class whose tail is weighted (R388). -/
theorem makeXfBuffer_head (P : PlcParams) (plc : Plc) (hc : plc.cls ≠ .transient) :
    (makeXfBuffer P plc).xfBuf.getD 0 0 = plc.nextLo P := by
  unfold makeXfBuffer
  have hx : 0 < xfLen := by decide
  generalize xfLen = N at hx
  obtain ⟨l, h⟩ := forN_first (fun x : XfRun => ∃ l, x.buf = plc.nextLo P :: l) (xfSample P plc)
    ⟨plc.syn, []⟩ N hx
    ⟨[], by simp [xfSample, Plc.nextLo, hc]⟩ (by
      rintro n x - - ⟨l, h⟩
      exact ⟨l ++ [_], by simp only [xfSample, h]; rfl⟩)
  rw [h]; rfl

theorem makeXfBuffer_cls (P : PlcParams) (plc : Plc) : (makeXfBuffer P plc).cls = plc.cls := by
  unfold makeXfBuffer; rfl

theorem makeXfBuffer_nextLo (P : PlcParams) (plc : Plc) : (makeXfBuffer P plc).nextLo P = plc.nextLo P := by
  unfold makeXfBuffer Plc.nextLo Plc.syn; rfl

/-- After a concealment the crossfade buffer goes on where it ended: the source's "contiguously" (46_plc_synthesis.md
R387). -/
theorem conceal_xfBuf (P : PlcParams) (N : Nat) (plc : Plc) (hc : (conceal P N plc).plc.cls ≠ .transient) :
    (conceal P N plc).plc.xfBuf.getD 0 0 = (conceal P N plc).plc.nextLo P := by
  simp only [conceal, concealEnd, makeXfBuffer_cls] at hc
  simp only [conceal, concealEnd, makeXfBuffer_nextLo]
  exact makeXfBuffer_head P _ hc

@[simp] theorem endFrame_nextLo (P : PlcParams) (ep : Episode) (b : Bool) (lo hi : List I16) (plc : Plc) :
    (endFrame P ep b lo hi plc).nextLo P = plc.nextLo P := by
  simp only [Plc.nextLo, endFrame_cls, endFrame_cntL, endFrame_lpc, endFrame_syn]

/-- The same of a lost frame. -/
theorem State.decLost_xfBuf (P : Profile) (s : State) (hc : (s.decLost P).plc.cls ≠ .transient) :
    (s.decLost P).plc.xfBuf.getD 0 0 = (s.decLost P).plc.nextLo P.plc := by
  rw [State.decLost_plc, endFrame_cls] at hc
  rw [State.decLost_plc, endFrame_xfBuf, endFrame_nextLo]
  unfold State.lostConceal at *
  exact conceal_xfBuf P.plc _ _ hc

/-- The first PCM sample of a further lost frame. -/
theorem State.decLost_pcm0 (P : Profile) (s : State) (hw : s.mem.wf = true) (hN : 0 < s.regs.frameLen)
    (hb : s.plc.prevBfi = true) :
    ∃ rh, (s.decLost P).mem.pcm 0 = (qmfRxF P s.dec.D (s.plc.nextLo P.plc) rh).y0 := by
  have hl : (s.lostConceal P).lo.getD 0 0 = s.plc.nextLo P.plc := by
    unfold State.lostConceal lostStart
    rw [if_pos hb]; exact conceal_lo0 _ _ _ hN
  have H := forN_first
    (fun r : RxRun => r.mem.wf = true ∧ ∃ rh, r.mem.pcm 0 = (qmfRxF P s.dec.D (s.plc.nextLo P.plc) rh).y0)
    (lostSample P (s.lostConceal P).lo (s.lostConceal P).hi) ⟨s.dec.D, s.mem⟩ s.regs.frameLen hN
    ⟨wf_lostSample P _ _ 0 _ hw, (s.lostConceal P).hi.getD 0 0, ?_⟩ ?_
  · rw [State.decLost_mem]
    exact H.2
  · simp only [lostSample]
    rw [pcm_setPair _ _ _ _ _ hw, hl]
    simp
  · rintro n r h0 - ⟨w, rh, h⟩
    refine ⟨wf_lostSample P _ _ n r w, rh, ?_⟩
    simp only [lostSample]
    rw [pcm_setPair _ _ _ _ _ w, if_neg (by omega), if_neg (by omega), h]

/-! ### How far the high band alone can move a sample -/

/-- The most that a first output sample of QMF synthesis can differ by when only the high-band sample differs. -/
def rxSlack (P : Profile) : Int := |P.qmfH[0].toInt| * 65535 / 2 ^ P.qmfRxShift + 1

/-- For the reference profile that is 96. -/
theorem rxSlack_profile : rxSlack profile = 96 := by
  show |(3 : Int)| * 65535 / 2 ^ 11 + 1 = 96
  decide

/-- A floor moves by at most one more than its argument's quotient. -/
theorem shiftR_sub_le (a b c : Int) (n : Nat) (h : a - b ≤ c) : shiftR a n - shiftR b n ≤ c / 2 ^ n + 1 := by
  unfold shiftR
  have hp : (0 : Int) < 2 ^ n := by positivity
  generalize (2 : Int) ^ n = m at *
  have h1 := Int.lt_ediv_add_one_mul_self b hp
  have h2 := Int.lt_ediv_add_one_mul_self c hp
  have h3 : a / m < b / m + c / m + 2 := (Int.ediv_lt_iff_lt_mul hp).2 (by linarith)
  omega

/-- Saturation brings values no further apart. -/
theorem sat16_near (a b c : Int) (h : |a - b| ≤ c) : |(sat16 a).toInt - (sat16 b).toInt| ≤ c := by
  simp only [toInt_sat16, clamp]
  rw [abs_le] at *
  omega

theorem qmfRxF_near (P : Profile) (D : Vector I16 24) (rl rh rh' : I16) :
    |(qmfRxF P D rl rh).y0.toInt - (qmfRxF P D rl rh').y0.toInt| ≤ rxSlack P := by
  have key : ∀ u v : I16, |P.qmfH[0].toInt * u.toInt - P.qmfH[0].toInt * v.toInt| ≤ |P.qmfH[0].toInt| * 65535 := by
    intro u v
    rw [← mul_sub, abs_mul]
    refine mul_le_mul_of_nonneg_left (abs_le.2 ?_) (abs_nonneg _)
    have := i16_lo u; have := i16_hi u; have := i16_lo v; have := i16_hi v
    omega
  have k := abs_le.1 (key (sub16 rl rh) (sub16 rl rh'))
  unfold qmfRxF
  refine sat16_near _ _ _ (abs_le.2 ⟨?_, ?_⟩)
  · have := shiftR_sub_le (dotEven P.qmfH (push2 D (add16 rl rh') (sub16 rl rh')))
      (dotEven P.qmfH (push2 D (add16 rl rh) (sub16 rl rh))) (|P.qmfH[0].toInt| * 65535) P.qmfRxShift
      (by simp [dotEven, push2]; linarith [k.1])
    unfold rxSlack; omega
  · have := shiftR_sub_le (dotEven P.qmfH (push2 D (add16 rl rh) (sub16 rl rh)))
      (dotEven P.qmfH (push2 D (add16 rl rh') (sub16 rl rh'))) (|P.qmfH[0].toInt| * 65535) P.qmfRxShift
      (by simp [dotEven, push2]; linarith [k.2])
    unfold rxSlack; omega

/-! ### The recovery boundary of a trial -/

/-- The same trial with the loss one frame longer. -/
def Trial.longer (T : Trial) : Trial := { T with count := T.count + 1 }

theorem Trial.encAt_longer (P : Profile) (T : Trial) (i : Nat) : T.longer.encAt P i = T.encAt P i := by
  induction i with
  | zero => rfl
  | succ i ih => simp only [Trial.encAt, ih]; rfl

theorem Trial.codeOf_longer (P : Profile) (T : Trial) (i : Nat) : T.longer.codeOf P i = T.codeOf P i := by
  funext n
  simp only [Trial.codeOf, Trial.encAt_longer]

/-- Up to the shorter one's recovery, both decode alike. -/
theorem Trial.decAt_longer (P : Profile) (T : Trial) (i : Nat) (h : i ≤ T.resume) :
    T.longer.decAt P true i = T.decAt P true i := by
  induction i with
  | zero => rfl
  | succ i ih =>
    have hl : T.longer.lost i = T.lost i := by
      unfold Trial.resume at h
      show (decide (T.first ≤ i) && decide (i < T.first + (T.count + 1))) = _
      rw [decide_eq_true (show i < T.first + (T.count + 1) by omega)]
      unfold Trial.lost
      rw [decide_eq_true (show i < T.first + T.count by omega)]
    rw [Trial.decAt_succ, Trial.decAt_succ, ih (by omega), hl, Trial.codeOf_longer]; rfl

/-- The crossfade at work: at the recovery boundary the step of the output exceeds by at most `rxSlack` the step that one
more concealed frame would have made there, whatever the decoder gives. The slack is the high band's, which is not
crossfaded (46_plc_synthesis.md R390). -/
theorem Trial.jump_recovery_le (P : Profile) (T : Trial) (hN : 0 < T.frameLen) (hc : 0 < T.count)
    (hcls : (T.decAt P true T.resume).plc.cls ≠ .transient) :
    T.jump P T.resume ≤ T.longer.jump P T.resume + rxSlack P := by
  obtain ⟨fl, wl⟩ := Trial.decAt_form P T true T.resume
  have hlast : T.lost (T.resume - 1) = true :=
    (Trial.lost_iff T _).2 ⟨by unfold Trial.resume; omega, by unfold Trial.resume; omega⟩
  have hprev : T.resume - 1 + 1 = T.resume := by unfold Trial.resume; omega
  have hb := Trial.decAt_prevBfi P T _ hlast
  have hx : (T.decAt P true T.resume).plc.xfBuf.getD 0 0 = (T.decAt P true T.resume).plc.nextLo P.plc := by
    have := Trial.decAt_lost P T _ hlast
    rw [hprev] at this
    rw [this] at hcls ⊢
    exact State.decLost_xfBuf P _ hcls
  rw [hprev] at hb
  have hw := (State.loadCodes_mem T.frameLen (T.codeOf P T.resume) _ wl).1
  have e1 := Trial.decAt_good P T true T.resume (by rw [Trial.lost_after T _ le_rfl]; rfl)
  have e2 := Trial.decAt_lost P T.longer T.resume ((Trial.lost_iff _ _).2 ⟨by simp [Trial.longer, Trial.resume],
    by simp [Trial.longer, Trial.resume]⟩)
  rw [Trial.decAt_longer P T _ le_rfl, Trial.codeOf_longer] at e2
  obtain ⟨rh, h1⟩ := State.decGood_pcm0 P T.table T.mode _ hw (by simpa [fl] using hN) (by simpa using hb)
  obtain ⟨rh', h2⟩ := State.decLost_pcm0 P _ hw (by simpa [fl] using hN) (by simpa using hb)
  have o1 : T.out P true T.resume 0 = (qmfRxF P (T.decAt P true T.resume).dec.D
      ((T.decAt P true T.resume).plc.nextLo P.plc) rh).y0 := by
    unfold Trial.out; rw [e1, h1, State.loadCodes_dec, State.loadCodes_plc, hx]
  have o2 : T.longer.out P true T.resume 0 = (qmfRxF P (T.decAt P true T.resume).dec.D
      ((T.decAt P true T.resume).plc.nextLo P.plc) rh').y0 := by
    unfold Trial.out
    rw [e2]
    rw [State.loadCodes_dec, State.loadCodes_plc] at h2
    exact h2
  have o3 : T.longer.out P true (T.resume - 1) (2 * T.frameLen - 1)
      = T.out P true (T.resume - 1) (2 * T.frameLen - 1) := by
    unfold Trial.out
    rw [hprev, Trial.decAt_longer P T _ le_rfl]
  have near := qmfRxF_near P (T.decAt P true T.resume).dec.D ((T.decAt P true T.resume).plc.nextLo P.plc) rh rh'
  unfold Trial.jump
  rw [show T.longer.frameLen = T.frameLen from rfl, o3, o1, o2]
  calc _ ≤ |(qmfRxF P (T.decAt P true T.resume).dec.D ((T.decAt P true T.resume).plc.nextLo P.plc) rh).y0.toInt
            - (qmfRxF P (T.decAt P true T.resume).dec.D ((T.decAt P true T.resume).plc.nextLo P.plc) rh').y0.toInt|
          + |(qmfRxF P (T.decAt P true T.resume).dec.D ((T.decAt P true T.resume).plc.nextLo P.plc) rh').y0.toInt
            - (T.out P true (T.resume - 1) (2 * T.frameLen - 1)).toInt| := abs_sub_le _ _ _
    _ ≤ _ := by linarith

/-- (a) of 46_plc_synthesis.md R399, the bound a parameter: a concealment that begins, and would go on, without a step
above `δ` meets `δ + rxSlack`. -/
theorem Trial.continuous_of_concealment (P : Profile) (T : Trial) (δ : Int) (hN : 0 < T.frameLen) (hc : 0 < T.count)
    (hcls : (T.decAt P true T.resume).plc.cls ≠ .transient)
    (h0 : 0 < T.first → T.jump P T.first ≤ δ) (h1 : T.longer.jump P T.resume ≤ δ) :
    T.ContinuousWithin P (δ + rxSlack P) := by
  have hs : 0 ≤ rxSlack P := by unfold rxSlack; positivity
  rintro i (rfl | rfl) hi
  · linarith [h0 hi]
  · linarith [Trial.jump_recovery_le P T hN hc hcls]

/-! ### Energy: 46_plc_synthesis.md R399, 92_eei_decisions.md D62 -/

theorem energyWithin_mono (r r' before lost after : Rat) (hb : 0 ≤ before) (ha : 0 ≤ after) (h : r ≤ r')
    (he : energyWithin r before lost after) : energyWithin r' before lost after := by
  unfold energyWithin at *
  constructor <;> nlinarith [he.1, he.2]

theorem sumFrom_nonneg (lo hi : Nat) (f : Nat → Rat) (h : ∀ k, 0 ≤ f k) : 0 ≤ sumFrom lo hi f := by
  unfold sumFrom
  refine List.sum_nonneg fun x hx => ?_
  obtain ⟨k, -, rfl⟩ := List.mem_map.1 hx
  exact h _

theorem Trial.energy_nonneg (P : Profile) (T : Trial) (lossy : Bool) (i : Nat) : 0 ≤ T.energy P lossy i :=
  sumFrom_nonneg _ _ _ fun _ => mul_self_nonneg _

theorem Trial.energyKeptWithin_mono (P : Profile) (T : Trial) (r r' : Rat) (h : T.EnergyKeptWithin P r)
    (hr : r ≤ r') : T.EnergyKeptWithin P r' := fun hc hf =>
  energyWithin_mono _ _ _ _ _ (Trial.energy_nonneg ..) (Trial.energy_nonneg ..) hr (h hc hf)

/-- A frame of the mean energy meets every ratio. -/
theorem energyWithin_of_mean (r before after : Rat) (hr : 0 ≤ r) (hb : 0 ≤ before) (ha : 0 ≤ after) :
    energyWithin r before ((before + after) / 2) after := by
  unfold energyWithin
  constructor <;> nlinarith

/-- The source's "no silence drop-out": with a ratio below 1, a loss next to a frame that is not silent is not silent. -/
theorem Trial.no_drop_out (P : Profile) (T : Trial) (r : Rat) (h : T.EnergyKeptWithin P r) (hr : r < 1)
    (hc : T.count = 1) (hf : 0 < T.first)
    (he : 0 < T.energy P true (T.first - 1) + T.energy P true (T.first + 1)) :
    ∃ k < 2 * T.frameLen, T.out P true T.first k ≠ 0 := by
  by_contra hx
  push Not at hx
  have hz : T.energy P true T.first = 0 := by
    unfold Trial.energy sumFrom
    refine List.sum_eq_zero fun x hm => ?_
    obtain ⟨k, hk, rfl⟩ := List.mem_map.1 hm
    simp [hx k (by simpa using hk), ratOf]
  have := (h hc hf).1
  rw [hz] at this
  have : 0 < (1 - r) * ((T.energy P true (T.first - 1) + T.energy P true (T.first + 1)) / 2) :=
    mul_pos (by linarith) (by linarith)
  linarith

/-! ### No loss -/

theorem Trial.tracksWithin_mono (P : Profile) (T : Trial) (d : Nat) (b b' : Int) (h : T.TracksWithin P d b)
    (hb : b ≤ b') : T.TracksWithin P d b' := fun i k h0 h1 h2 => (h i k h0 h1 h2).trans hb

/-! ### Classification: 45_plc_analysis.md R354 -/

theorem startEpisode_cls (P : PlcParams) (u : List Rat) (plc : Plc) :
    (startEpisode P u plc).cls = plc.cls ∧ (startEpisode P u plc).t0 = plc.t0 := by
  unfold startEpisode captureHb; exact ⟨rfl, rfl⟩

/-- The analysis's residual, from the coefficients it solved for. -/
def excOf (P : PlcParams) (plc : Plc) : List Rat :=
  let u := dcRemove P (plc.histL.map ratOf)
  residual P u ((levinson (lpcCorr P u) 8).getD plc.lpc)

/-- The class is that of `classify` on the analysis's own signals. -/
theorem analyse_class (P : PlcParams) (nbL nbH : I16) (plc : Plc) :
    let u := dcRemove P (plc.histL.map ratOf)
    let t0 := pitchLag P (excOf P plc)
    let c := classify P nbL nbH u (excOf P plc) t0 (pitchCorr P (excOf P plc) t0)
    (analyse P nbL nbH plc).cls = c.cls ∧ (analyse P nbL nbH plc).t0 = c.t0 := by
  unfold analyse excOf
  exact startEpisode_cls _ _ _

/-- Noise: a history with at least 20 sign changes in its newest 80 samples, which the safeguard does not except and whose
excitation has no transient, is unvoiced. -/
theorem noise_of_zeroCrossings (P : PlcParams) (nbL nbH : I16) (plc : Plc)
    (hz : zcThr ≤ zeroCrossings P (dcRemove P (plc.histL.map ratOf)))
    (hs : ∀ zc t0 c, P.zcSafeguard zc t0 c = false)
    (ht : ∀ c, transientClass P (pitchLag P (excOf P plc)) (excOf P plc) c = c) :
    NoiseIsUnvoiced P nbL nbH plc := by
  unfold NoiseIsUnvoiced
  rw [(analyse_class P nbL nbH plc).1]
  simp only [classify, ht, zcStep, hs, hz, and_self, if_true]

/-- Tone: a history whose normalized correlation at the lag found exceeds 0.70, with fewer than 20 sign changes, whose low
band carries at least the high band's step size and whose excitation has no transient, is voiced; its lag is within `tol`
of the period where the lag found, aligned to the pulse, is. -/
theorem tone_of_correlation (P : PlcParams) (nbL nbH : I16) (plc : Plc) (period tol : Nat)
    (hc : voicedThrSq < pitchCorr P (excOf P plc) (pitchLag P (excOf P plc)))
    (hn : nbH.toInt ≤ nbL.toInt)
    (hz : zeroCrossings P (dcRemove P (plc.histL.map ratOf)) < zcThr)
    (ht : ∀ c, transientClass P (pitchLag P (excOf P plc)) (excOf P plc) c = c)
    (ha : ∀ e, period ≤ P.pulseAlign e (pitchLag P (excOf P plc)) + tol
      ∧ P.pulseAlign e (pitchLag P (excOf P plc)) ≤ period + tol) :
    ToneIsVoiced P nbL nbH plc period tol := by
  obtain ⟨h1, h2⟩ := analyse_class P nbL nbH plc
  have hcls : zcStep P (dcRemove P (plc.histL.map ratOf)) (pitchLag P (excOf P plc))
      (pitchCorr P (excOf P plc) (pitchLag P (excOf P plc)))
      (downgrade P (pitchCorr P (excOf P plc) (pitchLag P (excOf P plc))) nbL nbH
        (baseClass (pitchCorr P (excOf P plc) (pitchLag P (excOf P plc))))) = .voiced := by
    unfold zcStep downgrade baseClass
    rw [if_pos hc, if_neg (by omega), if_neg (by omega)]
  unfold ToneIsVoiced
  simp only [h1, h2, classify, ht, hcls, if_true]
  exact ⟨trivial, ha _⟩

/-! ### A trial that meets the hypotheses: its first frame is lost, from silence (46_plc_synthesis.md R398) -/

theorem dcFrom_zero (dcA : Rat) (n : Nat) : dcFrom dcA 0 0 (List.replicate n 0) = List.replicate n 0 := by
  induction n with
  | zero => rfl
  | succ n ih => simpa [List.replicate_succ, dcFrom] using ih

theorem ratAt_replicate_zero (n i : Nat) : ratAt (List.replicate n 0) i = 0 := by
  simp only [ratAt, List.getD_eq_getElem?_getD, List.getElem?_replicate]; split <;> rfl

theorem residual_zero (P : PlcParams) (n : Nat) (lpc : List Rat) :
    residual P (List.replicate n 0) lpc = List.replicate P.excLen 0 := by
  simp [residual, ratAt_replicate_zero, sumFrom]

theorem transientClass_zero (P : PlcParams) (t0 n : Nat) (c : SigClass) :
    transientClass P t0 (List.replicate n 0) c = c := by
  have hp : ∀ m : Nat, peak (List.replicate m 0) = 0 := by
    intro m
    unfold peak
    induction m with
    | zero => rfl
    | succ m ih => simpa [List.replicate_succ, ratAbs] using ih
  simp [transientClass, priorCycle, hp]

theorem downgrade_ne_transient (cmax : Rat) (nbL nbH : I16) (c : SigClass) (h : c ≠ .transient) :
    downgrade Config.plc cmax nbL nbH c ≠ .transient := by
  have hd : Config.plc.classDowngrade cmax nbL nbH ≠ .transient := by
    show Config.classDowngrade cmax nbL nbH ≠ .transient
    rcases Config.classDowngrade_cases cmax nbL nbH with h | h <;> rw [h] <;> decide
  unfold downgrade; split
  · exact hd
  · exact h

theorem zcStep_ne_transient (P : PlcParams) (u : List Rat) (t0 : Nat) (cmax : Rat) (c : SigClass)
    (h : c ≠ .transient) :
    zcStep P u t0 cmax c ≠ .transient := by
  simp only [zcStep]; split
  · decide
  · exact h

/-- Silence is no transient. -/
theorem analyse_silence (nbL nbH : I16) (plc : Plc) (h : plc.histL = List.replicate Config.plc.histLen 0) :
    (analyse Config.plc nbL nbH plc).cls ≠ .transient := by
  have hu : dcRemove Config.plc (plc.histL.map ratOf) = List.replicate Config.plc.histLen 0 := by
    rw [h, List.map_replicate]; exact dcFrom_zero _ _
  rw [(analyse_class Config.plc nbL nbH plc).1]
  unfold excOf
  simp only [hu, residual_zero, classify, transientClass_zero]
  exact zcStep_ne_transient _ _ _ _ _ (downgrade_ne_transient _ nbL nbH _ (by unfold baseClass; split <;> decide))

theorem conceal_cls (P : PlcParams) (N : Nat) (plc : Plc) : (conceal P N plc).plc.cls = plc.cls := by
  simp only [conceal, concealEnd, makeXfBuffer_cls]
  exact forN_keeps (fun c : Conceal => c.plc.cls = plc.cls) _ _ _ rfl
    fun _ b _ hb => (concealSample_keeps P b).1.trans hb
 
/-- A trial that loses its first frame. -/
theorem Trial.first_lost_cls (T : Trial) (hf : T.first = 0) (hc : T.count = 1) :
    (T.decAt profile true T.resume).plc.cls ≠ .transient := by
  rw [show T.resume = 0 + 1 by simp [Trial.resume, hf, hc],
    Trial.decAt_lost profile T 0 (by simp [Trial.lost, hf, hc]), State.decLost_plc, endFrame_cls]
  unfold State.lostConceal
  rw [conceal_cls]
  exact analyse_silence _ _ _ rfl

end Sys2Proof.Machine
end

