-- ==== Sys2Proof/Laws/Adapt.lean ====
section
/-! SUPPORT. What one adaptation leaves in each field of a band sub-state, so that no proof unfolds the stages. -/

namespace Sys2Proof.Machine

theorem adapt_a (P : Profile) (B : Band) (d w : I16) (k : BandId) : (adapt P B d w k).a =
    #v[B.a[0], uppol1 P (partialStep B d) (uppol2 P (partialStep B d)), uppol2 P (partialStep B d)] := by
  unfold adapt scale logscl predict delaya
  simp only [partialStep]

theorem adapt_b (P : Profile) (B : Band) (d w : I16) (k : BandId) : (adapt P B d w k).b =
    #v[B.b[0], upzeroTap P d B.b[1] B.d[1], upzeroTap P d B.b[2] B.d[2], upzeroTap P d B.b[3] B.d[3],
      upzeroTap P d B.b[4] B.d[4], upzeroTap P d B.b[5] B.d[5], upzeroTap P d B.b[6] B.d[6]] := by
  unfold adapt scale logscl predict delaya upzero
  simp only [partialStep]
  rfl

theorem adapt_d (P : Profile) (B : Band) (d w : I16) (k : BandId) : (adapt P B d w k).d =
    #v[d, d, B.d[1], B.d[2], B.d[3], B.d[4], B.d[5]] := by
  unfold adapt scale logscl predict delaya
  simp only [partialStep]
  rfl

theorem adapt_p (P : Profile) (B : Band) (d w : I16) (k : BandId) : (adapt P B d w k).p =
    #v[add16 B.sz d, add16 B.sz d, B.p[1]] := by
  unfold adapt scale logscl predict delaya
  simp only [partialStep]
  rfl

theorem adapt_r (P : Profile) (B : Band) (d w : I16) (k : BandId) : (adapt P B d w k).r =
    #v[add16 B.s d, add16 B.s d, B.r[1]] := by
  unfold adapt scale logscl predict delaya
  simp only [partialStep]
  rfl

theorem adapt_nb (P : Profile) (B : Band) (d w : I16) (k : BandId) : (adapt P B d w k).nb =
    clamp16 (sat16 (shiftR (B.nb.toInt * P.nbLeakMul) P.nbLeakShift + w.toInt)) 0 (nbMax k) := by
  unfold adapt scale logscl predict delaya
  simp only [partialStep]

theorem adapt_det (P : Profile) (B : Band) (d w : I16) (k : BandId) : (adapt P B d w k).det =
    P.ila ((shiftR (adapt P B d w k).nb.toInt 6).toNat + ilaOff P k) := by
  unfold adapt scale logscl predict delaya
  simp only [partialStep]

/-- The pole section reads only coefficients and histories. -/
theorem filtep_congr (B C : Band) (ha : B.a = C.a) (hr : B.r = C.r) : filtep B = filtep C := by
  unfold filtep; rw [ha, hr]

/-- The zero section reads only coefficients and histories. -/
theorem filtez_congr (P : Profile) (B C : Band) (hb : B.b = C.b) (hd : B.d = C.d) : filtez P B = filtez P C := by
  unfold filtez; rw [hb, hd]

theorem adapt_sp (P : Profile) (B : Band) (d w : I16) (k : BandId) :
    (adapt P B d w k).sp = filtep (adapt P B d w k) := by
  unfold adapt scale logscl predict
  simp only
  exact filtep_congr _ _ rfl rfl

theorem adapt_sz (P : Profile) (B : Band) (d w : I16) (k : BandId) :
    (adapt P B d w k).sz = filtez P (adapt P B d w k) := by
  unfold adapt scale logscl predict
  simp only
  exact filtez_congr _ _ _ rfl rfl

theorem adapt_s (P : Profile) (B : Band) (d w : I16) (k : BandId) :
    (adapt P B d w k).s = add16 (adapt P B d w k).sp (adapt P B d w k).sz := by
  unfold adapt scale logscl predict
  simp only

/-- 42_adpcm_adapt.md R235, for the coefficient before it is stored. -/
theorem uppol2_mem (P : Profile) (B : Band) : -12288 ≤ (uppol2 P B).toInt ∧ (uppol2 P B).toInt ≤ 12288 := by
  unfold uppol2
  simp only
  rw [toInt_clamp16 _ _ _ (by unfold al2Bound; omega) (by unfold al2Bound; omega) (by unfold al2Bound; omega)]
  unfold clamp al2Bound
  omega

/-- 42_adpcm_adapt.md R236, for the coefficient before it is stored. -/
theorem uppol1_mem (P : Profile) (B : Band) (x : I16) (h0 : -12288 ≤ x.toInt) (h1 : x.toInt ≤ 12288) :
    -(15360 - x.toInt) ≤ (uppol1 P B x).toInt ∧ (uppol1 P B x).toInt ≤ 15360 - x.toInt := by
  have hb : (sub16 al1Base x).toInt = 15360 - x.toInt := by
    have h : al1Base.toInt = 15360 := by decide
    rw [toInt_sub16, h, clamp_of_mem _ _ _ (by omega) (by omega)]
  unfold uppol1
  simp only
  rw [hb, toInt_clamp16 _ _ _ (by omega) (by omega) (by omega)]
  unfold clamp
  omega

end Sys2Proof.Machine
end

