-- ==== Sys2Proof/Laws/PerInstr.lean ====
section
/-! SUPPORT. Claims about every command as syntax, one lemma per constructor.

`TableMatch`: the word a command encodes to matches its row of spec/opcode_table.json, mask `0xFFFFF0FF`
(30_encoding.md R146), and it alone. -/

namespace Sys2Proof.Laws.TableMatch

/-- The `match` of the command's row in spec/opcode_table.json. -/
def rowMatch : Instr → Word
  | .nop => 0x00000000
  | .resetEnc => 0x00000001
  | .resetDec => 0x00000002
  | .plcReset => 0x00000003
  | .resetAll => 0x00000004
  | .qmfTx => 0x00000010
  | .qmfRx => 0x00000011
  | .encL _ => 0x00000020
  | .encH _ => 0x00000021
  | .decL _ => 0x00000022
  | .decH _ => 0x00000023
  | .encPair _ _ => 0x00000030
  | .decPair _ _ => 0x00000031
  | .encFrame _ _ => 0x00000040
  | .decFrame _ _ _ => 0x00000041
  | .sat => 0x00000050
  | .sadd => 0x00000051
  | .ssub => 0x00000052
  | .smulq15 => 0x00000053
  | .sshl => 0x00000054
  | .sshr => 0x00000055

/-- The encoded word matches the command's row, and only the bits the row marks used are set. -/
def Statement (i : Instr) : Prop := encode i &&& 0xFFFFF0FF = rowMatch i ∧ encode i &&& usedMask i = encode i

theorem nop : Statement .nop := by unfold Statement; decide

theorem resetEnc : Statement .resetEnc := by unfold Statement; decide

theorem resetDec : Statement .resetDec := by unfold Statement; decide

theorem plcReset : Statement .plcReset := by unfold Statement; decide

theorem resetAll : Statement .resetAll := by unfold Statement; decide

theorem qmfTx : Statement .qmfTx := by unfold Statement; decide

theorem qmfRx : Statement .qmfRx := by unfold Statement; decide

theorem encL (m : LMode) : Statement (.encL m) := by unfold Statement; cases m <;> decide

theorem encH (h : HMode) : Statement (.encH h) := by unfold Statement; cases h <;> decide

theorem decL (m : LMode) : Statement (.decL m) := by unfold Statement; cases m <;> decide

theorem decH (h : HMode) : Statement (.decH h) := by unfold Statement; cases h <;> decide

theorem encPair (m : LMode) (h : HMode) : Statement (.encPair m h) := by
  unfold Statement; cases m <;> cases h <;> decide

theorem decPair (m : LMode) (h : HMode) : Statement (.decPair m h) := by
  unfold Statement; cases m <;> cases h <;> decide

theorem encFrame (m : LMode) (h : HMode) : Statement (.encFrame m h) := by
  unfold Statement; cases m <;> cases h <;> decide

theorem decFrame (m : LMode) (h : HMode) (loss : Bool) : Statement (.decFrame m h loss) := by
  unfold Statement; cases m <;> cases h <;> cases loss <;> decide

theorem sat : Statement .sat := by unfold Statement; decide

theorem sadd : Statement .sadd := by unfold Statement; decide

theorem ssub : Statement .ssub := by unfold Statement; decide

theorem smulq15 : Statement .smulq15 := by unfold Statement; decide

theorem sshl : Statement .sshl := by unfold Statement; decide

theorem sshr : Statement .sshr := by unfold Statement; decide

end Sys2Proof.Laws.TableMatch
end

