-- ==== Sys2Proof/Tests/Slice0.lean ====
section
/-! SUPPORT. Tests, each of one command, with the expected values of 95_test_vectors.md, and a witness for the
hypotheses of every statement that has some. -/

namespace Sys2Proof.Machine.Tests

open Sys2Proof Sys2Proof.Machine

/-! ### Helpers -/

/-- The state after a list of host accesses. -/
def after (s : State) : List HostInput → State
  | [] => s
  | x :: xs =>
    match serve x s with
    | .next t => after t xs
    | .fault _ => s
    | .refused _ => s

/-- The state that a result holds, or the given one. -/
def nextOr (s : State) : Result → State
  | .next t => t
  | .fault _ => s
  | .refused _ => s

/-- What one command leaves. -/
def cmd (i : Instr) (s : State) : State := nextOr s (exec i s)

/-- The saturating unit on two operands, from reset. -/
def satResult (op : Instr) (a b : Word) : Int :=
  (cmd op { State.reset with regs := { Regs.reset with satA := a, satB := b } }).regs.satR.toInt

/-- A state whose host has accesses to make. -/
def host (xs : List HostInput) : State := State.reset.setInputs xs

/-! ### `WellFormed`: the modes that each command checks (43_quantizers.md R270) -/

theorem test_wf_encL : (Instr.encL .bits3).wellFormed profile = false := by decide
theorem test_wf_decL : (Instr.decL .bits3).wellFormed profile = false := by decide
theorem test_wf_encH : (Instr.encH .bits3).wellFormed profile = false := by decide
theorem test_wf_decH : (Instr.decH .bits3).wellFormed profile = false := by decide
theorem test_wf_encPair_low : (Instr.encPair .bits3 .bits2).wellFormed profile = false := by decide
theorem test_wf_encPair_high : (Instr.encPair .bits6 .bits3).wellFormed profile = false := by decide
theorem test_wf_decPair : (Instr.decPair .bits3 .bits3).wellFormed profile = false := by decide
theorem test_wf_encFrame : (Instr.encFrame .bits6 .bits3).wellFormed profile = false := by decide
theorem test_wf_decFrame : (Instr.decFrame .bits3 .bits2 true).wellFormed profile = false := by decide
theorem test_wf_legal : (Instr.decFrame .bits4 .bits2 true).wellFormed profile = true := by decide

/-! ### Decoding: words written out from 30_encoding.md R140 and R146 (95_test_vectors.md V524), every constructor -/

theorem test_decode_nop : decode 0b0000_0000_0000_0000_0000_0000_0000_0000#32 = .ok .nop := by decide
theorem test_decode_resetEnc : decode 0b0000_0000_0000_0000_0000_0000_0000_0001#32 = .ok .resetEnc := by decide
theorem test_decode_resetDec : decode 0b0000_0000_0000_0000_0000_0000_0000_0010#32 = .ok .resetDec := by decide
theorem test_decode_plcReset : decode 0b0000_0000_0000_0000_0000_0000_0000_0011#32 = .ok .plcReset := by decide
theorem test_decode_resetAll : decode 0b0000_0000_0000_0000_0000_0000_0000_0100#32 = .ok .resetAll := by decide
theorem test_decode_qmfTx : decode 0b0000_0000_0000_0000_0000_0000_0001_0000#32 = .ok .qmfTx := by decide
theorem test_decode_qmfRx : decode 0b0000_0000_0000_0000_0000_0000_0001_0001#32 = .ok .qmfRx := by decide
theorem test_decode_encL : decode 0b0000_0000_0000_0000_0000_0010_0010_0000#32 = .ok (.encL .bits4) := by decide
theorem test_decode_encH : decode 0b0000_0000_0000_0000_0000_0100_0010_0001#32 = .ok (.encH .bits3) := by decide
theorem test_decode_decL : decode 0b0000_0000_0000_0000_0000_0001_0010_0010#32 = .ok (.decL .bits5) := by decide
theorem test_decode_decH : decode 0b0000_0000_0000_0000_0000_0000_0010_0011#32 = .ok (.decH .bits2) := by decide
theorem test_decode_encPair :
    decode 0b0000_0000_0000_0000_0000_0111_0011_0000#32 = .ok (.encPair .bits3 .bits3) := by decide
theorem test_decode_decPair :
    decode 0b0000_0000_0000_0000_0000_0001_0011_0001#32 = .ok (.decPair .bits5 .bits2) := by decide
theorem test_decode_encFrame :
    decode 0b0000_0000_0000_0000_0000_0010_0100_0000#32 = .ok (.encFrame .bits4 .bits2) := by decide
theorem test_decode_decFrame :
    decode 0b0000_0000_0000_0000_0000_1000_0100_0001#32 = .ok (.decFrame .bits6 .bits2 true) := by decide
theorem test_decode_sat : decode 0b0000_0000_0000_0000_0000_0000_0101_0000#32 = .ok .sat := by decide
theorem test_decode_sadd : decode 0b0000_0000_0000_0000_0000_0000_0101_0001#32 = .ok .sadd := by decide
theorem test_decode_ssub : decode 0b0000_0000_0000_0000_0000_0000_0101_0010#32 = .ok .ssub := by decide
theorem test_decode_smulq15 : decode 0b0000_0000_0000_0000_0000_0000_0101_0011#32 = .ok .smulq15 := by decide
theorem test_decode_sshl : decode 0b0000_0000_0000_0000_0000_0000_0101_0100#32 = .ok .sshl := by decide
theorem test_decode_sshr : decode 0b0000_0000_0000_0000_0000_0000_0101_0101#32 = .ok .sshr := by decide
theorem test_decode_illegal : decode 0b0000_0000_0000_0000_0001_0000_0101_0110#32 = .error .illegalOpc := by decide
theorem test_decode_reserved : decode 0b0000_0000_0000_0000_0001_0000_0101_0101#32 = .error .rsvdBits := by decide
theorem test_encode_decFrame : encode (.decFrame .bits5 .bits2 true) = 0x00000941#32 := by decide

/-! ### Tables (00_scope.md R10, R13, R14) -/

theorem test_table_lengths : q6Ref.length = 29 ∧ qm6Ref.length = 64 ∧ qm5Ref.length = 32 ∧ qm4Ref.length = 16 := by decide
theorem test_code_mask : codeMask .bits6 = 0x3F ∧ codeMask .bits5 = 0x3E ∧ codeMask .bits4 = 0x3C
    ∧ codeMask .bits3 = 0x38 := by decide
theorem test_ila_reset : ilaRef 64 = 32 ∧ ilaRef 0 = 8 ∧ ilaRef 352 = 16384 := by decide
theorem test_q6_rises : q6Ref.Pairwise (fun x y => x.toInt < y.toInt) := by decide

/-! ### The saturating unit (V510, V511) -/

theorem test_sat_high : satResult .sat 0x00008000 0 = 32767 := by decide
theorem test_sat_low : satResult .sat 0x80000000 0 = -32768 := by decide
theorem test_sadd_saturates : satResult .sadd 32767 1 = 32767 := by decide
theorem test_sadd_low_half : satResult .sadd 0x00017FFF 0 = 32767 := by decide
theorem test_ssub_saturates : satResult .ssub 0 (-32768) = 32767 := by decide
theorem test_ssub_order : satResult .ssub 5 7 = -2 := by decide
theorem test_smulq15_saturates : satResult .smulq15 (-32768) (-32768) = 32767 := by decide
theorem test_smulq15_floor : satResult .smulq15 (-1) 1 = -1 := by decide
theorem test_sshl_saturates : satResult .sshl 1 15 = 32767 := by decide
theorem test_sshl_negative : satResult .sshl (-1) 15 = -32768 := by decide
theorem test_sshr_floor : satResult .sshr (-3) 1 = -2 := by decide
theorem test_sshr_all : satResult .sshr (-32768) 15 = -1 := by decide

/-! ### The filterbank (V512, V513) -/

theorem test_qmfTx_earlier : (fun r : Regs => (r.xl.toInt, r.xh.toInt))
    (cmd .qmfTx (State.reset.loadPair 16384 0)).regs = (-11, 11) := by decide
theorem test_qmfTx_later : (fun r : Regs => (r.xl.toInt, r.xh.toInt))
    (cmd .qmfTx (State.reset.loadPair 0 16384)).regs = (3, 3) := by decide
theorem test_qmfRx_low : (fun r : Regs => (r.y0.toInt, r.y1.toInt))
    (cmd .qmfRx { State.reset with regs := { Regs.reset with xl := 8192 } }).regs = (12, -44) := by decide
theorem test_qmfRx_high : (fun r : Regs => (r.y0.toInt, r.y1.toInt))
    (cmd .qmfRx { State.reset with regs := { Regs.reset with xh := 8192 } }).regs = (-12, -44) := by decide

/-! ### The bands (V516 to V520) -/

theorem test_encL_out : (fun r : Regs => (r.il.toNat, r.nsTgt.toInt, r.nsErr.toInt))
    (cmd (.encL .bits6) { State.reset with regs := { Regs.reset with xl := 1000 } }).regs = (32, 1000, 976) := by decide
theorem test_encL_band : (fun B : Band => (B.nb.toInt, B.det.toInt, B.a.toList.map BitVec.toInt))
    (cmd (.encL .bits6) { State.reset with regs := { Regs.reset with xl := 1000 } }).enc.L
      = (3042, 88, [0, 192, 128]) := by decide +kernel
theorem test_encH_zero : (cmd (.encH .bits2) State.reset).regs.ih = 3 := by decide
theorem test_encH_large : (fun s : State => (s.regs.ih.toNat, s.enc.H.nb.toInt))
    (cmd (.encH .bits2) { State.reset with regs := { Regs.reset with xh := -3000 } }) = (0, 798) := by decide
theorem test_decL_mode0 :
    (cmd (.decL .bits6) { State.reset with regs := { Regs.reset with il := 58 } }).regs.xl = 1 := by decide
theorem test_decL_mode1 :
    (cmd (.decL .bits5) { State.reset with regs := { Regs.reset with il := 58 } }).regs.xl = 0 := by decide
theorem test_decH_inner :
    (cmd (.decH .bits2) { State.reset with regs := { Regs.reset with ih := 3 } }).regs.xh = 0 := by decide
theorem test_decH_refused : (fun st : Status => (st.err, st.errCode.toNat))
    (cmd (.decH .bits3) State.reset).status = (true, 3) := by decide

/-! ### Pairs, frames and resets (V521 to V523, 44_codec_commands.md R290 to R300) -/

theorem test_encPair_silence : (cmd (.encPair .bits6 .bits2) State.reset).regs.code = 250 := by decide
theorem test_decPair_silence : (fun r : Regs => (r.xl.toInt, r.y0.toInt, r.y1.toInt))
    (cmd (.decPair .bits6 .bits2) (State.reset.loadCode 250)).regs = (1, 0, -1) := by decide
theorem test_encFrame_silence : (cmd (.encFrame .bits6 .bits2)
    { State.reset with regs := { Regs.reset with frameLen := 1 } }).mem.code 0 = 250 := by decide
theorem test_decFrame_good : (cmd (.decFrame .bits6 .bits2 false)
    { State.reset with
      regs := { Regs.reset with frameLen := 1 }
      mem := Memory.setCode [] 0 250 }).mem.pcm 1 = -1 := by decide +kernel
theorem test_decFrame_refused : (fun st : Status => (st.err, st.errCode.toNat))
    (cmd (.decFrame .bits3 .bits2 true) State.reset).status = (true, 3) := by decide
theorem test_resetEnc : (cmd .resetEnc { State.reset with enc := { Ctx.reset with L := Band.reset 99 } }).enc.L.det
    = 32 := by decide
theorem test_resetDec : (cmd .resetDec { State.reset with dec := { Ctx.reset with H := Band.reset 99 } }).dec.H.det
    = 8 := by decide
theorem test_plcReset : (cmd .plcReset { State.reset with
    plc := { Plc.reset profile.plc with prevBfi := true } }).plc.prevBfi = false := by decide
theorem test_resetAll_keeps : (cmd .resetAll { State.reset with status := ⟨true, 6⟩ }).status.errCode = 6 := by decide
theorem test_nop : (cmd .nop (State.reset.loadPair 7 8)).regs.x1 = 8 := by decide

/-! ### Concealment, under the baselines of 45_plc_analysis.md and 46_plc_synthesis.md (V529, V531, V532) -/

/-- `PLC_ROUND` of the spec's own vectors (00_scope.md R22): round half away from zero. -/
def roundHalfAway (v : Rat) : Int := if v < 0 then -((-v + 1 / 2).floor) else (v + 1 / 2).floor

/-- The baselines, with the smallest lag range that 45_plc_analysis.md R353 allows. -/
def baseline : PlcParams where
  maxPit := 40
  minPit := 40
  dcA := 961 / 1000
  lpcWin := fun _ => 1
  lagW := fun _ => 1
  decimLp := fun _ => 1 / 9
  pitchSelect := fun _ => (10, none)
  classDowngrade := fun _ _ _ => .weaklyVoiced
  zcSafeguard := fun _ _ _ => false
  pulseAlign := fun _ t0 => t0
  jitterClass := fun c => decide (c = .voiced)
  attSlope := fun _ _ => 1 / 480
  attEnd := fun _ => 480
  xfTail := fun _ => 0
  reconvLeak := 97 / 100
  round := roundHalfAway

theorem test_attW_start : attW baseline .voiced 0 = 1 := by decide +kernel
theorem test_attW_middle : attW baseline .voiced 240 = 1 / 2 := by decide +kernel
theorem test_crossfade_ramp : (xfOut baseline { Plc.reset baseline with xfPos := 20 } 600).toInt = 10 := by
  decide +kernel
theorem test_crossfade_last : (xfOut baseline { Plc.reset baseline with xfPos := 79 } 600).toInt = 600 := by
  decide +kernel
theorem test_levinson_two : levinson (fun k => if k = 0 then 4 else 1) 2 = some [-1 / 5, -1 / 5] := by decide +kernel
theorem test_analyse_silence : (fun p : Plc => (p.cls, p.t0, p.tSyn, p.xfActive))
    (analyse baseline 0 0 (Plc.reset baseline)) = (.weaklyVoiced, 40, 40, false) := by decide +kernel

/-! ### Errors and the window (V525 to V528) -/

theorem test_error_opcode : (fun st : Status => (st.err, st.errCode.toNat))
    (after State.reset [cmdWordLine 0x00001056]).status = (true, 1) := by decide
theorem test_error_reserved : (fun st : Status => (st.err, st.errCode.toNat))
    (after State.reset [cmdWordLine 0x00001320]).status = (true, 2) := by decide
theorem test_error_first_kept :
    (after State.reset [.read 2 .w32, cmdWordLine 0x00000056]).status.errCode = 6 := by decide
theorem test_error_clear :
    (after State.reset ([cmdWordLine 0x00000056] ++ clrErr)).status = ⟨false, 0⟩ := by decide
theorem test_window_det : (after State.reset [rdAt 0x2E0]).bus.readData = 8 := by decide
theorem test_window_unmapped : (after State.reset [rdAt 0x3FFC]).bus.readData = 0 := by decide

/-! ### Witnesses: for each statement with hypotheses, states and operands that meet them -/

/-- A state after a loss, and one whose crossfade has samples left. -/
def lossPending : State :=
  { State.reset with plc := { Plc.reset profile.plc with prevBfi := true, episode := .firstLoss, cntL := 40, cntH := 40 } }

def crossfading (pos : Nat) : State :=
  { State.reset with plc := { Plc.reset profile.plc with xfActive := true, xfPos := pos } }

/-- A table of the reference profile, for the hypothesis that a mode has one: every mode that has one. -/
theorem witness_modes : profile.invq .bits6 = some profile.invq0 ∧ profile.invq .bits5 = some profile.invq1
    ∧ profile.invq .bits4 = some profile.invq2 := ⟨rfl, rfl, rfl⟩

/-- The masks of `LowBandEncode` and `BandDecode`, one for each of those modes. -/
theorem witness_masks : ∀ p ∈ ([(.bits6, 0x3F#6), (.bits5, 0x3E#6), (.bits4, 0x3C#6)] : List (LMode × BitVec 6)),
    (p.1 = .bits6 ∧ p.2 = 0x3F#6) ∨ (p.1 = .bits5 ∧ p.2 = 0x3E#6) ∨ (p.1 = .bits4 ∧ p.2 = 0x3C#6) := by decide

theorem witness_LowBandEncode : profile.invq .bits4 = some profile.invq2 ∧ (0x3C#6 = 0x3C#6) := ⟨rfl, rfl⟩

theorem witness_BandDecode : profile.invq .bits5 = some profile.invq1 ∧ (0x3E#6 = 0x3E#6) := ⟨rfl, rfl⟩

theorem witness_PairCommandsCompose : profile.invq .bits5 = some profile.invq1
    ∧ (Instr.encPair .bits3 .bits2).wellFormed profile = false
    ∧ (Instr.encPair .bits6 .bits3).wellFormed profile = false := ⟨rfl, by decide, by decide⟩

theorem witness_StepRunsDecodedCommand :
    ((host [cmdWrite 0x30]).bus.inputs = [cmdWrite 0x30] ∧ decode 0x30 = .ok (.encPair .bits6 .bits2))
    ∧ decodeTableWord 32 0x841 = some (.decFrame .bits6 .bits2 true) := by decide

/-- One word for each outcome of the checks, each failing that check and passing those before it. -/
theorem witness_CommandChecksInOrder :
    (host [cmdWrite 0x1056]).bus.inputs = [cmdWrite 0x1056] ∧ illegalOpcode ((0x1056#32 : Word).toNat % 256) = true
    ∧ illegalOpcode ((0x1430#32 : Word).toNat % 256) = false ∧ (0x1430#32 : Word).toNat / 4096 ≠ 0
    ∧ illegalOpcode ((0x320#32 : Word).toNat % 256) = false ∧ (0x320#32 : Word).toNat / 4096 = 0
      ∧ usesLmode ((0x320#32 : Word).toNat % 256) = true ∧ (0x320#32 : Word).toNat / 256 % 4 = 3
    ∧ usesLmode ((0x421#32 : Word).toNat % 256) = false ∧ usesHmode ((0x421#32 : Word).toNat % 256) = true
      ∧ (0x421#32 : Word).toNat / 1024 % 2 = 1
    ∧ usesHmode ((0x321#32 : Word).toNat % 256) = true ∧ usesLmode ((0x321#32 : Word).toNat % 256) = false
      ∧ (0x321#32 : Word).toNat / 1024 % 2 = 0 := by decide

/-- The edges of the illegal opcodes. -/
theorem witness_illegal_edges :
    ([0x05, 0x0F, 0x12, 0x1F, 0x24, 0x2F, 0x32, 0x3F, 0x42, 0x4F, 0x56, 0xFF] : List Nat).all illegalOpcode = true
    ∧ ([0x04, 0x10, 0x11, 0x20, 0x23, 0x30, 0x31, 0x40, 0x41, 0x50, 0x55] : List Nat).any illegalOpcode = false := by
  decide

theorem witness_ErrorRecording :
    ((host [.write 0x008#14 .w32 2]).bus.inputs = [.write 0x008#14 .w32 2] ∧ (2#32 : Word).toNat / 2 % 2 = 1)
    ∧ step (host [cmdWrite 0x56]) = .next ((host []).raiseError .illegalOpc)
    ∧ step (host [.read 0x008#14 .w32]) = .next (hostRead 0x008#14 .w32 (host [])) := ⟨by decide, rfl, rfl⟩

theorem witness_BusErrorHasNoEffect :
    (Width.w16 ≠ .w32 ∧ (host [.read 0x010#14 .w16]).bus.inputs = [.read 0x010#14 .w16])
    ∧ ((0x006#14).toNat % 4 ≠ 0 ∧ (host [.write 0x006#14 .w32 5]).bus.inputs = [.write 0x006#14 .w32 5]) := by decide

/-- Unimplemented and read-only words at the edges of their ranges. (An unimplemented word inside a context window is
both; the clauses agree there, since either makes a write do nothing.) -/
theorem witness_UnimplementedWords :
    ([0x048, 0x1FC, 0x270, 0x27C, 0x2F0, 0x360, 0x3FC, 0x4FC, 0x560, 0x624, 0x7FC, 0xD00, 0x1280, 0x1A80, 0x2280, 0x3FFC]
      : List Nat).all (fun o => unimplementedOffset o && o % 4 == 0) = true
    ∧ ([0x000, 0x02C, 0x038, 0x044, 0x200, 0x35C, 0x400, 0x55C, 0x600, 0x620, 0x1800, 0x1A7C, 0x2000, 0x227C]
      : List Nat).all (fun o => readOnlyOffset o && o % 4 == 0) = true
    ∧ (host [.read 0x3FFC#14 .w32]).bus.inputs = [.read 0x3FFC#14 .w32]
    ∧ (host [.write 0x000#14 .w32 9]).bus.inputs = [.write 0x000#14 .w32 9]
    ∧ (host [.write 0x008#14 .w32 0xFFFFFFFD]).bus.inputs = [.write 0x008#14 .w32 0xFFFFFFFD]
    ∧ (0xFFFFFFFD#32 : Word).toNat / 2 % 2 = 0 := by decide

theorem witness_AccessSideEffects :
    (host [.read 0x008#14 .w32]).bus.inputs = [.read 0x008#14 .w32] ∧ (0x008#14).toNat % 4 = 0
    ∧ (host [.write 0x800#14 .w32 7]).bus.inputs = [.write 0x800#14 .w32 7] ∧ (0x800#14).toNat ≠ 0x004
      ∧ ¬ ((0x800#14).toNat = 0x008 ∧ (7#32 : Word).toNat / 2 % 2 = 1)
    ∧ ¬ ((0x008#14).toNat = 0x008 ∧ (1#32 : Word).toNat / 2 % 2 = 1) := by decide

theorem witness_FrameLengthRegister :
    (host [.write 0x00C#14 .w32 160]).bus.inputs = [.write 0x00C#14 .w32 160]
    ∧ (host [.write 0x00C#14 .w32 161]).bus.inputs = [.write 0x00C#14 .w32 161]
    ∧ (host [.read 0x00C#14 .w32]).regs.Ok ∧ (host [.read 0x00C#14 .w32]).bus.inputs = [.read 0x00C#14 .w32] :=
  ⟨rfl, rfl, ⟨by decide, by decide⟩, rfl⟩

theorem witness_DataRegisters :
    (host [.read (BitVec.ofNat 14 (regOffset .satR)) .w32]).bus.inputs
      = [.read (BitVec.ofNat 14 (regOffset .satR)) .w32]
    ∧ (host [.write (BitVec.ofNat 14 (regOffset .x0)) .w32 0x12348000]).bus.inputs
      = [.write (BitVec.ofNat 14 (regOffset .x0)) .w32 0x12348000]
    ∧ HostReg.x0 ∈ ([.x0, .x1, .xl, .xh, .il, .ih, .code, .satA, .satB] : List HostReg)
    ∧ (host [.write (BitVec.ofNat 14 (regOffset .satR)) .w32 1]).bus.inputs
      = [.write (BitVec.ofNat 14 (regOffset .satR)) .w32 1]
    ∧ HostReg.satR ∈ ([.y0, .y1, .nsTgt, .nsErr, .satR] : List HostReg) := by decide

theorem witness_StatusRegister :
    (host [.write 0x008#14 .w32 2]).bus.inputs = [.write 0x008#14 .w32 2]
    ∧ (State.reset.status.err = false → State.reset.status.errCode = 0)
    ∧ step (host [cmdWrite 0x56]) = .next ((host []).raiseError .illegalOpc) := ⟨rfl, fun _ => rfl, rfl⟩

/-- Both ends of both context windows. -/
theorem witness_ContextWindows :
    (([0x200#14, 0x35C#14, 0x3FC#14, 0x400#14, 0x5FC#14] : List (BitVec 14)).all fun o =>
      o.toNat % 4 = 0 && 0x200 ≤ o.toNat && o.toNat < 0x600) = true
    ∧ (∀ o : BitVec 14, (host [.read o .w32]).bus.inputs = [.read o .w32])
    ∧ (∀ o : BitVec 14, (host [.write o .w32 1]).bus.inputs = [.write o .w32 1]) :=
  ⟨by decide, fun _ => rfl, fun _ => rfl⟩

/-- Both ends of the PLC window; every count is 0 after reset. -/
theorem witness_PlcWindow :
    (([0x600#14, 0x620#14, 0x624#14, 0x7FC#14] : List (BitVec 14)).all fun o =>
      o.toNat % 4 = 0 && 0x600 ≤ o.toNat && o.toNat < 0x800) = true
    ∧ (∀ o : BitVec 14, (host [.read o .w32]).bus.inputs = [.read o .w32])
    ∧ (∀ o : BitVec 14, (host [.write o .w32 1]).bus.inputs = [.write o .w32 1])
    ∧ 0 < 2 ^ 32 ∧ classNumber State.reset.plc.cls = 0 ∧ State.reset.plc.t0 = 0
    ∧ episodeNumber State.reset.plc.episode = 0 ∧ State.reset.plc.prevBfi.toNat = 0 ∧ State.reset.plc.cntL = 0
    ∧ State.reset.plc.cntH = 0 ∧ State.reset.plc.xfPos = 0 ∧ State.reset.plc.xfActive.toNat = 0
    ∧ State.reset.plc.tSyn = 0 :=
  ⟨by decide, fun _ => rfl, fun _ => rfl, by decide, rfl, rfl, rfl, rfl, rfl, rfl, rfl, rfl, rfl⟩

/-- The first and the last element of each buffer. -/
theorem witness_BufferWords :
    State.reset.mem.wf = true ∧ 0 < 320 ∧ 319 < 320 ∧ 0 < 160 ∧ 159 < 160
    ∧ (∀ (o : BitVec 14) (v : Word), (host [.write o .w32 v]).bus.inputs = [.write o .w32 v])
    ∧ (∀ o : BitVec 14, (host [.read o .w32]).bus.inputs = [.read o .w32])
    ∧ (0 : Word) = (State.reset.mem.pcm 319).signExtend 32 ∧ (0 : Word) = (State.reset.mem.code 159).setWidth 32
    ∧ (0 : Word) = (State.reset.mem.nst 159).signExtend 32 ∧ (0 : Word) = (State.reset.mem.nse 159).signExtend 32 :=
  ⟨rfl, by decide, by decide, by decide, by decide, fun _ _ => rfl, fun _ => rfl, rfl, rfl, rfl, rfl⟩

theorem witness_PowerOnReset : (host [.powerOnReset]).bus.inputs = [.powerOnReset]
    ∧ HostReg.x0 ≠ .id ∧ HostReg.x0 ≠ .frameLen := by decide

theorem witness_NopChangesNothing : (host [cmdWrite 0xB00]).bus.inputs = [cmdWrite 0xB00]
    ∧ (0xB00#32 : Word).toNat % 256 = 0 ∧ (0xB00#32 : Word).toNat / 4096 = 0
    ∧ (0x80000000#32 : Word).toNat % 256 = 0 ∧ (0x80000000#32 : Word).toNat / 4096 ≠ 0 := by decide

theorem witness_ResetCommands : Instr.resetAll ∈ ([.resetEnc, .resetDec, .plcReset, .resetAll] : List Instr)
    ∧ exec .resetAll State.reset = .next ((State.reset.resetEnc.resetDec).resetPlc profile.plc)
    ∧ exec .plcReset State.reset = .next (State.reset.resetPlc profile.plc) := ⟨by decide, rfl, rfl⟩

/-- One encoding, one decoding alone, and a step count that ends with the read of each. -/
theorem witness_ResetForgetsHistory :
    profile.invq .bits6 = some profile.invq0
    ∧ (let prog := [command .resetEnc, command .resetDec] ++ encodeLine 1000 2000 .bits6 .bits2 ++ [rdReg .code]
      6 ≤ prog.length ∧ rdReg .code ∈ prog.take 6)
    ∧ (let prog := [command .resetEnc, command .resetDec] ++ decodeLine 250 .bits6 .bits2 ++ [rdReg .y0]
      5 ≤ prog.length ∧ rdReg .y0 ∈ prog.take 5)
    ∧ State.reset.regs.frameLen = lossPending.regs.frameLen ∧ State.reset.mem = lossPending.mem :=
  ⟨rfl, by decide, by decide, rfl, rfl⟩

theorem witness_FixedPointPrimitives : 16 ≤ 16 ∧ 15 ≤ 15 := by decide

theorem witness_AdaptBounds : BandId.low = .low ∧ BandId.high = .high := by decide

theorem witness_AdaptHalvesIndependent : (Band.reset 8).nb = (Band.reset 32).nb := by decide

theorem witness_QuantizerMonotone :
    (0 : Int) ≤ 1 ∧ (-1 : I16).toInt = -((0 : I16).toInt + 1) ∧ 1 ≤ 29 ∧ 29 < 30 ∧ 30 ≤ 30
    ∧ quantMag (-32768) ≤ quantMag 32767 := by decide

/-- Equal contexts after reset; each band's encoding and decoding answer a next state. -/
theorem witness_EncoderDecoderAgree :
    State.reset.enc.L = State.reset.dec.L ∧ State.reset.enc.H = State.reset.dec.H
    ∧ profile.invq .bits5 = some profile.invq1
    ∧ exec (.encL .bits5) State.reset = .next (State.reset.encL profile profile.invq1 .bits5)
    ∧ exec (.decL .bits5) (State.reset.encL profile profile.invq1 .bits5)
      = .next ((State.reset.encL profile profile.invq1 .bits5).decL profile profile.invq1 .bits5)
    ∧ exec (.encH .bits2) State.reset = .next (State.reset.encH profile)
    ∧ exec (.decH .bits2) (State.reset.encH profile) = .next ((State.reset.encH profile).decH profile) :=
  ⟨rfl, rfl, rfl, exec_encL _ _ _ rfl, exec_decL _ _ _ rfl, exec_encH _, exec_decH _⟩

theorem reset_regs_ok : State.reset.regs.Ok := ⟨by decide, by decide⟩

theorem witness_EncFrameIsPairs :
    profile.invq .bits6 = some profile.invq0 ∧ State.reset.regs.Ok ∧ State.reset.mem.wf = true
    ∧ (Instr.encFrame .bits6 .bits3).wellFormed profile = false := ⟨rfl, reset_regs_ok, rfl, by decide⟩

theorem witness_GoodFrameIsPairs :
    profile.invq .bits4 = some profile.invq2 ∧ State.reset.regs.Ok ∧ State.reset.mem.wf = true
    ∧ State.reset.plc.prevBfi = false ∧ State.reset.plc.xfActive = false := ⟨rfl, reset_regs_ok, rfl, rfl, rfl⟩

theorem witness_FrameRoundTrip :
    profile.invq .bits6 = some profile.invq0 ∧ State.reset.regs.Ok ∧ State.reset.mem.wf = true
    ∧ State.reset.plc.prevBfi = false ∧ State.reset.enc.L = State.reset.dec.L
    ∧ State.reset.enc.H = State.reset.dec.H
    ∧ exec (.encFrame .bits6 .bits2) State.reset = .next (State.reset.encFrame profile profile.invq0 .bits6)
    ∧ exec (.decFrame .bits6 .bits2 false) (State.reset.encFrame profile profile.invq0 .bits6)
      = .next ((State.reset.encFrame profile profile.invq0 .bits6).decGood profile profile.invq0 .bits6) :=
  ⟨rfl, reset_regs_ok, rfl, rfl, rfl, rfl, exec_encFrame _ _ _ rfl, exec_decFrame_good _ _ _ rfl⟩

theorem witness_GoodFrame :
    profile.invq .bits6 = some profile.invq0 ∧ State.reset.mem.wf = true ∧ State.reset.regs.Ok
    ∧ lossPending.mem.wf = true ∧ lossPending.regs.Ok ∧ lossPending.plc.prevBfi = true
    ∧ (crossfading 79).plc.xfActive = true ∧ (Instr.decFrame .bits3 .bits2 false).wellFormed profile = false :=
  ⟨rfl, rfl, reset_regs_ok, rfl, reset_regs_ok, rfl, rfl, by decide⟩

theorem witness_LostFrame :
    profile.invq .bits6 = some profile.invq0 ∧ State.reset.mem.wf = true ∧ lossPending.mem.wf = true
    ∧ lossPending.plc.prevBfi = true ∧ State.reset.plc.prevBfi = false := ⟨rfl, rfl, rfl, rfl, rfl⟩

theorem witness_LostFrameIgnoresBuffers :
    State.reset.mem.wf = true ∧ Memory.wf [(0x1000, 250)] = true ∧ LMode.bits6 ≠ .bits3
    ∧ exec (.decFrame .bits6 .bits2 true) State.reset = .next (State.reset.decLost profile) :=
  ⟨rfl, by decide, by decide, exec_decFrame_lost .bits6 State.reset profile.invq0 rfl⟩

theorem witness_CommandRegisters :
    exec (.encH .bits2) State.reset = .next (State.reset.encH profile)
    ∧ HostReg.x0 ∉ regsWritten (.encH .bits2) ∧ HostReg.x0 ≠ .status
    ∧ (Instr.encH .bits2).wellFormed profile = true
    ∧ exec (.encH .bits2) (State.reset.loadPair 1 2) = .next ((State.reset.loadPair 1 2).encH profile)
    ∧ (∀ r ∈ regsRead (.encH .bits2), readReg State.reset r = readReg (State.reset.loadPair 1 2) r) :=
  ⟨rfl, by decide, by decide, by decide, rfl, by decide⟩

theorem witness_ContextWriters :
    exec .qmfTx State.reset = .next (State.reset.qmfTx profile) ∧ writesDec .qmfTx = false
    ∧ writesPlc .qmfTx = false ∧ writesBuffers .qmfTx = false ∧ writesEnc .qmfRx = false
    ∧ Instr.qmfTx.wellFormed profile = true
    ∧ (host [rdAt 0x200]).bus.inputs = [rdAt 0x200]
    ∧ step (host [rdAt 0x200]) = .next (hostRead 0x200#14 .w32 (host [])) ∧ rdAt 0x200 ≠ .powerOnReset
    ∧ (∀ v : Word, rdAt 0x200 ≠ cmdWrite v) :=
  ⟨rfl, rfl, rfl, rfl, rfl, by decide, rfl, rfl, by decide, fun _ h => by cases h⟩

/-- Histories of the right length, and a frame. -/
theorem witness_PushHistory (n : Nat) :
    (Plc.reset profile.plc).histL.length = profile.plc.histLen ∧ (Plc.reset profile.plc).histH.length = 160
    ∧ (List.replicate n (7 : I16)).length = (List.replicate n (9 : I16)).length :=
  ⟨List.length_replicate, List.length_replicate, by simp⟩

/-- An autocorrelation the recursion is ok on. -/
theorem witness_LevinsonSolvesNormalEquations :
    levinson (fun k => if k = 0 then 4 else 1) 2 = some [-1 / 5, -1 / 5] ∧ (1 ≤ 1 ∧ 1 ≤ 2) ∧ (1 ≤ 2 ∧ 2 ≤ 2) :=
  ⟨test_levinson_two, by decide, by decide⟩

/-- A candidate of the refinement sets, whatever the excitation: four times the selected lag. -/
theorem witness_PitchLagIsBest (c : List Rat) : let P := profile.plc
    let τ := (P.pitchSelect c).1
    max P.minPit (4 * τ - 2) ≤ 4 * τ ∧ 4 * τ ≤ min P.maxPit (4 * τ + 2) := by
  have h : Config.plc.tauMin ≤ (Config.plc.pitchSelect c).1 ∧ (Config.plc.pitchSelect c).1 ≤ Config.plc.tauMax :=
    Config.tauInRange_mem _
  unfold PlcParams.tauMin PlcParams.tauMax at h
  change max Config.plc.minPit (4 * (Config.plc.pitchSelect c).1 - 2) ≤ 4 * (Config.plc.pitchSelect c).1
    ∧ 4 * (Config.plc.pitchSelect c).1 ≤ min Config.plc.maxPit (4 * (Config.plc.pitchSelect c).1 + 2)
  omega

/-- An excitation whose last cycle exceeds 8 times the peak of the prior one, and one whose prior cycle is silent. -/
theorem witness_TransientLimitsTheLastCycle :
    let loud := List.replicate 41 (0 : Rat) ++ (List.replicate 20 1 ++ List.replicate 20 9)
    loud.length = baseline.excLen ∧ 2 * 20 ≤ baseline.excLen ∧ 0 < peak (priorCycle baseline 20 loud)
    ∧ (∃ x ∈ lastCycle baseline 20 loud, 8 * peak (priorCycle baseline 20 loud) < |x|)
    ∧ (List.replicate 81 (0 : Rat)).length = baseline.excLen
    ∧ ¬ 0 < peak (priorCycle baseline 20 (List.replicate 81 0)) := by
  refine ⟨by decide, by decide, by decide +kernel, ⟨9, by decide +kernel, ?_⟩, by decide, by decide +kernel⟩
  have : peak (priorCycle baseline 20
      (List.replicate 41 (0 : Rat) ++ (List.replicate 20 1 ++ List.replicate 20 9))) = 1 := by decide +kernel
  rw [this, abs_of_pos (by norm_num : (0 : Rat) < 9)]
  norm_num

/-- The baseline decrements, with a count in each of the ranges and at their ends. -/
theorem witness_AttenuationWeight :
    (∀ k : Nat, 0 ≤ baseline.attSlope .voiced k) ∧ baseline.attEnd .voiced ≠ 0 ∧ 0 ≤ 479
    ∧ baseline.attEnd .voiced ≤ 480 ∧ (80 < baseline.attEnd .voiced ∧ 80 ≤ 80)
    ∧ (160 < baseline.attEnd .voiced ∧ 80 ≤ 160 ∧ 160 ≤ 160) ∧ (479 < baseline.attEnd .voiced ∧ 160 ≤ 479) :=
  ⟨fun _ => by show (0 : Rat) ≤ 1 / 480; norm_num, by decide, by decide, by decide, by decide, by decide, by decide⟩

/-- The machine's own parameters meet the hypothesis of `AttenuationWeight`. -/
theorem witness_AttenuationWeight_profile (cls : SigClass) (k : Nat) : 0 ≤ profile.plc.attSlope cls k :=
  Config.attSlope_nonneg cls k

theorem witness_CrossfadeSchedule :
    (crossfading 0).plc.xfPos < 80 ∧ (crossfading 19).plc.xfPos < 20 ∧ 20 ≤ (crossfading 20).plc.xfPos
    ∧ (crossfading 79).plc.xfPos < 80 ∧ (crossfading 79).plc.xfPos = 79 := by decide

theorem reset_ctx_ok : Ctx.reset.Ok profile := by
  constructor <;> constructor <;> decide +kernel

theorem witness_ReconvergeKeepsBounds :
    Ctx.reset.Ok profile ∧ 160 < ({ Plc.reset profile.plc with cntH := 161 } : Plc).cntH
    ∧ ¬ 160 < ({ Plc.reset profile.plc with cntH := 160 } : Plc).cntH := ⟨reset_ctx_ok, by decide, by decide⟩

theorem witness_LossFromCleanStart : profile.invq .bits6 = some profile.invq0 ∧ State.reset.mem.wf = true := ⟨rfl, rfl⟩

theorem witness_StepKeepsBufferForm :
    State.reset.mem.wf = true ∧ step (host [cmdWrite 0x40]) = .next ((host []).encFrame profile profile.invq0 .bits6) :=
  ⟨rfl, exec_encFrame .bits6 (host []) profile.invq0 rfl⟩

theorem witness_StepKeepsBandBounds :
    State.reset.enc.Ok profile ∧ State.reset.dec.Ok profile
    ∧ step (host [cmdWrite 0x41]) = .next ((host []).decGood profile profile.invq0 .bits6) :=
  ⟨reset_ctx_ok, reset_ctx_ok, exec_decFrame_good .bits6 (host []) profile.invq0 rfl⟩

theorem witness_StepKeepsPlcShape :
    State.reset.plc.Ok profile.plc
    ∧ step (host [cmdWrite 0x841]) = .next ((host []).decLost profile) := by
  refine ⟨?_, exec_decFrame_lost .bits6 (host []) profile.invq0 rfl⟩
  exact {
    histL_len := List.length_replicate, histH_len := List.length_replicate, exc_len := List.length_replicate
    lpc_len := rfl, synMem_len := rfl, xfBuf_len := List.length_replicate, hbPer_len := List.length_replicate
    t0_range := .inl rfl, tSyn_eq := .inl rfl, cnt_eq := rfl, wL_lo := zero_le_one, wL_hi := le_refl _
    wH_lo := zero_le_one, wH_hi := le_refl _, xfPos_le := by decide, xfActive_pos := fun h => nomatch h
    xfActive_good := fun h => (nomatch h), hbPhase_lt := by decide, episode_none := ⟨fun _ => rfl, fun _ => rfl⟩ }

theorem witness_StepKeepsRegisterRanges :
    State.reset.regs.Ok ∧ State.reset.status.Ok ∧ State.reset.mem.inBuffers = true
    ∧ step (host [cmdWrite 0x40]) = .next ((host []).encFrame profile profile.invq0 .bits6) :=
  ⟨reset_regs_ok, ⟨fun _ => rfl, fun h => by cases h⟩, rfl, exec_encFrame .bits6 (host []) profile.invq0 rfl⟩

/-! ### The acceptance theorems of Laws/Acceptance.lean: their hypotheses are met -/

/-- A trial whose first frame, and no other, is lost: its recovery is as continuous as a second lost frame, plus 96. -/
theorem witness_continuous_of_concealment (T : Trial) :
    let U : Trial := { T with frameLen := 40, first := 0, count := 1 }
    U.ContinuousWithin profile (U.longer.jump profile 1 + 96) := by
  intro U
  have h := Trial.continuous_of_concealment profile U (U.longer.jump profile 1) (show 0 < 40 by decide)
    (show 0 < 1 by decide)
    (Trial.first_lost_cls U rfl rfl) (fun h => absurd h (Nat.lt_irrefl 0)) le_rfl
  rwa [rxSlack_profile] at h

/-- A trial without a loss has equal contexts after two frames of 40. -/
theorem witness_reconverges_of_contexts (T : Trial) :
    let U : Trial := { T with frameLen := 40, first := 0, count := 0 }
    U.ReconvergesWithin profile 2 := by
  intro U
  exact (Trial.reconverges_of_contexts profile U 2 (show 40 ≤ 160 by decide) (show 80 ≤ 2 * 40 by decide)
    (by rw [Trial.decAt_of_no_loss profile U rfl])).1

end Sys2Proof.Machine.Tests
end

/-! PROOFS. The state (10_state.md): what every command and every step keeps, and the obligations of that family. -/

namespace Sys2Proof.Machine

/-! ### What every command keeps, and what every step keeps

A property of states is shown to be kept stage by stage: a stage that does not touch what the property speaks of needs
no argument, and is left to its default. -/

/-- `p` survives the effect of every stage that a command is made of, but for an error. -/
structure KeptByStages (p : State → Prop) : Prop where
  resetEnc : ∀ s, p s → p s.resetEnc := by intros; assumption
  resetDec : ∀ s, p s → p s.resetDec := by intros; assumption
  resetPlc : ∀ s, p s → p (s.resetPlc profile.plc) := by intros; assumption
  qmfTx : ∀ s, p s → p (s.qmfTx profile) := by intros; assumption
  qmfRx : ∀ s, p s → p (s.qmfRx profile) := by intros; assumption
  encL : ∀ q m s, p s → p (s.encL profile q m) := by intros; assumption
  encH : ∀ s, p s → p (s.encH profile) := by intros; assumption
  decL : ∀ q m s, p s → p (s.decL profile q m) := by intros; assumption
  decH : ∀ s, p s → p (s.decH profile) := by intros; assumption
  packCode : ∀ s, p s → p s.packCode := by intros; assumption
  unpackCode : ∀ s, p s → p s.unpackCode := by intros; assumption
  encFrame : ∀ q m s, p s → p (s.encFrame profile q m) := by intros; assumption
  decGood : ∀ q m s, p s → p (s.decGood profile q m) := by intros; assumption
  decLost : ∀ s, p s → p (s.decLost profile) := by intros; assumption
  setSatR : ∀ v s, p s → p (s.setSatR v) := by intros; assumption

/-- A command ends with a mode error, or keeps what its stages keep. -/
theorem KeptByStages.exec {p : State → Prop} (hp : KeptByStages p) {i : Instr} {s t : State}
    (h : exec i s = .next t) (hs : p s) :
    (i.wellFormed profile = false ∧ t = s.raiseError .rsvdMode) ∨ p t := by
  rcases exec_cases i s t h with herr | ⟨-, rfl⟩ | ⟨-, rfl⟩ | ⟨-, rfl⟩ | ⟨-, rfl⟩ | ⟨-, rfl⟩ | ⟨-, rfl⟩ | ⟨-, rfl⟩
    | ⟨m, q, -, -, rfl⟩ | ⟨-, rfl⟩ | ⟨m, q, -, -, rfl⟩ | ⟨-, rfl⟩ | ⟨m, q, -, -, rfl⟩ | ⟨m, q, -, -, rfl⟩
    | ⟨m, q, -, -, rfl⟩ | ⟨m, q, -, -, rfl⟩ | ⟨m, q, -, -, rfl⟩ | ⟨v, -, rfl⟩
  case inl => exact .inl herr
  all_goals right
  · exact hs
  · exact hp.resetEnc _ hs
  · exact hp.resetDec _ hs
  · exact hp.resetPlc _ hs
  · exact hp.resetPlc _ (hp.resetDec _ (hp.resetEnc _ hs))
  · exact hp.qmfTx _ hs
  · exact hp.qmfRx _ hs
  · exact hp.encL _ _ _ hs
  · exact hp.encH _ hs
  · exact hp.decL _ _ _ hs
  · exact hp.decH _ hs
  · exact hp.packCode _ (hp.encH _ (hp.encL _ _ _ (hp.qmfTx _ hs)))
  · exact hp.qmfRx _ (hp.decH _ (hp.decL _ _ _ (hp.unpackCode _ hs)))
  · exact hp.encFrame _ _ _ hs
  · exact hp.decGood _ _ _ hs
  · exact hp.decLost _ hs
  · exact hp.setSatR _ _ hs

/-- `p` survives everything a step is made of: the stages of a command, an error, a change of the host's side of the
window, a host write to a word other than `CMD`, and the reset input. -/
structure KeptBySteps (p : State → Prop) : Prop extends KeptByStages p where
  raiseError : ∀ e s, p s → p (s.raiseError e) := by intros; assumption
  setInputs : ∀ xs s, p s → p (s.setInputs xs) := by intros; assumption
  answer : ∀ v s, p s → p (s.answer v) := by intros; assumption
  write : ∀ v (o : BitVec 14) s, p s → p (writeTarget v s (targetAt o.toNat))
  powerOn : ∀ s, p s → p s.powerOn

theorem KeptBySteps.read {p : State → Prop} (hp : KeptBySteps p) (o : BitVec 14) (w : Width) (s : State) (hs : p s) :
    p (hostRead o w s) := by
  unfold hostRead
  split
  · exact hp.answer _ _ hs
  · exact hp.answer _ _ (hp.raiseError _ _ hs)

/-- A step keeps what its parts keep. -/
theorem KeptBySteps.step {p : State → Prop} (hp : KeptBySteps p) {s t : State} (h : step s = .next t) (hs : p s) :
    p t := by
  rcases step_cases s t h with ⟨-, rfl⟩ | ⟨o, w, rest, -, rfl⟩ | ⟨o, w, v, rest, -, -, rfl⟩
    | ⟨o, w, v, rest, -, -, -, rfl⟩ | ⟨o, w, v, rest, e, -, -, -, -, rfl⟩ | ⟨o, w, v, rest, i, -, -, -, -, he⟩
    | ⟨rest, -, rfl⟩
  · exact hs
  · exact hp.read _ _ _ (hp.setInputs _ _ hs)
  · exact hp.raiseError _ _ (hp.setInputs _ _ hs)
  · exact hp.write _ _ _ (hp.setInputs _ _ hs)
  · exact hp.raiseError _ _ (hp.setInputs _ _ hs)
  · rcases hp.toKeptByStages.exec he (hp.setInputs _ _ hs) with ⟨-, rfl⟩ | ht
    · exact hp.raiseError _ _ (hp.setInputs _ _ hs)
    · exact ht
  · exact hp.powerOn _ (hp.setInputs _ _ hs)

/-! ### The canonical form of the buffers -/

theorem wf_encSample (P : Profile) (q : BitVec 6 → I16) (m : LMode) (n : Nat) (r : EncRun) (h : r.mem.wf = true) :
    (encSample P q m n r).mem.wf = true :=
  Memory.wf_setNse _ _ _ (Memory.wf_setNst _ _ _ (Memory.wf_setCode _ _ _ h))

theorem wf_writeTarget (v : Word) (s : State) (w : Target) (h : s.mem.wf = true) :
    (writeTarget v s w).mem.wf = true := by
  cases w with
  | reg r => cases r <;> exact h
  | pcm k => exact Memory.wf_setPcm _ _ _ h
  | code k => exact Memory.wf_setCode _ _ _ h
  | _ => exact h

theorem wf_kept : KeptBySteps fun s => s.mem.wf = true where
  encFrame q m s h := forN_keeps (fun r : EncRun => r.mem.wf = true) _ _ _ h fun n r _ => wf_encSample _ _ _ n r
  decGood q m s h := State.decGood_wf _ q m s h
  decLost s h := State.decLost_wf _ s h
  write v _ s h := wf_writeTarget v s _ h
  powerOn _ _ := Memory.wf_nil

/-- Settles O55: the buffers are written element by element, and every such write keeps the canonical form. -/
theorem stepKeepsBufferForm : Obligations.StepKeepsBufferForm :=
  fun _ _ hs h => wf_kept.step h hs

/-! ### The bounds of the band sub-states -/

/-- The step-size table's index as `scale` forms it and as `Band.Ok` writes it. -/
theorem toNat_shiftR_six (v : Int) (h : 0 ≤ v) : (shiftR v 6).toNat = v.toNat / 64 := by
  unfold shiftR; omega

/-- The log step size after a sample (42_adpcm_adapt.md R232). -/
theorem adapt_nb_mem (P : Profile) (B : Band) (d w : I16) (k : BandId) :
    0 ≤ (adapt P B d w k).nb.toInt ∧ (adapt P B d w k).nb.toInt ≤ nbMax k := by
  have hk : 0 ≤ nbMax k ∧ nbMax k ≤ 32767 := by cases k <;> decide
  rw [adapt_nb, toInt_clamp16 _ _ _ (by omega) hk.1 hk.2]
  exact ⟨clamp_lo .., clamp_hi _ _ _ hk.1⟩

/-- One adaptation gives every bound and convention; only the zero coefficients of index 0 need the sub-state before
it. -/
theorem Band.Ok.adapt {P : Profile} {k : BandId} {B : Band} (h : B.Ok P k) (d w : I16) :
    (adapt P B d w k).Ok P k := by
  obtain ⟨ha2_lo, ha2_hi⟩ := uppol2_mem P (partialStep B d)
  obtain ⟨ha1_lo, ha1_hi⟩ := uppol1_mem P (partialStep B d) _ ha2_lo ha2_hi
  obtain ⟨hnb_lo, hnb_hi⟩ := adapt_nb_mem P B d w k
  exact {
    a0 := by rw [adapt_a]; exact h.a0
    b0 := by rw [adapt_b]; exact h.b0
    a2_lo := by rw [adapt_a]; exact ha2_lo
    a2_hi := by rw [adapt_a]; exact ha2_hi
    a1_lo := by rw [adapt_a]; exact ha1_lo
    a1_hi := by rw [adapt_a]; exact ha1_hi
    nb_lo := hnb_lo
    nb_hi := hnb_hi
    det_eq := by rw [← toNat_shiftR_six _ hnb_lo]; exact adapt_det ..
    d01 := by rw [adapt_d]; rfl
    p01 := by rw [adapt_p]; rfl
    r01 := by rw [adapt_r]; rfl
    sp_eq := adapt_sp ..
    sz_eq := adapt_sz ..
    s_eq := adapt_s .. }

theorem Band.Ok.encLF {B : Band} (h : B.Ok profile .low) (q : BitVec 6 → I16) (m : LMode) (xl : I16) :
    (encLF profile q m B xl).B.Ok profile .low := h.adapt _ _

theorem Band.Ok.encHF {B : Band} (h : B.Ok profile .high) (xh : I16) : (encHF profile B xh).B.Ok profile .high :=
  h.adapt _ _

theorem Band.Ok.decLF {B : Band} (h : B.Ok profile .low) (q : BitVec 6 → I16) (m : LMode) (il : BitVec 6) :
    (decLF profile q m B il).B.Ok profile .low := h.adapt _ _

theorem Band.Ok.decHF {B : Band} (h : B.Ok profile .high) (ih : BitVec 2) : (decHF profile B ih).B.Ok profile .high :=
  h.adapt _ _

/-! ### Re-convergence keeps the bounds (46_plc_synthesis.md R396) -/

/-- A coefficient after the leak, under the machine's parameters. -/
def leak (x : I16) : I16 := round16 profile.plc (profile.plc.reconvLeak * ratOf x)

/-- The leak errs by less than 1. -/
theorem leak_near (x : I16) : Config.reconvLeak * (x.toInt : Rat) - 1 < ((leak x).toInt : Rat)
    ∧ ((leak x).toInt : Rat) < Config.reconvLeak * (x.toInt : Rat) + 1 := by
  have hnear := Config.plcRound_near (Config.reconvLeak * (x.toInt : Rat))
  obtain ⟨hc0, hc1⟩ := Config.reconvLeak_mem
  have hx0 : (-32768 : Rat) ≤ x.toInt := by exact_mod_cast i16_lo x
  have hx1 : (x.toInt : Rat) ≤ 32767 := by exact_mod_cast i16_hi x
  have hr : (leak x).toInt = clamp (Config.plcRound (Config.reconvLeak * (x.toInt : Rat))) (-32768) 32767 :=
    toInt_sat16 _
  generalize Config.plcRound (Config.reconvLeak * (x.toInt : Rat)) = r at hnear hr
  have h0 : (-32769 : Rat) < r := by nlinarith
  have h1 : (r : Rat) < 32768 := by nlinarith
  have h0' : (-32769 : Int) < r := by exact_mod_cast h0
  have h1' : r < (32768 : Int) := by exact_mod_cast h1
  rwa [hr, clamp_of_mem _ _ _ (by omega) (by omega)]

/-- The leak keeps the bound of `a[2]`. -/
theorem leak_a2_mem (x : I16) (h0 : -12288 ≤ x.toInt) (h1 : x.toInt ≤ 12288) :
    -12288 ≤ (leak x).toInt ∧ (leak x).toInt ≤ 12288 := by
  obtain ⟨hl, hh⟩ := leak_near x
  obtain ⟨hc0, hc1⟩ := Config.reconvLeak_mem
  have hx0 : (-12288 : Rat) ≤ x.toInt := by exact_mod_cast h0
  have hx1 : (x.toInt : Rat) ≤ 12288 := by exact_mod_cast h1
  have hlo : (-12289 : Rat) < ((leak x).toInt : Rat) := by nlinarith
  have hhi : ((leak x).toInt : Rat) < 12289 := by nlinarith
  have hlo' : (-12289 : Int) < (leak x).toInt := by exact_mod_cast hlo
  have hhi' : (leak x).toInt < (12289 : Int) := by exact_mod_cast hhi
  omega

/-- The leak keeps the bound of `a[1]`: it takes at least 1 off 15360, and the two roundings add less than 2. -/
theorem leak_a1_mem (a1 a2 : I16) (h0 : -(15360 - a2.toInt) ≤ a1.toInt) (h1 : a1.toInt ≤ 15360 - a2.toInt) :
    -(15360 - (leak a2).toInt) ≤ (leak a1).toInt ∧ (leak a1).toInt ≤ 15360 - (leak a2).toInt := by
  obtain ⟨hl1, hh1⟩ := leak_near a1
  obtain ⟨hl2, hh2⟩ := leak_near a2
  obtain ⟨hc0, hc1⟩ := Config.reconvLeak_mem
  have hx0 : -(15360 - (a2.toInt : Rat)) ≤ a1.toInt := by exact_mod_cast h0
  have hx1 : (a1.toInt : Rat) ≤ 15360 - a2.toInt := by exact_mod_cast h1
  have hlo : ((leak a2).toInt : Rat) - (leak a1).toInt < 15361 := by nlinarith
  have hhi : ((leak a1).toInt : Rat) + (leak a2).toInt < 15361 := by nlinarith
  have hlo' : (leak a2).toInt - (leak a1).toInt < 15361 := by exact_mod_cast hlo
  have hhi' : (leak a1).toInt + (leak a2).toInt < 15361 := by exact_mod_cast hhi
  omega

/-- The reset step size of a band (46_plc_synthesis.md R395). -/
def detReset : BandId → I16
  | .low => detL0
  | .high => detH0

theorem detReset_eq (k : BandId) : detReset k = profile.ila (ilaOff profile k) := by cases k <;> decide

section Reconvergence

variable (plc : Plc) (det : I16) (B : Band) (hist : List I16) (len : Nat)

theorem reconvOne_a : (reconvOne profile plc det B hist len).a = #v[B.a[0], leak B.a[1], leak B.a[2]] := by
  unfold reconvOne reconvStep; split <;> rfl

theorem reconvOne_b : (reconvOne profile plc det B hist len).b =
    #v[B.b[0], leak B.b[1], leak B.b[2], leak B.b[3], leak B.b[4], leak B.b[5], leak B.b[6]] := by
  unfold reconvOne reconvStep; split <;> rfl

theorem reconvOne_d : (reconvOne profile plc det B hist len).d = #v[0, 0, 0, 0, 0, 0, 0] := by
  unfold reconvOne reconvStep; split <;> rfl

theorem reconvOne_r : (reconvOne profile plc det B hist len).r =
    #v[hist.getD (len - 1) 0, hist.getD (len - 1) 0, hist.getD (len - 2) 0] := by
  unfold reconvOne reconvStep; split <;> rfl

theorem reconvOne_p : (reconvOne profile plc det B hist len).p =
    #v[shr16 (hist.getD (len - 1) 0) 1, shr16 (hist.getD (len - 1) 0) 1, shr16 (hist.getD (len - 2) 0) 1] := by
  unfold reconvOne reconvStep; split <;> rfl

/-- A long loss resets the log step size and the step size; a short one keeps both. -/
theorem reconvOne_step :
    (reconvOne profile plc det B hist len).nb = (if hbResetThr < plc.cntH then 0 else B.nb)
      ∧ (reconvOne profile plc det B hist len).det = if hbResetThr < plc.cntH then det else B.det := by
  by_cases h : hbResetThr < plc.cntH <;> simp [reconvOne, reconvStep, predict, reconvBand, h]

end Reconvergence

/-- Re-convergence of one band keeps its bounds and conventions, whatever the samples it takes from the histories. -/
theorem Band.Ok.reconvOne {k : BandId} {B : Band} (h : B.Ok profile k) (plc : Plc) (hist : List I16) (len : Nat) :
    (reconvOne profile plc (detReset k) B hist len).Ok profile k := by
  obtain ⟨ha2_lo, ha2_hi⟩ := leak_a2_mem _ h.a2_lo h.a2_hi
  obtain ⟨ha1_lo, ha1_hi⟩ := leak_a1_mem _ _ h.a1_lo h.a1_hi
  obtain ⟨hnb, hdet⟩ := reconvOne_step plc (detReset k) B hist len
  have hk : 0 ≤ nbMax k := by cases k <;> decide
  have hnb0 : ((0 : I16).toInt : Int) = 0 := rfl
  exact {
    a0 := by rw [reconvOne_a]; exact h.a0
    b0 := by rw [reconvOne_b]; exact h.b0
    a2_lo := by rw [reconvOne_a]; exact ha2_lo
    a2_hi := by rw [reconvOne_a]; exact ha2_hi
    a1_lo := by rw [reconvOne_a]; exact ha1_lo
    a1_hi := by rw [reconvOne_a]; exact ha1_hi
    nb_lo := by rw [hnb]; split; exacts [le_rfl, h.nb_lo]
    nb_hi := by rw [hnb]; split; exacts [hk, h.nb_hi]
    det_eq := by rw [hnb, hdet]; split; exacts [by simpa using detReset_eq k, h.det_eq]
    d01 := by rw [reconvOne_d]; rfl
    p01 := by rw [reconvOne_p]; rfl
    r01 := by rw [reconvOne_r]; rfl
    sp_eq := rfl
    sz_eq := rfl
    s_eq := rfl }

theorem Ctx.Ok.reconvDec {C : Ctx} (h : C.Ok profile) (plc : Plc) : (reconvDec profile plc C).Ok profile :=
  ⟨h.low.reconvOne plc _ _, h.high.reconvOne plc _ _⟩

/-! ### The bounds of both contexts -/

theorem Band.reset_ok (k : BandId) : (Band.reset (detReset k)).Ok profile k := by
  cases k <;> constructor <;> decide +kernel

theorem Ctx.reset_ok : Ctx.reset.Ok profile := ⟨Band.reset_ok .low, Band.reset_ok .high⟩

/-- The delay line is under no bound. -/
theorem Ctx.Ok.withD {P : Profile} {C : Ctx} (h : C.Ok P) (D : Vector I16 24) : ({ C with D := D } : Ctx).Ok P :=
  ⟨h.low, h.high⟩

theorem Ctx.Ok.withL {P : Profile} {C : Ctx} (h : C.Ok P) {B : Band} (hB : B.Ok P .low) :
    ({ C with L := B } : Ctx).Ok P :=
  ⟨hB, h.high⟩

theorem Ctx.Ok.withH {P : Profile} {C : Ctx} (h : C.Ok P) {B : Band} (hB : B.Ok P .high) :
    ({ C with H := B } : Ctx).Ok P :=
  ⟨h.low, hB⟩

theorem Ctx.Ok.encFrame {s : State} (h : s.enc.Ok profile) (q : BitVec 6 → I16) (m : LMode) :
    (s.encFrame profile q m).enc.Ok profile := by
  rw [State.encFrame_enc]
  exact forN_keeps (fun r : EncRun => r.enc.Ok profile) _ _ _ h
    fun n r _ hr => ⟨hr.low.encLF q m _, hr.high.encHF _⟩

theorem Ctx.Ok.decGood {s : State} (h : s.dec.Ok profile) (q : BitVec 6 → I16) (m : LMode) :
    (s.decGood profile q m).dec.Ok profile := by
  have hstart : (goodStartDec profile s.plc s.dec).Ok profile := by
    unfold goodStartDec; split
    · exact h.reconvDec s.plc
    · exact h
  rw [State.decGood_dec]
  exact forN_keeps (fun r : DecRun => r.dec.Ok profile) _ _ _ hstart
    fun n r _ hr => ⟨hr.low.decLF q m _, hr.high.decHF _⟩

theorem bands_kept : KeptBySteps fun s => s.enc.Ok profile ∧ s.dec.Ok profile where
  resetEnc _ h := ⟨Ctx.reset_ok, h.2⟩
  resetDec _ h := ⟨h.1, Ctx.reset_ok⟩
  qmfTx _ h := ⟨h.1.withD _, h.2⟩
  qmfRx _ h := ⟨h.1, h.2.withD _⟩
  encL _ _ _ h := ⟨h.1.withL (h.1.low.encLF _ _ _), h.2⟩
  encH _ h := ⟨h.1.withH (h.1.high.encHF _), h.2⟩
  decL _ _ _ h := ⟨h.1, h.2.withL (h.2.low.decLF _ _ _)⟩
  decH _ h := ⟨h.1, h.2.withH (h.2.high.decHF _)⟩
  encFrame q m _ h := ⟨h.1.encFrame q m, h.2⟩
  decGood q m _ h := ⟨h.1, h.2.decGood q m⟩
  decLost _ h := ⟨h.1, h.2.withD _⟩
  write v o s h := by
    obtain ⟨henc, hdec, -, -⟩ := writeTarget_keeps v s (targetAt o.toNat)
    rwa [henc, hdec]
  powerOn _ _ := ⟨Ctx.reset_ok, Ctx.reset_ok⟩

/-- Settles O56: a band is only ever reset, adapted by a sample, or re-converged, and each gives the bounds. -/
theorem stepKeepsBandBounds : Obligations.StepKeepsBandBounds :=
  fun _ _ henc hdec h => bands_kept.step h ⟨henc, hdec⟩

/-! ### The shape of the PLC state: a good frame -/

theorem Plc.reset_ok : (Plc.reset profile.plc).Ok profile.plc where
  histL_len := List.length_replicate
  histH_len := List.length_replicate
  exc_len := List.length_replicate
  lpc_len := rfl
  synMem_len := rfl
  xfBuf_len := List.length_replicate
  hbPer_len := List.length_replicate
  t0_range := .inl rfl
  tSyn_eq := .inl rfl
  cnt_eq := rfl
  wL_lo := zero_le_one
  wL_hi := le_rfl
  wH_lo := zero_le_one
  wH_hi := le_rfl
  xfPos_le := by decide
  xfActive_pos := nofun
  xfActive_good := nofun
  hbPhase_lt := by decide
  episode_none := by decide

/-- The PLC state as a good frame marks it. -/
def Plc.asGood (p : Plc) : Plc := { p with episode := .none, prevBfi := false }

theorem Plc.Ok.asGood {P : PlcParams} {p : Plc} (h : p.Ok P) : p.asGood.Ok P :=
  { h with xfActive_good := fun _ => rfl, episode_none := iff_of_true rfl rfl }

theorem Plc.Ok.pushHistory {P : PlcParams} {p : Plc} (h : p.Ok P) (lo hi : List I16) : (pushHistory P lo hi p).Ok P :=
  { h with
    histL_len := length_pushBuf _ _ _ h.histL_len
    histH_len := length_pushBuf _ _ _ h.histH_len }

/-- Re-convergence starts a crossfade; the frame is marked good at its end. -/
theorem Plc.Ok.reconvPlc {P : PlcParams} {p : Plc} (h : p.asGood.Ok P) : (reconvPlc p).asGood.Ok P :=
  { h with xfPos_le := Nat.zero_le 80, xfActive_pos := fun _ => (by decide : 0 < 80), xfActive_good := fun _ => rfl }

/-- A crossfade moves on by one sample and ends with its last. -/
theorem Plc.Ok.xfAdvance {P : PlcParams} {p : Plc} (h : p.asGood.Ok P) (hx : p.xfActive = true) :
    (xfAdvance p).asGood.Ok P := by
  have hpos : p.xfPos < 80 := h.xfActive_pos hx
  exact { h with
    xfPos_le := hpos
    xfActive_pos := fun hact => by
      have hne : p.xfPos + 1 ≠ 80 := fun he => by simp [Plc.asGood, Machine.xfAdvance, xfLen, he] at hact
      exact lt_of_le_of_ne hpos hne
    xfActive_good := fun _ => rfl }

theorem Plc.Ok.decSample {P : Profile} {r : DecRun} (h : r.plc.asGood.Ok P.plc) (q : BitVec 6 → I16) (m : LMode)
    (n : Nat) : (decSample P q m n r).plc.asGood.Ok P.plc := by
  simp only [Machine.decSample]
  split
  · exact h.xfAdvance ‹_›
  · exact h

theorem Plc.Ok.decGood {P : Profile} {s : State} (h : s.plc.Ok P.plc) (q : BitVec 6 → I16) (m : LMode) :
    (s.decGood P q m).plc.Ok P.plc := by
  have hstart : (goodStartPlc s.plc).asGood.Ok P.plc := by
    unfold goodStartPlc; split
    · exact h.asGood.reconvPlc
    · exact h.asGood
  have hrun : (s.goodRun P q m).plc.asGood.Ok P.plc :=
    forN_keeps (fun r : DecRun => r.plc.asGood.Ok P.plc) _ _ _ hstart fun n r _ hr => hr.decSample q m n
  rw [State.decGood_plc]
  exact hrun.pushHistory _ _

/-! ### The shape of the PLC state: the analysis -/

theorem length_getD_levinson (rr : Nat → Rat) (n : Nat) (d : List Rat) (hd : d.length = n) :
    ((levinson rr n).getD d).length = n := by
  cases h : levinson rr n with
  | none => exact hd
  | some a => exact length_levinson rr n a h

theorem length_classify_exc (P : PlcParams) (nbL nbH : I16) (u exc : List Rat) (t0 : Nat) (cmax : Rat) :
    (classify P nbL nbH u exc t0 cmax).exc.length = exc.length :=
  (length_unvoicedExc ..).trans (length_transientLimit ..)

/-- The lag that the pulse alignment leaves is still a pitch lag. -/
theorem classify_t0_mem (nbL nbH : I16) (u exc : List Rat) (t0 : Nat) (cmax : Rat)
    (h : Config.plc.minPit ≤ t0 ∧ t0 ≤ Config.plc.maxPit) :
    Config.plc.minPit ≤ (classify Config.plc nbL nbH u exc t0 cmax).t0
      ∧ (classify Config.plc nbL nbH u exc t0 cmax).t0 ≤ Config.plc.maxPit := by
  simp only [classify]
  split
  · obtain ⟨hlo, hhi⟩ := Config.pulseAlign_mem _ t0 h.1
    exact ⟨hlo, hhi.trans h.2⟩
  · exact h

theorem analyse_t0_mem (nbL nbH : I16) (p : Plc) :
    profile.plc.minPit ≤ (analyse profile.plc nbL nbH p).t0
      ∧ (analyse profile.plc nbL nbH p).t0 ≤ profile.plc.maxPit := by
  rw [(analyse_class profile.plc nbL nbH p).2]
  exact classify_t0_mem _ _ _ _ _ _ (pitchLag_mem _)

theorem hbPeriod_pos (p : Plc) (h : 0 < p.t0) : 0 < hbPeriod p := by
  unfold hbPeriod; split
  · exact h
  · decide

/-- The analysis fills every field it writes to its length and range, and abandons a crossfade. -/
theorem Plc.Ok.analyse {p : Plc} (h : p.Ok profile.plc) (nbL nbH : I16) :
    (analyse profile.plc nbL nbH p).Ok profile.plc := by
  have ht0 := analyse_t0_mem nbL nbH p
  have hpos : 0 < (Machine.analyse profile.plc nbL nbH p).t0 :=
    lt_of_lt_of_le (by decide) (Config.minPit_lo.trans ht0.1)
  exact { h with
    exc_len := (length_classify_exc ..).trans (length_residual ..)
    lpc_len := length_getD_levinson _ _ _ h.lpc_len
    synMem_len := by simp [Machine.analyse, startEpisode, captureHb]
    hbPer_len := length_captureHb _ _ h.histH_len
    t0_range := .inr ht0
    tSyn_eq := by simp only [Machine.analyse, startEpisode, captureHb]; split <;> simp
    cnt_eq := rfl
    wL_lo := zero_le_one
    wL_hi := le_rfl
    wH_lo := zero_le_one
    wH_hi := le_rfl
    xfPos_le := Nat.zero_le 80
    xfActive_pos := nofun
    xfActive_good := nofun
    hbPhase_lt := hbPeriod_pos _ hpos }

/-! ### The shape of the PLC state: a lost frame -/

/-- The weight lies in [0, 1] where the decrements are at least 0 (46_plc_synthesis.md R386). -/
theorem attW_mem (P : PlcParams) (cls : SigClass) (c : Nat) (h : ∀ k, 0 ≤ P.attSlope cls k) :
    0 ≤ attW P cls c ∧ attW P cls c ≤ 1 := by
  have h0 := h 0
  have h1 := h 1
  have h2 := h 2
  unfold attW
  split
  · norm_num
  · exact ⟨le_max_left .., max_le zero_le_one (sub_le_self _ (by positivity))⟩

/-- One concealed sample. -/
theorem Plc.Ok.concealSample {P : PlcParams} {c : Conceal} (h : c.plc.Ok P) : (concealSample P c).plc.Ok P :=
  { h with
    exc_len := by
      have hexc := h.exc_len
      unfold PlcParams.excLen at *
      simp [Machine.concealSample, Plc.withSyn, synNext, ltpNext, Plc.syn, hexc]
    synMem_len := by
      simp [Machine.concealSample, Plc.withSyn, synNext, ltpNext, Plc.syn, h.synMem_len]
    cnt_eq := congrArg (· + 1) h.cnt_eq
    hbPhase_lt := Nat.mod_lt _ (Nat.zero_lt_of_lt h.hbPhase_lt) }

theorem length_makeXfBuffer (P : PlcParams) (p : Plc) : (makeXfBuffer P p).xfBuf.length = 80 :=
  forN_invariant (fun n (x : XfRun) => x.buf.length = n) _ _ xfLen rfl
    fun n x _ hx => by simp [xfSample, hx]

/-- The weights and the crossfade buffer at the end of a concealment. -/
theorem Plc.Ok.concealEnd {P : PlcParams} {p : Plc} (h : p.Ok P) (hs : ∀ k, 0 ≤ P.attSlope p.cls k) :
    (concealEnd P p).Ok P :=
  { h with
    wL_lo := (attW_mem P _ _ hs).1
    wL_hi := (attW_mem P _ _ hs).2
    wH_lo := (attW_mem P _ _ hs).1
    wH_hi := (attW_mem P _ _ hs).2
    xfBuf_len := length_makeXfBuffer P _ }

/-- A concealment keeps the shape, and starts no crossfade. -/
theorem Plc.Ok.conceal {P : PlcParams} {p : Plc} (h : p.Ok P) (hx : p.xfActive = false)
    (hs : ∀ cls k, 0 ≤ P.attSlope cls k) (N : Nat) :
    (conceal P N p).plc.Ok P ∧ (conceal P N p).plc.xfActive = false := by
  have hrun := forN_keeps (fun c : Conceal => c.plc.Ok P ∧ c.plc.xfActive = false) (fun _ => Machine.concealSample P)
    ⟨p, [], []⟩ N ⟨h, hx⟩ fun n c _ hc => ⟨hc.1.concealSample, hc.2⟩
  exact ⟨hrun.1.concealEnd (hs _), hrun.2⟩

/-- What a lost frame conceals from: no crossfade is running then. -/
theorem Plc.Ok.lostStart {p : Plc} (h : p.Ok profile.plc) (dec : Ctx) :
    (lostStart profile.plc dec p).Ok profile.plc ∧ (lostStart profile.plc dec p).xfActive = false := by
  unfold Machine.lostStart
  split
  · rename_i hbfi
    refine ⟨h, Bool.eq_false_iff.2 fun hx => ?_⟩
    rw [h.xfActive_good hx] at hbfi
    cases hbfi
  · exact ⟨h.analyse _ _, rfl⟩

/-- Marking a frame lost, with no crossfade running. -/
theorem Plc.Ok.markLost {P : PlcParams} {p : Plc} (h : p.Ok P) (hx : p.xfActive = false) {ep : Episode}
    (hep : ep ≠ .none) : ({ p with episode := ep, prevBfi := true } : Plc).Ok P :=
  { h with
    xfActive_good := fun hact => by rw [hx] at hact; cases hact
    episode_none := iff_of_false hep Bool.true_eq_false.mp }

theorem Plc.Ok.decLost {s : State} (h : s.plc.Ok profile.plc) : (s.decLost profile).plc.Ok profile.plc := by
  obtain ⟨hstart, hx⟩ := h.lostStart s.dec
  obtain ⟨hrun, hx⟩ := hstart.conceal hx Config.attSlope_nonneg s.regs.frameLen
  have hep : (if s.plc.prevBfi then Episode.continuingLoss else .firstLoss) ≠ .none := by split <;> decide
  rw [State.decLost_plc]
  exact (hrun.markLost hx hep).pushHistory _ _

theorem plc_kept : KeptBySteps fun s => s.plc.Ok profile.plc where
  resetPlc _ _ := Plc.reset_ok
  decGood q m _ h := h.decGood q m
  decLost _ h := h.decLost
  write v o s h := by rwa [(writeTarget_keeps v s _).2.2.1]
  powerOn _ _ := Plc.reset_ok

/-- Settles O57: only a reset, a good frame and a lost frame write the PLC state, and each leaves its lengths and
ranges. -/
theorem stepKeepsPlcShape : Obligations.StepKeepsPlcShape :=
  fun _ _ hs h => plc_kept.step h hs

/-! ### The map of the host window, read both ways -/

@[simp] theorem targetAt_regOffset (r : HostReg) : targetAt (regOffset r) = .reg r := by cases r <;> rfl

@[simp] theorem toNat_regOffset (r : HostReg) : (BitVec.ofNat 14 (regOffset r)).toNat = regOffset r := by
  cases r <;> rfl

theorem regOffset_mod_four (r : HostReg) : regOffset r % 4 = 0 := by cases r <;> rfl

/-- What the map of 20_memory.md R101 says of an offset where a target stands: a register stands at its own, and the
number of a writable buffer element is in its range. -/
def Target.StandsAt (n : Nat) : Target → Prop
  | .reg r => n = regOffset r
  | .pcm k => k < 320
  | .code k => k < 160
  | _ => True

theorem Target.standsAt_ite {n : Nat} {c : Prop} [Decidable c] {a b : Target} (ha : c → a.StandsAt n)
    (hb : ¬c → b.StandsAt n) : (if c then a else b).StandsAt n := by
  by_cases h : c
  · rw [if_pos h]; exact ha h
  · rw [if_neg h]; exact hb h

theorem targetAt_standsAt (n : Nat) : (targetAt n).StandsAt n := by
  unfold targetAt
  refine Target.standsAt_ite (fun _ => ?_) fun _ => Target.standsAt_ite (fun _ => trivial) fun _ =>
    Target.standsAt_ite (fun _ => trivial) fun _ => Target.standsAt_ite (fun _ => trivial) fun _ =>
    Target.standsAt_ite (fun _ => ?_) fun _ => Target.standsAt_ite (fun _ => trivial) fun _ =>
    Target.standsAt_ite (fun _ => ?_) fun _ => Target.standsAt_ite (fun _ => trivial) fun _ =>
    Target.standsAt_ite (fun _ => trivial) fun _ => Target.standsAt_ite (fun _ => trivial) fun _ =>
    Target.standsAt_ite (fun _ => trivial) fun _ => trivial
  · split
    · exact (beq_iff_eq.1 (List.find?_some (p := fun r => regOffset r == n) ‹_›)).symm
    · trivial
  · show (n - 0x0800) / 4 < 320
    omega
  · show (n - 0x1000) / 4 < 160
    omega

theorem targetAt_eq_reg {n : Nat} {r : HostReg} (h : targetAt n = .reg r) : n = regOffset r := by
  have := targetAt_standsAt n
  rwa [h] at this

section Buffers

variable (k : Nat)

theorem targetAt_pcmAddr (h : k < 320) : targetAt (pcmAddr k) = .pcm k := by
  unfold targetAt pcmAddr
  iterate 4 rw [if_neg (by omega)]
  rw [if_pos (by omega)]
  congr 1; omega

theorem targetAt_codeAddr (h : k < 160) : targetAt (codeAddr k) = .code k := by
  unfold targetAt codeAddr
  iterate 6 rw [if_neg (by omega)]
  rw [if_pos (by omega)]
  congr 1; omega

theorem targetAt_nstAddr (h : k < 160) : targetAt (nstAddr k) = .nst k := by
  unfold targetAt nstAddr
  iterate 8 rw [if_neg (by omega)]
  rw [if_pos (by omega)]
  congr 1; omega

theorem targetAt_nseAddr (h : k < 160) : targetAt (nseAddr k) = .nse k := by
  unfold targetAt nseAddr
  iterate 10 rw [if_neg (by omega)]
  rw [if_pos (by omega)]
  congr 1; omega

end Buffers

/-! ### What a step does with a defined access -/

theorem accessOk_w32 (o : BitVec 14) (h : o.toNat % 4 = 0) : accessOk o .w32 = true := by
  simp [accessOk, h]

/-- A defined access is one of 32 bits, at a multiple of 4. -/
theorem accessOk_eq_true {o : BitVec 14} {w : Width} (h : accessOk o w = true) : w = .w32 ∧ o.toNat % 4 = 0 := by
  simpa [accessOk] using h

theorem readTarget_setInputs (s : State) (xs : List HostInput) (w : Target) :
    readTarget (s.setInputs xs) w = readTarget s w := by
  cases w with
  | reg r => cases r <;> rfl
  | _ => rfl

section Access

variable {s : State} {rest : List HostInput} {o : BitVec 14}

/-- A defined read returns the word and takes nothing else than the access. -/
theorem step_read (ho : o.toNat % 4 = 0) (h : s.bus.inputs = .read o .w32 :: rest) :
    step s = .next { s with bus := { inputs := rest, readData := readTarget s (targetAt o.toNat) } } := by
  rw [step_of_inputs s _ _ h]
  simp only [serve, hostRead, accessOk_w32 o ho, if_true, readTarget_setInputs]
  rfl

/-- A defined write of a word other than `CMD`. -/
theorem step_write {v : Word} (ho : o.toNat % 4 = 0) (hc : targetAt o.toNat ≠ .reg .cmd)
    (h : s.bus.inputs = .write o .w32 v :: rest) :
    step s = .next (writeTarget v (s.setInputs rest) (targetAt o.toNat)) := by
  rw [step_of_inputs s _ _ h]
  simp only [serve, hostWrite, accessOk_w32 o ho, if_true, if_neg hc]

/-- A write of a command word. -/
theorem step_cmdWrite {v : Word} (h : s.bus.inputs = cmdWrite v :: rest) : step s = runCommand v (s.setInputs rest) :=
  step_of_inputs s _ _ h

theorem step_readReg {r : HostReg} (h : s.bus.inputs = .read (BitVec.ofNat 14 (regOffset r)) .w32 :: rest) :
    step s = .next { s with bus := { inputs := rest, readData := readReg s r } } := by
  simpa only [toNat_regOffset, targetAt_regOffset, readTarget]
    using step_read (by rw [toNat_regOffset]; exact regOffset_mod_four r) h

theorem step_writeReg {r : HostReg} {v : Word} (hr : r ≠ .cmd)
    (h : s.bus.inputs = .write (BitVec.ofNat 14 (regOffset r)) .w32 v :: rest) :
    step s = .next (writeReg v (s.setInputs rest) r) := by
  have hc : targetAt (BitVec.ofNat 14 (regOffset r)).toNat ≠ .reg .cmd := by
    rw [toNat_regOffset, targetAt_regOffset]
    exact fun he => hr (Target.reg.inj he)
  simpa only [toNat_regOffset, targetAt_regOffset, writeTarget]
    using step_write (by rw [toNat_regOffset]; exact regOffset_mod_four r) hc h

end Access

theorem runCommand_of_decode {v : Word} {i : Instr} (h : decode v = .ok i) (s : State) : runCommand v s = exec i s := by
  unfold runCommand; rw [h]

/-! ### Registers after a register write -/

/-- A register write changes what no other register reads. -/
theorem readReg_writeReg_ne (v : Word) (s : State) {q r : HostReg} (h : q ≠ r) :
    readReg (writeReg v s r) q = readReg s q := by
  cases r <;> cases q <;> try rfl
  all_goals exact absurd rfl h

/-- Of all words, only `STATUS` changes the status. -/
theorem writeTarget_status (v : Word) (s : State) (w : Target) :
    (writeTarget v s w).status = if w = .reg .status then writeStatus v s.status else s.status := by
  cases w with
  | reg r => cases r <;> rfl
  | _ => rfl

/-- A register write leaves the buffers. -/
theorem writeReg_mem (v : Word) (s : State) (r : HostReg) : (writeReg v s r).mem = s.mem := by cases r <;> rfl

/-! ### Running a command word -/

theorem decode_of_decodeTableWord {nbits w : Nat} {i : Instr} (h : decodeTableWord nbits w = some i) :
    decode (tableWord nbits w) = .ok i := by
  unfold decodeTableWord at h
  split at h
  · cases h; assumption
  · cases h

/-- Settles O4: the access is taken off the list, and the decoded command is all that runs. -/
theorem stepRunsDecodedCommand : Obligations.StepRunsDecodedCommand := by
  refine ⟨fun s v rest i hin hdec => ?_, fun s nbits w i hdec => ?_⟩
  · rw [step_cmdWrite hin, runCommand_of_decode hdec]
    rfl
  · have hin : (s.withFetchWord nbits w).bus.inputs = cmdWrite (tableWord nbits w) :: s.bus.inputs := rfl
    rw [step_cmdWrite hin, runCommand_of_decode (decode_of_decodeTableWord hdec)]
    rfl

/-! ### The registers of the host -/

/-- Settles O10: a write is `frameLenAfter`, and a length in range fits a word. -/
theorem frameLengthRegister : Obligations.FrameLengthRegister := by
  refine ⟨fun s v rest hin => ?_, fun s rest hok hin => ?_, rfl⟩
  · exact step_writeReg (r := .frameLen) (by decide) hin
  · obtain ⟨-, hhi⟩ := hok
    refine ⟨readReg s .frameLen, ?_, step_readReg (r := .frameLen) hin⟩
    show (BitVec.ofNat 32 s.regs.frameLen).toNat = _
    rw [BitVec.toNat_ofNat, Nat.mod_eq_of_lt (by omega)]

/-- What a register keeps of a write, as the host reads it back. -/
theorem readReg_writeReg_sample (v : Word) (s : State) {r : HostReg} (h : r ∈ ([.x0, .x1, .xl, .xh] : List HostReg)) :
    readReg (writeReg v s r) r = (v.extractLsb' 0 16).signExtend 32 := by
  simp only [List.mem_cons, List.not_mem_nil, or_false] at h
  rcases h with rfl | rfl | rfl | rfl <;> rfl

theorem readReg_writeReg_word (v : Word) (s : State) {r : HostReg} (h : r ∈ ([.satA, .satB] : List HostReg)) :
    readReg (writeReg v s r) r = v := by
  simp only [List.mem_cons, List.not_mem_nil, or_false] at h
  rcases h with rfl | rfl <;> rfl

/-- A narrow field read as a word keeps its value. -/
theorem toNat_field {n : Nat} (x : BitVec n) (h : n ≤ 32) : (x.setWidth 32).toNat = x.toNat := by
  rw [BitVec.toNat_setWidth, Nat.mod_eq_of_lt (x.isLt.trans_le (Nat.pow_le_pow_right (by omega) h))]

/-- The low bits of a word, read back as a word. -/
theorem toNat_low_bits (v : Word) (n : Nat) (h : n ≤ 32) :
    ((v.extractLsb' 0 n).setWidth 32).toNat = v.toNat % 2 ^ n := by
  rw [toNat_field _ h, BitVec.extractLsb'_toNat, Nat.shiftRight_zero]

/-- Settles O11: each register reads as its field, a write keeps the field's bits, and no other register moves. -/
theorem dataRegisters : Obligations.DataRegisters := by
  refine ⟨fun s r rest hin => step_readReg hin, fun s => ?_, fun s v rest r hin hr => ?_, fun s v rest r hin hr => ?_⟩
  · exact ⟨toInt_sampleWord _, toInt_sampleWord _, toInt_sampleWord _, toInt_sampleWord _, toInt_sampleWord _,
      toInt_sampleWord _, toInt_sampleWord _, toInt_sampleWord _, toInt_sampleWord _, toNat_field _ (by omega),
      toNat_field _ (by omega), toNat_field _ (by omega), rfl, rfl⟩
  · have hcmd : r ≠ .cmd := by rintro rfl; exact absurd hr (by decide)
    have hst : r ≠ .status := by rintro rfl; exact absurd hr (by decide)
    obtain ⟨henc, hdec, hplc, hbus⟩ := writeTarget_keeps v (s.setInputs rest) (.reg r)
    have hstatus : (writeReg v (s.setInputs rest) r).status = s.status :=
      (writeTarget_status v _ (.reg r)).trans (if_neg fun he => hst (Target.reg.inj he))
    refine ⟨_, step_writeReg hcmd hin, readReg_writeReg_sample v _, ?_, ?_, ?_, readReg_writeReg_word v _,
      fun q hq => ?_, hstatus, henc, hdec, hplc, writeReg_mem v _ r, hbus⟩
    · rintro rfl; exact toNat_low_bits v 6 (by omega)
    · rintro rfl; exact toNat_low_bits v 2 (by omega)
    · rintro rfl; exact toNat_low_bits v 8 (by omega)
    · exact (readReg_writeReg_ne v _ hq).trans (readTarget_setInputs s rest (.reg q))
  · have hcmd : r ≠ .cmd := by rintro rfl; exact absurd hr (by decide)
    rw [step_writeReg hcmd hin]
    simp only [List.mem_cons, List.not_mem_nil, or_false] at hr
    rcases hr with rfl | rfl | rfl | rfl | rfl <;> rfl

/-! ### `STATUS` -/

/-- The fields of the `STATUS` word, bit by bit (10_state.md R43). -/
theorem statusWord_fields (st : Status) (p : Plc) : let w := statusWord st p
    w.getLsbD 0 = false ∧ w.getLsbD 1 = st.err ∧ w.extractLsb' 2 2 = 0#2 ∧ w.extractLsb' 4 4 = st.errCode
    ∧ w.getLsbD 8 = p.prevBfi ∧ w.getLsbD 9 = p.xfActive
    ∧ (w.extractLsb' 10 3).toNat = classNumber p.cls ∧ w.extractLsb' 13 19 = 0#19 := by
  obtain ⟨e, c⟩ := st
  simp only [statusWord]
  generalize p.prevBfi = b
  generalize p.xfActive = x
  generalize p.cls = k
  cases e <;> cases b <;> cases x <;> cases k <;> decide +revert

/-- `ERRCODE` is 0 while `ERR` is 0. -/
def Status.Quiet (st : Status) : Prop := st.err = false → st.errCode = 0

theorem quiet_recordError (e : ErrCode) (st : Status) : (recordError e st).Quiet := nofun

theorem quiet_writeStatus (v : Word) {st : Status} (h : st.Quiet) : (writeStatus v st).Quiet := by
  unfold writeStatus
  split
  · exact fun _ => rfl
  · exact h

theorem quiet_kept : KeptBySteps fun s => s.status.Quiet where
  raiseError e s _ := quiet_recordError e s.status
  write v o s h := by
    rw [writeTarget_status]
    split
    · exact quiet_writeStatus v h
    · exact h
  powerOn _ _ := fun _ => rfl

/-- Settles O12: the word's fields, the clearing write, the first code kept, and `Status.Quiet` kept by every step. -/
theorem statusRegister : Obligations.StatusRegister := by
  refine ⟨fun s => statusWord_fields s.status s.plc, fun s v rest hin => ?_, fun e s => ⟨rfl, ?_, ?_⟩,
    fun s t hs h => quiet_kept.step h hs, by decide⟩
  · exact step_writeReg (r := .status) (by decide) hin
  · intro h; simp [recordError, h]
  · intro h; simp [recordError, h]

/-! ### Buffer elements through the window -/

/-- The offset of a buffer element as an access gives it. -/
theorem toNat_offset (n : Nat) (h : n < 2 ^ 14) : (BitVec.ofNat 14 n).toNat = n := by
  rw [BitVec.toNat_ofNat, Nat.mod_eq_of_lt h]

section Element

variable {s : State} {rest : List HostInput} {w : Target}

/-- A read at the offset of a word of the buffers. -/
theorem step_read_element (n : Nat) (hn : n < 2 ^ 14) (h4 : n % 4 = 0) (hw : targetAt n = w)
    (h : s.bus.inputs = .read (BitVec.ofNat 14 n) .w32 :: rest) :
    step s = .next { s with bus := { inputs := rest, readData := readTarget s w } } := by
  have ho := toNat_offset n hn
  rw [step_read (by rw [ho]; exact h4) h, ho, hw]

/-- A write at the offset of a word of the buffers. -/
theorem step_write_element {v : Word} (n : Nat) (hn : n < 2 ^ 14) (h4 : n % 4 = 0) (hw : targetAt n = w)
    (hc : w ≠ .reg .cmd) (h : s.bus.inputs = .write (BitVec.ofNat 14 n) .w32 v :: rest) :
    step s = .next (writeTarget v (s.setInputs rest) w) := by
  have ho := toNat_offset n hn
  rw [step_write (by rw [ho]; exact h4) (by rw [ho, hw]; exact hc) h, ho, hw]

end Element

/-- Settles O15: an element's word is a `put` at its own bytes, and a read returns the element. -/
theorem bufferWords : Obligations.BufferWords := by
  refine ⟨fun s k v rest hk hwf hin => ?_, fun s k v rest hk hwf hin => ?_, ?_⟩
  · exact ⟨_, step_write_element (0x0800 + 4 * k) (by omega) (by omega) (targetAt_pcmAddr k hk) nofun hin,
      Memory.pcm_setPcm_same _ _ _ hwf, fun a h0 h1 => Memory.get_put16_other _ _ _ _ hwf h0 h1⟩
  · exact ⟨_, step_write_element (0x1000 + 4 * k) (by omega) (by omega) (targetAt_codeAddr k hk) nofun hin,
      Memory.code_setCode_same _ _ _ hwf, fun a ha => Memory.get_put_other _ _ _ _ hwf ha⟩
  · rintro s k rest base x (⟨rfl, hk, rfl⟩ | ⟨rfl, hk, rfl⟩ | ⟨rfl, hk, rfl⟩ | ⟨rfl, hk, rfl⟩) hin
    · exact step_read_element (0x0800 + 4 * k) (by omega) (by omega) (targetAt_pcmAddr k hk) hin
    · exact step_read_element (0x1000 + 4 * k) (by omega) (by omega) (targetAt_codeAddr k hk) hin
    · exact step_read_element (0x1800 + 4 * k) (by omega) (by omega) (targetAt_nstAddr k hk) hin
    · exact step_read_element (0x2000 + 4 * k) (by omega) (by omega) (targetAt_nseAddr k hk) hin

/-! ### The ranges of `FRAMELEN`, `STATUS` and the buffers -/

theorem Status.Ok.recordError {st : Status} (h : st.Ok) (e : ErrCode) : (recordError e st).Ok := by
  refine ⟨nofun, fun _ => ?_⟩
  cases herr : st.err with
  | true => simpa [Machine.recordError, herr] using h.2 herr
  | false => cases e <;> simp [Machine.recordError, herr, errNumber]

theorem Status.Ok.writeStatus {st : Status} (h : st.Ok) (v : Word) : (writeStatus v st).Ok := by
  unfold Machine.writeStatus
  split
  · exact ⟨fun _ => rfl, nofun⟩
  · exact h

theorem inBuffers_encFrame {s : State} (hr : s.regs.Ok) (h : s.mem.inBuffers = true) (q : BitVec 6 → I16) (m : LMode) :
    (s.encFrame profile q m).mem.inBuffers = true := by
  rw [State.encFrame_mem]
  refine forN_keeps (fun r : EncRun => r.mem.inBuffers = true) _ _ _ h fun n r hn hm => ?_
  have hn : n < 160 := lt_of_lt_of_le hn hr.2
  exact Memory.inBuffers_setNse _ _ _ hn (Memory.inBuffers_setNst _ _ _ hn (Memory.inBuffers_setCode _ _ _ hn hm))

/-- The two PCM samples that a decoded codeword leaves. -/
theorem inBuffers_setPair {m : Memory} (h : m.inBuffers = true) {n N : Nat} (hn : n < N) (hN : N ≤ 160) (y0 y1 : I16) :
    ((m.setPcm (2 * n) y0).setPcm (2 * n + 1) y1).inBuffers = true :=
  Memory.inBuffers_setPcm _ _ _ (by omega) (Memory.inBuffers_setPcm _ _ _ (by omega) h)

theorem inBuffers_decGood {s : State} (hr : s.regs.Ok) (h : s.mem.inBuffers = true) (q : BitVec 6 → I16) (m : LMode) :
    (s.decGood profile q m).mem.inBuffers = true := by
  rw [State.decGood_mem]
  exact forN_keeps (fun r : DecRun => r.mem.inBuffers = true) _ _ _ h
    fun n r hn hm => inBuffers_setPair hm hn hr.2 _ _

theorem inBuffers_decLost {s : State} (hr : s.regs.Ok) (h : s.mem.inBuffers = true) :
    (s.decLost profile).mem.inBuffers = true := by
  rw [State.decLost_mem]
  exact forN_keeps (fun r : RxRun => r.mem.inBuffers = true) _ _ _ h
    fun n r hn hm => inBuffers_setPair hm hn hr.2 _ _

theorem inBuffers_writeTarget {s : State} (h : s.mem.inBuffers = true) (v : Word) (n : Nat) :
    (writeTarget v s (targetAt n)).mem.inBuffers = true := by
  have hn := targetAt_standsAt n
  generalize targetAt n = w at hn ⊢
  cases w with
  | reg r => rw [writeTarget, writeReg_mem]; exact h
  | pcm k => exact Memory.inBuffers_setPcm _ _ _ hn h
  | code k => exact Memory.inBuffers_setCode _ _ _ hn h
  | _ => exact h

/-- A write to `FRAMELEN` is taken in range only (10_state.md R44). -/
theorem Regs.Ok.frameLenAfter {r : Regs} (h : r.Ok) (v : Word) :
    1 ≤ frameLenAfter v r.frameLen ∧ frameLenAfter v r.frameLen ≤ 160 := by
  unfold Machine.frameLenAfter
  split
  · assumption
  · exact h

theorem Regs.Ok.writeTarget {s : State} (h : s.regs.Ok) (v : Word) (w : Target) : (writeTarget v s w).regs.Ok := by
  cases w with
  | reg r =>
    cases r with
    | frameLen => exact h.frameLenAfter v
    | _ => exact h
  | _ => exact h

theorem ranges_kept : KeptBySteps fun s => s.regs.Ok ∧ s.status.Ok ∧ s.mem.inBuffers = true where
  encFrame q m _ h := ⟨h.1, h.2.1, inBuffers_encFrame h.1 h.2.2 q m⟩
  decGood q m _ h := ⟨h.1, h.2.1, inBuffers_decGood h.1 h.2.2 q m⟩
  decLost _ h := ⟨h.1, h.2.1, inBuffers_decLost h.1 h.2.2⟩
  raiseError e _ h := ⟨h.1, h.2.1.recordError e, h.2.2⟩
  write v o s h := by
    refine ⟨h.1.writeTarget v _, ?_, inBuffers_writeTarget h.2.2 v _⟩
    rw [writeTarget_status]
    split
    · exact h.2.1.writeStatus v
    · exact h.2.1
  powerOn _ _ := ⟨(⟨by decide, by decide⟩ : Regs.reset.Ok), ⟨fun _ => rfl, nofun⟩, rfl⟩

/-- Settles O58: the three ranges are kept together, since a frame's stores are bounded by `FRAMELEN`. -/
theorem stepKeepsRegisterRanges : Obligations.StepKeepsRegisterRanges :=
  fun _ _ hregs hstatus hmem h => ranges_kept.step h ⟨hregs, hstatus, hmem⟩

/-! ### Which command writes what -/

/-- A command writes only the parts of its rows. -/
theorem exec_parts {i : Instr} {s t : State} (h : exec i s = .next t) :
    (writesEnc i = false → t.enc = s.enc) ∧ (writesDec i = false → t.dec = s.dec)
      ∧ (writesPlc i = false → t.plc = s.plc) ∧ (writesBuffers i = false → t.mem = s.mem) := by
  rcases exec_cases i s t h with ⟨-, rfl⟩ | ⟨rfl, rfl⟩ | ⟨rfl, rfl⟩ | ⟨rfl, rfl⟩ | ⟨rfl, rfl⟩ | ⟨rfl, rfl⟩ | ⟨rfl, rfl⟩
    | ⟨rfl, rfl⟩ | ⟨m, q, rfl, -, rfl⟩ | ⟨rfl, rfl⟩ | ⟨m, q, rfl, -, rfl⟩ | ⟨rfl, rfl⟩ | ⟨m, q, rfl, -, rfl⟩
    | ⟨m, q, rfl, -, rfl⟩ | ⟨m, q, rfl, -, rfl⟩ | ⟨m, q, rfl, -, rfl⟩ | ⟨m, q, rfl, -, rfl⟩ | ⟨v, -, rfl⟩
  all_goals simp [writesEnc, writesDec, writesPlc, writesBuffers]

/-- No command touches the host's side of the window. -/
theorem exec_bus {i : Instr} {s t : State} (h : exec i s = .next t) : t.bus = s.bus := by
  have hkept : KeptByStages fun u => u.bus = s.bus := {}
  rcases hkept.exec h rfl with ⟨-, rfl⟩ | ht
  · rfl
  · exact ht

/-- A command whose modes are legal records no error. -/
theorem exec_status {i : Instr} {s t : State} (h : exec i s = .next t) (hwf : i.wellFormed profile = true) :
    t.status = s.status := by
  have hkept : KeptByStages fun u => u.status = s.status := {}
  rcases hkept.exec h rfl with ⟨hbad, -⟩ | ht
  · rw [hwf] at hbad; cases hbad
  · exact ht

/-- Only one access reaches `CMD`. -/
theorem eq_cmdWrite {o : BitVec 14} {w : Width} (v : Word) (hok : accessOk o w = true)
    (hc : targetAt o.toNat = .reg .cmd) : HostInput.write o w v = cmdWrite v := by
  obtain ⟨rfl, -⟩ := accessOk_eq_true hok
  have ho : o = 0x0004#14 := BitVec.eq_of_toNat_eq (targetAt_eq_reg hc)
  rw [ho]; rfl

theorem hostRead_keeps (o : BitVec 14) (w : Width) (s : State) :
    (hostRead o w s).enc = s.enc ∧ (hostRead o w s).dec = s.dec ∧ (hostRead o w s).plc = s.plc := by
  unfold hostRead
  split <;> exact ⟨rfl, rfl, rfl⟩

/-- Settles O45: the writers of each part, command by command; and an access that changes a context is a command or the
reset input. -/
theorem contextWriters : Obligations.ContextWriters := by
  refine ⟨fun i s t h => ?_, fun s t x rest hin h hx hreset => ?_⟩
  · obtain ⟨henc, hdec, hplc, hmem⟩ := exec_parts h
    exact ⟨henc, hdec, hplc, hmem, exec_bus h, exec_status h⟩
  · rcases step_cases s t h with ⟨hnil, -⟩ | ⟨o, w, rest, -, rfl⟩ | ⟨o, w, v, rest, -, -, rfl⟩
      | ⟨o, w, v, rest, -, -, -, rfl⟩ | ⟨o, w, v, rest, e, -, -, -, -, rfl⟩ | ⟨o, w, v, rest', i, hin', hok, hc, -⟩
      | ⟨rest', hin', -⟩
    · rw [hin] at hnil; cases hnil
    · exact hostRead_keeps o w _
    · exact ⟨rfl, rfl, rfl⟩
    · obtain ⟨henc, hdec, hplc, -⟩ := writeTarget_keeps v (s.setInputs rest) (targetAt o.toNat)
      exact ⟨henc, hdec, hplc⟩
    · exact ⟨rfl, rfl, rfl⟩
    · rw [hin] at hin'; cases hin'
      exact absurd (eq_cmdWrite v hok hc) (hx v)
    · rw [hin] at hin'; cases hin'
      exact absurd rfl hreset

/-! ### The registers of a command's row (10_state.md R48) -/

/-- Where the host registers are the same, only `STATUS` can read otherwise. -/
theorem readReg_of_regs {s t : State} (h : t.regs = s.regs) {r : HostReg} (hr : r ≠ .status) :
    readReg t r = readReg s r := by
  cases r with
  | status => exact absurd rfl hr
  | _ => simp only [readReg, h]

/-- A command writes no register outside its row. -/
theorem readReg_exec {i : Instr} {s t : State} {r : HostReg} (h : exec i s = .next t) (hr : r ∉ regsWritten i)
    (hst : r ≠ .status) : readReg t r = readReg s r := by
  rcases exec_cases i s t h with ⟨-, rfl⟩ | ⟨rfl, rfl⟩ | ⟨rfl, rfl⟩ | ⟨rfl, rfl⟩ | ⟨rfl, rfl⟩ | ⟨rfl, rfl⟩ | ⟨rfl, rfl⟩
    | ⟨rfl, rfl⟩ | ⟨m, q, rfl, -, rfl⟩ | ⟨rfl, rfl⟩ | ⟨m, q, rfl, -, rfl⟩ | ⟨rfl, rfl⟩ | ⟨m, q, rfl, -, rfl⟩
    | ⟨m, q, rfl, -, rfl⟩ | ⟨m, q, rfl, -, rfl⟩ | ⟨m, q, rfl, -, rfl⟩ | ⟨m, q, rfl, -, rfl⟩
    | ⟨v, rfl | rfl | rfl | rfl | rfl | rfl, rfl⟩
  -- an error, `NOP`, the resets and the frames leave every register
  any_goals (refine readReg_of_regs ?_ hst; simp; done)
  -- the others write the registers of their row, which `hr` excludes
  all_goals cases r <;> simp_all [regsWritten, readReg]

/-- The effect of a command whose modes are legal, `q` its low-band table where it uses one. -/
def State.effect (q : BitVec 6 → I16) (s : State) : Instr → State
  | .nop => s
  | .resetEnc => s.resetEnc
  | .resetDec => s.resetDec
  | .plcReset => s.resetPlc profile.plc
  | .resetAll => (s.resetEnc.resetDec).resetPlc profile.plc
  | .qmfTx => s.qmfTx profile
  | .qmfRx => s.qmfRx profile
  | .encL m => s.encL profile q m
  | .encH _ => s.encH profile
  | .decL m => s.decL profile q m
  | .decH _ => s.decH profile
  | .encPair m _ => (((s.qmfTx profile).encL profile q m).encH profile).packCode
  | .decPair m _ => ((s.unpackCode.decL profile q m).decH profile).qmfRx profile
  | .encFrame m _ => s.encFrame profile q m
  | .decFrame m _ loss => if loss then s.decLost profile else s.decGood profile q m
  | .sat => s.setSatR (sat16 (opA32 s.regs))
  | .sadd => s.setSatR (add16 (opA s.regs) (opB s.regs))
  | .ssub => s.setSatR (sub16 (opA s.regs) (opB s.regs))
  | .smulq15 => s.setSatR (mult (opA s.regs) (opB s.regs))
  | .sshl => s.setSatR (shl16 (opA s.regs) (opN s.regs))
  | .sshr => s.setSatR (shr16 (opA s.regs) (opN s.regs))

theorem legal_iff_bits2 (h : HMode) : h.legal = true ↔ h = .bits2 := by cases h <;> decide

/-- The modes a command may use: a low-band mode with a table, and the high-band mode of two bits. -/
theorem modes_of_wellFormed {P : Profile} {i : Instr} (hwf : i.wellFormed P = true) :
    (∀ m, i.lmode? = some m → ∃ q, P.invq m = some q) ∧ ∀ h, i.hmode? = some h → h = .bits2 := by
  unfold Instr.wellFormed at hwf
  obtain ⟨hl, hh⟩ := Bool.and_eq_true_iff.1 hwf
  refine ⟨fun m hm => ?_, fun h hm => ?_⟩
  · rw [hm] at hl; exact Option.isSome_iff_exists.1 hl
  · rw [hm] at hh; exact (legal_iff_bits2 h).1 hh

/-- A command with legal modes runs to its effect, from every state with the same table. -/
theorem exec_effect {i : Instr} (hwf : i.wellFormed profile = true) : ∃ q, ∀ s, exec i s = .next (s.effect q i) := by
  obtain ⟨hl, hh⟩ := modes_of_wellFormed hwf
  cases i with
  | encL m => obtain ⟨q, hq⟩ := hl m rfl; exact ⟨q, fun s => exec_encL m s q hq⟩
  | decL m => obtain ⟨q, hq⟩ := hl m rfl; exact ⟨q, fun s => exec_decL m s q hq⟩
  | encH h => obtain rfl := hh h rfl; exact ⟨profile.invq0, fun _ => rfl⟩
  | decH h => obtain rfl := hh h rfl; exact ⟨profile.invq0, fun _ => rfl⟩
  | encPair m h => obtain ⟨q, hq⟩ := hl m rfl; obtain rfl := hh h rfl; exact ⟨q, fun s => exec_encPair m s q hq⟩
  | decPair m h => obtain ⟨q, hq⟩ := hl m rfl; obtain rfl := hh h rfl; exact ⟨q, fun s => exec_decPair m s q hq⟩
  | encFrame m h => obtain ⟨q, hq⟩ := hl m rfl; obtain rfl := hh h rfl; exact ⟨q, fun s => exec_encFrame m s q hq⟩
  | decFrame m h loss =>
    obtain ⟨q, hq⟩ := hl m rfl
    obtain rfl := hh h rfl
    cases loss with
    | false => exact ⟨q, fun s => exec_decFrame_good m s q hq⟩
    | true => exact ⟨q, fun s => exec_decFrame_lost m s q hq⟩
  | _ => exact ⟨profile.invq0, fun _ => rfl⟩

@[simp] theorem sampleWord_inj (x y : I16) : sampleWord x = sampleWord y ↔ x = y :=
  ⟨fun h => by rw [← sampleOf_sampleWord x, h, sampleOf_sampleWord], congrArg _⟩

theorem setWidth_inj {n : Nat} (h : n ≤ 32) (x y : BitVec n) : x.setWidth 32 = y.setWidth 32 ↔ x = y :=
  ⟨fun he => BitVec.eq_of_toNat_eq (by rw [← toNat_field x h, he, toNat_field y h]), congrArg _⟩

/-- An effect is a function of the registers its row reads, the contexts, the PLC state, the buffers and the frame
length. -/
theorem effect_agree {i : Instr} {s s' : State} (q : BitVec 6 → I16) (henc : s.enc = s'.enc) (hdec : s.dec = s'.dec)
    (hplc : s.plc = s'.plc) (hmem : s.mem = s'.mem) (hlen : s.regs.frameLen = s'.regs.frameLen)
    (hread : ∀ r ∈ regsRead i, readReg s r = readReg s' r) :
    (∀ r ∈ regsWritten i, readReg (s.effect q i) r = readReg (s'.effect q i) r)
      ∧ (s.effect q i).enc = (s'.effect q i).enc ∧ (s.effect q i).dec = (s'.effect q i).dec
      ∧ (s.effect q i).plc = (s'.effect q i).plc ∧ (s.effect q i).mem = (s'.effect q i).mem := by
  cases i with
  | decFrame m h loss =>
    cases loss <;> simp [State.effect, regsWritten, State.goodRun, State.lostRun, State.lostConceal, *]
  | _ =>
    simp only [regsRead, readReg, List.forall_mem_cons, List.not_mem_nil, false_imp_iff,
      sampleWord_inj, setWidth_inj (by decide : 2 ≤ 32), setWidth_inj (by decide : 6 ≤ 32),
      setWidth_inj (by decide : 8 ≤ 32)] at hread
    simp [State.effect, regsWritten, readReg, opA32, opA, opB, opN, *]

/-- Settles O44: outside its row a command writes nothing, and its effect reads nothing outside it. -/
theorem commandRegisters : Obligations.CommandRegisters := by
  refine ⟨fun i s t r h hr hst => readReg_exec h hr hst, ?_⟩
  intro i s s' t t' hwf h h' henc hdec hplc hmem hlen hread
  obtain ⟨q, hq⟩ := exec_effect hwf
  obtain rfl := Host.Outcome.next.inj ((hq s).symm.trans h)
  obtain rfl := Host.Outcome.next.inj ((hq s').symm.trans h')
  exact effect_agree q henc hdec hplc hmem hlen hread

end Sys2Proof.Machine

/-! PROOFS. The host window (20_memory.md): what stands at an offset, what each word reads as, which words keep nothing
of a write, and the obligations of that family. -/

namespace Sys2Proof.Machine

/-! ### The map of the host window, for an aligned offset -/

/-- The offset at which the map of 20_memory.md R101 puts a word, and its number's range. -/
def Target.IsAt (n : Nat) : Target → Prop
  | .reg r => n = regOffset r
  | .encWin k => n = 0x200 + 4 * k ∧ k < 128
  | .decWin k => n = 0x400 + 4 * k ∧ k < 128
  | .plcWin k => n = 0x600 + 4 * k ∧ k < 128
  | .pcm k => n = pcmAddr k ∧ k < 320
  | .code k => n = codeAddr k ∧ k < 160
  | .nst k => n = nstAddr k ∧ k < 160
  | .nse k => n = nseAddr k ∧ k < 160
  | .reserved => n < 0x200 ∨ 0x0D00 ≤ n

theorem targetAt_isAt {n : Nat} (h4 : n % 4 = 0) : (targetAt n).IsAt n := by
  unfold targetAt
  refine iteInduction (motive := Target.IsAt n) (fun _ => ?_) fun _ => ?_
  · split
    · exact (beq_iff_eq.1 (List.find?_some (p := fun r => regOffset r == n) ‹_›)).symm
    · exact .inl ‹_›
  repeat' refine iteInduction (motive := Target.IsAt n) (fun _ => ?_) fun _ => ?_
  all_goals
    simp only [Target.IsAt, pcmAddr, codeAddr, nstAddr, nseAddr]
    omega

theorem regOffset_lt (r : HostReg) : regOffset r < 0x048 := by cases r <;> decide

theorem unimplementedOffset_iff (n : Nat) : unimplementedOffset n = true ↔
    (0x048 ≤ n ∧ n < 0x200) ∨ (0x270 ≤ n ∧ n < 0x280) ∨ (0x2F0 ≤ n ∧ n < 0x300) ∨ (0x360 ≤ n ∧ n < 0x400)
      ∨ (0x470 ≤ n ∧ n < 0x480) ∨ (0x4F0 ≤ n ∧ n < 0x500) ∨ (0x560 ≤ n ∧ n < 0x600) ∨ (0x624 ≤ n ∧ n < 0x800)
      ∨ (0x0D00 ≤ n ∧ n < 0x1000) ∨ (0x1280 ≤ n ∧ n < 0x1800) ∨ (0x1A80 ≤ n ∧ n < 0x2000)
      ∨ (0x2280 ≤ n ∧ n < 0x4000) := by
  unfold unimplementedOffset
  simp only [Bool.or_eq_true, Bool.and_eq_true, decide_eq_true_iff, or_assoc]

theorem readOnlyOffset_iff (n : Nat) : readOnlyOffset n = true ↔
    n ∈ ([0x000, 0x02C, 0x030, 0x034, 0x038, 0x044] : List Nat) ∨ (0x200 ≤ n ∧ n < 0x360) ∨ (0x400 ≤ n ∧ n < 0x560)
      ∨ (0x600 ≤ n ∧ n < 0x624) ∨ (0x1800 ≤ n ∧ n < 0x1A80) ∨ (0x2000 ≤ n ∧ n < 0x2280) := by
  unfold readOnlyOffset
  simp only [Bool.or_eq_true, Bool.and_eq_true, decide_eq_true_iff, List.contains_iff_mem, or_assoc]

/-! ### Undefined accesses (20_memory.md R105) -/

theorem accessOk_eq_false {o : BitVec 14} {w : Width} (h : w ≠ .w32 ∨ o.toNat % 4 ≠ 0) : accessOk o w = false := by
  rw [Bool.eq_false_iff]
  intro hok
  obtain ⟨hw, ho⟩ := accessOk_eq_true hok
  exact h.elim (· hw) (· ho)

/-- Settles O7: such an access is not `accessOk`, and its branch touches the status and the host's word only. -/
theorem busErrorHasNoEffect : Obligations.BusErrorHasNoEffect := by
  intro s o w rest hbad
  have hno := accessOk_eq_false hbad
  refine ⟨fun hin => ?_, fun v hin => ?_⟩ <;> rw [step_of_inputs s _ _ hin]
  · simp only [serve, hostRead, hno, Bool.false_eq_true, if_false]
    rfl
  · simp only [serve, hostWrite, hno, Bool.false_eq_true, if_false]
    rfl

/-! ### The words of the context windows (20_memory.md R102) -/

theorem getD_append_ite {α : Type} (l l' : List α) (d : α) (k : Nat) :
    (l ++ l').getD k d = if k < l.length then l.getD k d else l'.getD (k - l.length) d := by
  split
  · exact List.getD_append _ _ _ _ ‹_›
  · exact List.getD_append_right _ _ _ _ (by omega)

/-- The list of R102's 28 words is the layout by byte offsets. -/
theorem bandWords_getD (B : Band) (k : Nat) : (bandWords B).getD k 0 = bandField B (4 * k) := by
  unfold bandWords bandField
  simp only [List.append_assoc, getD_append_ite, Vector.length_toList]
  iterate 5 refine ite_congr (propext (by omega)) (fun _ => by congr 1; omega) fun _ => ?_
  obtain rfl | rfl | rfl | rfl | rfl | h : k = 23 ∨ k = 24 ∨ k = 25 ∨ k = 26 ∨ k = 27 ∨ 28 ≤ k := by omega
  iterate 5 · rfl
  iterate 5 rw [if_neg (by omega)]
  exact List.getD_eq_default _ _ (show 5 ≤ k - 3 - 7 - 7 - 3 - 3 by omega)

theorem ctxWindow_eq_ctxField (C : Ctx) (k : Nat) : ctxWindow C k = ctxField C (4 * k) := by
  unfold ctxWindow ctxField
  refine ite_congr (propext (by omega)) (fun _ => bandWords_getD _ _) fun _ => ?_
  refine ite_congr (propext (by omega)) (fun _ => ?_) fun _ => ?_
  · rw [bandWords_getD, show 4 * (k - 32) = 4 * k - 0x080 by omega]
  · split
    · congr 1; omega
    · exact List.getD_eq_default _ _ (by rw [Vector.length_toList]; omega)

theorem bandField_eq_zero (B : Band) {o : Nat} (h : 0x070 ≤ o) : bandField B o = 0 := by
  unfold bandField
  iterate 10 rw [if_neg (by omega)]

/-- The holes of a context window. -/
theorem ctxField_eq_zero (C : Ctx) {o : Nat}
    (h : (0x070 ≤ o ∧ o < 0x080) ∨ (0x0F0 ≤ o ∧ o < 0x100) ∨ 0x160 ≤ o) : ctxField C o = 0 := by
  unfold ctxField
  split
  · exact bandField_eq_zero _ (by omega)
  · split
    · exact bandField_eq_zero _ (by omega)
    · rw [if_neg (by omega)]

/-! ### The words of the PLC window (20_memory.md R103) -/

/-- The field at an offset of the PLC window, as the number it is read as. -/
def plcField (p : Plc) (o : Nat) : Nat :=
  if o = 0x600 then classNumber p.cls
  else if o = 0x604 then p.t0
  else if o = 0x608 then episodeNumber p.episode
  else if o = 0x60C then p.prevBfi.toNat
  else if o = 0x610 then p.cntL
  else if o = 0x614 then p.cntH
  else if o = 0x618 then p.xfPos
  else if o = 0x61C then p.xfActive.toNat
  else if o = 0x620 then p.tSyn
  else 0

theorem countWord_of_lt {n : Nat} (h : n < 2 ^ 32) : countWord n = BitVec.ofNat 32 n := if_pos h

theorem boolWord_eq_ofNat (b : Bool) : boolWord b = BitVec.ofNat 32 b.toNat := by cases b <;> rfl

theorem plcWindow_eq_zero (p : Plc) {k : Nat} (h : 9 ≤ k) : plcWindow p k = 0 := List.getD_eq_default _ _ h

theorem plcWindow_eq_plcField (p : Plc) (k : Nat) (h : plcField p (0x600 + 4 * k) < 2 ^ 32) :
    plcWindow p k = BitVec.ofNat 32 (plcField p (0x600 + 4 * k)) := by
  match k with
  | 0 | 1 | 2 | 4 | 5 | 6 | 8 => exact countWord_of_lt h
  | 3 | 7 => exact boolWord_eq_ofNat _
  | k + 9 =>
    rw [plcWindow_eq_zero p (by omega)]
    unfold plcField
    iterate 9 rw [if_neg (by omega)]
    rfl

/-! ### Words that read 0, and words that ignore writes (20_memory.md R106) -/

section Words

variable {n : Nat} (h4 : n % 4 = 0) (v : Word) (s : State)

include h4

theorem readTarget_unimplemented (hu : unimplementedOffset n = true) : readTarget s (targetAt n) = 0 := by
  rw [unimplementedOffset_iff] at hu
  have hw := targetAt_isAt h4
  generalize targetAt n = w at hw ⊢
  cases w with
  | reserved => rfl
  | reg r =>
    have hr := regOffset_lt r
    simp only [Target.IsAt] at hw
    omega
  | encWin k =>
    obtain ⟨rfl, hk⟩ := hw
    rw [readTarget, ctxWindow_eq_ctxField, ctxField_eq_zero _ (by omega)]
    rfl
  | decWin k =>
    obtain ⟨rfl, hk⟩ := hw
    rw [readTarget, ctxWindow_eq_ctxField, ctxField_eq_zero _ (by omega)]
    rfl
  | plcWin k =>
    obtain ⟨rfl, hk⟩ := hw
    exact plcWindow_eq_zero _ (by omega)
  | _ =>
    simp only [Target.IsAt, pcmAddr, codeAddr, nstAddr, nseAddr] at hw
    omega

theorem writeTarget_ignored (h : unimplementedOffset n = true ∨ readOnlyOffset n = true) :
    writeTarget v s (targetAt n) = s := by
  have hw := targetAt_isAt h4
  generalize targetAt n = w at hw ⊢
  cases w with
  | reg r =>
    cases r with
    | id | cmd | y0 | y1 | nsTgt | nsErr | satR => rfl
    | _ =>
      subst hw
      exact absurd h (by decide)
  | pcm k | code k =>
    simp only [Target.IsAt, pcmAddr, codeAddr] at hw
    simp only [unimplementedOffset_iff, readOnlyOffset_iff, List.mem_cons, List.not_mem_nil, or_false] at h
    omega
  | _ => rfl

/-- A write reaches no byte of another word. -/
theorem writeTarget_mem_get (a : Nat) (ha : a < n ∨ n + 4 ≤ a) :
    (writeTarget v s (targetAt n)).mem.get a = s.mem.get a := by
  have hw := targetAt_isAt h4
  generalize targetAt n = w at hw ⊢
  cases w with
  | reg r => rw [writeTarget, writeReg_mem]
  | pcm k =>
    obtain ⟨rfl, -⟩ := hw
    exact (Memory.get_put_ne _ _ _ _ (by omega)).trans (Memory.get_put_ne _ _ _ _ (by omega))
  | code k =>
    obtain ⟨rfl, -⟩ := hw
    exact Memory.get_put_ne _ _ _ _ (by omega)
  | _ => rfl

end Words

section Access

variable {s : State} {rest : List HostInput} {o : BitVec 14} {v : Word}

/-- A write that a word ignores takes nothing but the access. -/
theorem step_write_ignored (ho : o.toNat % 4 = 0)
    (h : unimplementedOffset o.toNat = true ∨ readOnlyOffset o.toNat = true)
    (hin : s.bus.inputs = .write o .w32 v :: rest) : step s = .next { s with bus := { s.bus with inputs := rest } } := by
  have hc : targetAt o.toNat ≠ .reg .cmd := by
    intro he
    rw [targetAt_eq_reg he] at h
    exact absurd h (by decide)
  rw [step_write ho hc hin, writeTarget_ignored ho v _ h]
  rfl

/-- The words between the registers and the buffers are read-only or unimplemented. -/
theorem step_write_window (ho : o.toNat % 4 = 0) (h0 : 0x200 ≤ o.toNat) (h1 : o.toNat < 0x800)
    (hin : s.bus.inputs = .write o .w32 v :: rest) : step s = .next { s with bus := { s.bus with inputs := rest } } := by
  refine step_write_ignored ho ?_ hin
  rw [unimplementedOffset_iff, readOnlyOffset_iff]
  omega

/-- A `STATUS` write without bit 1 (10_state.md R43). -/
theorem writeStatus_of_bit_clear (st : Status) (hv : v.toNat / 2 % 2 = 0) : writeStatus v st = st := by
  have hbit : v.getLsbD 1 = false := by
    rw [BitVec.getLsbD, Nat.testBit_eq_decide_div_mod_eq, decide_eq_false_iff_not]
    omega
  rw [writeStatus, hbit]
  rfl

end Access

/-- The reserved bits of the `STATUS` word. -/
theorem toNat_statusWord_reserved (st : Status) (p : Plc) :
    (statusWord st p).toNat / 4 % 4 = 0 ∧ (statusWord st p).toNat / 8192 = 0 := by
  obtain ⟨-, -, hlow, -, -, -, -, hhigh⟩ := statusWord_fields st p
  have hlow := congrArg BitVec.toNat hlow
  have hhigh := congrArg BitVec.toNat hhigh
  rw [BitVec.extractLsb'_toNat, Nat.shiftRight_eq_div_pow, BitVec.toNat_ofNat] at hlow hhigh
  have hlt := (statusWord st p).isLt
  omega

/-- Settles O8: such a word's target reads 0, ignores writes, or both, and the `STATUS` word is known bit by bit. -/
theorem unimplementedWords : Obligations.UnimplementedWords := by
  refine ⟨fun s o rest ho => ⟨fun hu hin => ?_, fun v h hin => step_write_ignored ho h hin⟩,
    fun s => toNat_statusWord_reserved s.status s.plc, fun s v rest hv hin => ?_⟩
  · rw [step_read ho hin, readTarget_unimplemented ho s hu]
  · rw [step_writeReg (r := .status) (by decide) hin, writeReg, State.clearError, writeStatus_of_bit_clear _ hv]
    rfl

/-! ### Side effects (20_memory.md R107) -/

theorem readTarget_withBus (s : State) (b : Bus) (w : Target) : readTarget { s with bus := b } w = readTarget s w := by
  cases w with
  | reg r => cases r <;> rfl
  | _ => rfl

/-- A write changes what no register but its own reads. -/
theorem readReg_writeTarget_ne (v : Word) (s : State) {r : HostReg} {w : Target} (h : w ≠ .reg r) :
    readReg (writeTarget v s w) r = readReg s r := by
  cases w with
  | reg q => exact readReg_writeReg_ne v s fun he => h (by rw [he])
  | _ => cases r <;> rfl

/-- Settles O9: a read's word does not depend on the host's side, and a write stays within its target. -/
theorem accessSideEffects : Obligations.AccessSideEffects := by
  refine ⟨fun s o rest ho hin => ⟨_, step_read ho hin, fun x more => ?_⟩, fun s o v rest ho hcmd hclear hin => ?_⟩
  · rw [step_read ho rfl, readTarget_withBus]
  · have hc : targetAt o.toNat ≠ .reg .cmd := fun he => hcmd (targetAt_eq_reg he)
    obtain ⟨henc, hdec, hplc, hbus⟩ := writeTarget_keeps v (s.setInputs rest) (targetAt o.toNat)
    refine ⟨_, step_write ho hc hin, ?_, henc, hdec, hplc, hbus, fun r hr => ?_,
      writeTarget_mem_get ho v (s.setInputs rest)⟩
    · rw [writeTarget_status]
      split
      · have h8 : o.toNat = 0x008 := targetAt_eq_reg ‹_›
        exact writeStatus_of_bit_clear _ (by omega)
      · rfl
    · rw [readReg_writeTarget_ne v _ fun he => hr (targetAt_eq_reg he).symm]
      exact readTarget_setInputs s rest (.reg r)

/-! ### The windows -/

theorem targetAt_encWin {k : Nat} (h : k < 128) : targetAt (0x200 + 4 * k) = .encWin k := by
  unfold targetAt
  rw [if_neg (by omega), if_pos (by omega)]
  congr 1; omega

theorem targetAt_decWin {k : Nat} (h : k < 128) : targetAt (0x400 + 4 * k) = .decWin k := by
  unfold targetAt
  iterate 2 rw [if_neg (by omega)]
  rw [if_pos (by omega)]
  congr 1; omega

theorem targetAt_plcWin {k : Nat} (h : k < 128) : targetAt (0x600 + 4 * k) = .plcWin k := by
  unfold targetAt
  iterate 3 rw [if_neg (by omega)]
  rw [if_pos (by omega)]
  congr 1; omega

theorem readTarget_encWin (s : State) {n : Nat} (h4 : n % 4 = 0) (h0 : 0x200 ≤ n) (h1 : n < 0x400) :
    readTarget s (targetAt n) = sampleWord (ctxField s.enc (n - 0x200)) := by
  obtain ⟨k, rfl⟩ : ∃ k, n = 0x200 + 4 * k := ⟨(n - 0x200) / 4, by omega⟩
  rw [targetAt_encWin (by omega), readTarget, ctxWindow_eq_ctxField, Nat.add_sub_cancel_left]

theorem readTarget_decWin (s : State) {n : Nat} (h4 : n % 4 = 0) (h0 : 0x400 ≤ n) (h1 : n < 0x600) :
    readTarget s (targetAt n) = sampleWord (ctxField s.dec (n - 0x400)) := by
  obtain ⟨k, rfl⟩ : ∃ k, n = 0x400 + 4 * k := ⟨(n - 0x400) / 4, by omega⟩
  rw [targetAt_decWin (by omega), readTarget, ctxWindow_eq_ctxField, Nat.add_sub_cancel_left]

theorem readTarget_plcWin (s : State) {n : Nat} (h4 : n % 4 = 0) (h0 : 0x600 ≤ n) (h1 : n < 0x800)
    (hn : plcField s.plc n < 2 ^ 32) : readTarget s (targetAt n) = BitVec.ofNat 32 (plcField s.plc n) := by
  obtain ⟨k, rfl⟩ : ∃ k, n = 0x600 + 4 * k := ⟨(n - 0x600) / 4, by omega⟩
  rw [targetAt_plcWin (by omega)]
  exact plcWindow_eq_plcField s.plc k hn

/-- Settles O13: the list of R102's words agrees with the layout by offsets, holes included. -/
theorem contextWindows : Obligations.ContextWindows := by
  refine fun s o rest ho h0 h1 => ⟨fun hin => ?_, fun v hin => step_write_window ho h0 (by omega) hin⟩
  rw [step_read ho hin]
  split
  · rw [readTarget_encWin s ho h0 ‹_›]; rfl
  · rw [readTarget_decWin s ho (by omega) h1]; rfl

/-- Settles O14: each word of the list is its field's count or bit, where the count fits. -/
theorem plcWindow_fields : Obligations.PlcWindow := by
  refine fun s o rest ho h0 h1 => ⟨fun n hn hfield hin => ?_, fun v hin => step_write_window ho (by omega) h1 hin⟩
  change n = plcField s.plc o.toNat at hfield
  subst hfield
  rw [step_read ho hin, readTarget_plcWin s ho h0 h1 hn]

end Sys2Proof.Machine

/-! PROOFS. The command word (30_encoding.md): its fields, the bits that a row of the opcode map uses, and the
obligations of that family. -/

namespace Sys2Proof

/-! ### A word and its fields -/

@[simp] theorem LMode.ofCode_code (m : LMode) : LMode.ofCode m.code = m := by cases m <;> rfl

@[simp] theorem LMode.code_ofCode (c : BitVec 2) : (LMode.ofCode c).code = c := by revert c; decide

@[simp] theorem HMode.ofCode_code (h : HMode) : HMode.ofCode h.code = h := by cases h <;> rfl

@[simp] theorem HMode.code_ofCode (c : BitVec 1) : (HMode.ofCode c).code = c := by revert c; decide

@[simp] theorem ofBool_beq_one (b : BitVec 1) : BitVec.ofBool (b == 1#1) = b := by revert b; decide

@[simp] theorem beq_one_ofBool (b : Bool) : (BitVec.ofBool b == 1#1) = b := by cases b <;> rfl

/-- The word `CMDW` with the given fields, each above the next (30_encoding.md R140). -/
def fieldsWord (rsv : BitVec 20) (loss hmode : BitVec 1) (lmode : BitVec 2) (opc : BitVec 8) : Word :=
  rsv ++ loss ++ hmode ++ lmode ++ opc

section Fields
variable (rsv : BitVec 20) (loss hmode : BitVec 1) (lmode : BitVec 2) (opc : BitVec 8)

@[simp] theorem opcOf_fieldsWord : opcOf (fieldsWord rsv loss hmode lmode opc) = opc :=
  BitVec.extractLsb'_append_eq_right

@[simp] theorem lmodeOf_fieldsWord : lmodeOf (fieldsWord rsv loss hmode lmode opc) = LMode.ofCode lmode :=
  congrArg _ <| (BitVec.extractLsb'_append_eq_of_le (by decide)).trans BitVec.extractLsb'_append_eq_right

@[simp] theorem hmodeOf_fieldsWord : hmodeOf (fieldsWord rsv loss hmode lmode opc) = HMode.ofCode hmode :=
  congrArg _ <| (BitVec.extractLsb'_append_eq_of_le (by decide)).trans <|
    (BitVec.extractLsb'_append_eq_of_le (by decide)).trans BitVec.extractLsb'_append_eq_right

@[simp] theorem lossOf_fieldsWord : lossOf (fieldsWord rsv loss hmode lmode opc) = (loss == 1#1) :=
  congrArg (· == 1#1) <| (BitVec.extractLsb'_append_eq_of_le (by decide)).trans <|
    (BitVec.extractLsb'_append_eq_of_le (by decide)).trans <|
    (BitVec.extractLsb'_append_eq_of_le (by decide)).trans BitVec.extractLsb'_append_eq_right

@[simp] theorem rsvOf_fieldsWord : rsvOf (fieldsWord rsv loss hmode lmode opc) = rsv :=
  (BitVec.extractLsb'_append_eq_of_le (by decide)).trans <|
    (BitVec.extractLsb'_append_eq_of_le (by decide)).trans <|
    (BitVec.extractLsb'_append_eq_of_le (by decide)).trans BitVec.extractLsb'_append_eq_left

end Fields

theorem fieldsWord_and (rsv rsv' : BitVec 20) (loss loss' hmode hmode' : BitVec 1) (lmode lmode' : BitVec 2)
    (opc opc' : BitVec 8) : fieldsWord rsv loss hmode lmode opc &&& fieldsWord rsv' loss' hmode' lmode' opc' =
      fieldsWord (rsv &&& rsv') (loss &&& loss') (hmode &&& hmode') (lmode &&& lmode') (opc &&& opc') := by
  unfold fieldsWord
  rw [BitVec.and_append, BitVec.and_append, BitVec.and_append, BitVec.and_append]

/-- The five fields are the whole word. -/
theorem fieldsWord_eta (v : Word) :
    fieldsWord (rsvOf v) (v.extractLsb' 11 1) (v.extractLsb' 10 1) (v.extractLsb' 8 2) (opcOf v) = v := by
  unfold fieldsWord rsvOf opcOf
  ext
  grind

/-- The shifts of `cmdWord` put each field in its place. -/
theorem cmdWord_eq_fieldsWord (o : BitVec 8) (m : LMode) (h : HMode) (loss : Bool) :
    cmdWord o m h loss = fieldsWord 0#20 (BitVec.ofBool loss) h.code m.code o := by
  unfold cmdWord fieldsWord
  ext
  grind

/-- A word without reserved bits is the command word of its own fields. -/
theorem cmdWord_fields {v : Word} (hv : rsvOf v = 0#20) : cmdWord (opcOf v) (lmodeOf v) (hmodeOf v) (lossOf v) = v := by
  rw [cmdWord_eq_fieldsWord, lmodeOf, hmodeOf, lossOf, LMode.code_ofCode, HMode.code_ofCode, ofBool_beq_one, ← hv,
    fieldsWord_eta]

/-! ### The bits that a command uses -/

/-- The mask of `OPC`, `RSV` and the used ones of the fields `LMODE`, `HMODE` and `LOSS` (30_encoding.md R145). -/
def fieldMask (useL useH useLoss : Bool) : Word :=
  fieldsWord (BitVec.allOnes 20) (BitVec.fill 1 useLoss) (BitVec.fill 1 useH) (BitVec.fill 2 useL) (BitVec.allOnes 8)

/-- Under the mask, a field that is not used is 0. -/
theorem cmdWord_and_fieldMask (o : BitVec 8) (m : LMode) (h : HMode) (loss useL useH useLoss : Bool) :
    cmdWord o m h loss &&& fieldMask useL useH useLoss
      = cmdWord o (if useL then m else .bits6) (if useH then h else .bits2) (useLoss && loss) := by
  have hm : m.code &&& BitVec.fill 2 useL = (if useL then m else .bits6).code := by
    cases useL <;> cases m <;> rfl
  have hh : h.code &&& BitVec.fill 1 useH = (if useH then h else .bits2).code := by
    cases useH <;> cases h <;> rfl
  have hl : BitVec.ofBool loss &&& BitVec.fill 1 useLoss = BitVec.ofBool (useLoss && loss) := by
    cases useLoss <;> cases loss <;> rfl
  rw [cmdWord_eq_fieldsWord, cmdWord_eq_fieldsWord, fieldMask, fieldsWord_and, hm, hh, hl, BitVec.and_allOnes,
    BitVec.and_allOnes]

/-! ### The rows of the opcode map -/

/-- The bits that a row uses: `OPC`, `RSV` and each field on which its command depends (30_encoding.md R146). -/
def OpcRow.mask (r : OpcRow) : Word :=
  fieldMask (r.make .bits5 .bits2 false != r.make .bits6 .bits2 false)
    (r.make .bits6 .bits3 false != r.make .bits6 .bits2 false)
    (r.make .bits6 .bits2 true != r.make .bits6 .bits2 false)

/-- Every row uses `OPC`. -/
theorem opcOf_and_mask (v : Word) (r : OpcRow) : opcOf (v &&& r.mask) = opcOf v := by
  rw [opcOf, BitVec.extractLsb'_and, ← opcOf, ← opcOf, OpcRow.mask, fieldMask, opcOf_fieldsWord, BitVec.and_allOnes]

/-- Every row uses `RSV`. -/
theorem rsvOf_and_mask (v : Word) (r : OpcRow) : rsvOf (v &&& r.mask) = rsvOf v := by
  rw [rsvOf, BitVec.extractLsb'_and, ← rsvOf, ← rsvOf, OpcRow.mask, fieldMask, rsvOf_fieldsWord, BitVec.and_allOnes]

theorem usedMask_make {r : OpcRow} (hr : r ∈ opcRows) (m : LMode) (h : HMode) (loss : Bool) :
    usedMask (r.make m h loss) = r.mask := by
  fin_cases hr <;> rfl

/-- A row's command word has 0 in the fields that the row does not use. -/
theorem encode_make {r : OpcRow} (hr : r ∈ opcRows) (m : LMode) (h : HMode) (loss : Bool) :
    encode (r.make m h loss) = cmdWord r.opc m h loss &&& r.mask := by
  rw [OpcRow.mask, cmdWord_and_fieldMask]
  fin_cases hr <;> rfl

/-- No two rows of the opcode map have one opcode. -/
theorem opcRow_eq_some_iff {o : BitVec 8} {r : OpcRow} : opcRow o = some r ↔ r ∈ opcRows ∧ r.opc = o := by
  constructor
  · intro h
    exact ⟨List.mem_of_find?_eq_some h, by simpa using List.find?_some h⟩
  · rintro ⟨hr, rfl⟩
    fin_cases hr <;> rfl

/-- What decodes: an opcode of the map, with no reserved bit set; the row makes the command of the other fields. -/
theorem decode_eq_ok_iff {v : Word} {i : Instr} : decode v = .ok i ↔
    ∃ r ∈ opcRows, r.opc = opcOf v ∧ rsvOf v = 0#20 ∧ r.make (lmodeOf v) (hmodeOf v) (lossOf v) = i := by
  have hdec : decode v = .ok i ↔
      ∃ r, opcRow (opcOf v) = some r ∧ rsvOf v = 0#20 ∧ r.make (lmodeOf v) (hmodeOf v) (lossOf v) = i := by
    unfold decode
    cases opcRow (opcOf v) with
    | none => simp
    | some r => by_cases hrsv : rsvOf v = 0#20 <;> simp [hrsv]
  simp only [hdec, opcRow_eq_some_iff, and_assoc]

theorem decode_cmdWord (o : BitVec 8) (m : LMode) (h : HMode) (loss : Bool) : decode (cmdWord o m h loss) =
    (opcRow o).elim (.error .illegalOpc) fun r => .ok (r.make m h loss) := by
  rw [cmdWord_eq_fieldsWord, decode]
  cases hrow : opcRow o <;> simp [hrow]

/-- Settles O2: the row of the command's opcode makes it again from the three fields. -/
theorem decodeOfEncode : Obligations.DecodeOfEncode := by
  intro i
  cases i <;> exact decode_cmdWord _ _ _ _

theorem encode_injective : Function.Injective encode := fun i j h =>
  Except.ok.inj ((decodeOfEncode i).symm.trans ((congrArg decode h).trans (decodeOfEncode j)))

theorem and_usedMask_of_decode {v : Word} {i : Instr} (hv : decode v = .ok i) : v &&& usedMask i = encode i := by
  obtain ⟨r, hr, hopc, hrsv, rfl⟩ := decode_eq_ok_iff.1 hv
  rw [usedMask_make hr, encode_make hr, hopc, cmdWord_fields hrsv]

/-- Settles O3: a row's words are its command words with the fields that it does not use left free, and a command's
word has the opcode of the row that makes the command. -/
theorem decodesExactlyItsWords : Obligations.DecodesExactlyItsWords := by
  refine fun v i => ⟨and_usedMask_of_decode, fun hv => ?_⟩
  obtain ⟨r, hr, hopc, hrsv, hi⟩ := decode_eq_ok_iff.1 (decodeOfEncode i)
  have hmask : usedMask i = r.mask := hi ▸ usedMask_make hr _ _ _
  have hdec : decode v = .ok (r.make (lmodeOf v) (hmodeOf v) (lossOf v)) := by
    refine decode_eq_ok_iff.2 ⟨r, hr, ?_, ?_, rfl⟩
    · rw [hopc, ← hv, hmask, opcOf_and_mask]
    · rw [← hrsv, ← hv, hmask, rsvOf_and_mask]
  have hsame := and_usedMask_of_decode hdec
  rw [usedMask_make hr, ← hmask, hv] at hsame
  rw [hdec, encode_injective hsame]

/-- Settles O1: each word is evaluated. -/
theorem sampleWordsDecode : Obligations.SampleWordsDecode := by
  unfold Obligations.SampleWordsDecode
  decide

end Sys2Proof

/-! PROOFS. The saturating unit (40_saturating_arith.md): where the primitives leave i16, what each command writes, and
the obligations of that family. -/

namespace Sys2Proof.Machine

/-! ### Where a primitive leaves i16 (40_saturating_arith.md R183) -/

theorem clamp_of_le_lo {v lo hi : Int} (h : v ≤ lo) : clamp v lo hi = lo :=
  max_eq_left ((min_le_right hi v).trans h)

theorem clamp_of_hi_le {v lo hi : Int} (hlo : lo ≤ hi) (h : hi ≤ v) : clamp v lo hi = hi := by
  rw [clamp, min_eq_left h, max_eq_right hlo]

/-- A product has at most `2^30 - 2^15` in size once one factor is not the least i16. -/
theorem abs_mul_le_of_ne_min {a : I16} (b : I16) (ha : a.toInt ≠ -32768) :
    |a.toInt * b.toInt| ≤ 32767 * 32768 := by
  have ha' : |a.toInt| ≤ 32767 := abs_le.2 ⟨by have := i16_lo a; omega, i16_hi a⟩
  have hb' : |b.toInt| ≤ 32768 := abs_le.2 ⟨i16_lo b, (i16_hi b).trans (by decide)⟩
  rw [abs_mul]
  exact mul_le_mul ha' hb' (abs_nonneg _) (by decide)

theorem mult_comm (a b : I16) : mult a b = mult b a := by
  rw [mult, mult, Int.mul_comm]

theorem toInt_mult_of_ne_min {a : I16} (b : I16) (ha : a.toInt ≠ -32768) :
    (mult a b).toInt = a.toInt * b.toInt / 32768 := by
  obtain ⟨hlo, hhi⟩ := abs_le.1 (abs_mul_le_of_ne_min b ha)
  rw [toInt_mult]
  exact clamp_of_mem _ _ _ (by omega) (by omega)

/-- The one product that saturates is that of the least i16 by itself. -/
theorem toInt_mult_eq_ite (a b : I16) : (mult a b).toInt =
    if a.toInt = -32768 ∧ b.toInt = -32768 then 32767 else a.toInt * b.toInt / 32768 := by
  split
  case isTrue h =>
    obtain ⟨ha, hb⟩ := h
    rw [toInt_mult, ha, hb]
    decide
  case isFalse h =>
    by_cases ha : a.toInt = -32768
    · rw [mult_comm, toInt_mult_of_ne_min a fun hb => h ⟨ha, hb⟩, Int.mul_comm]
    · exact toInt_mult_of_ne_min b ha

theorem toInt_shl16_of_width_le (a : I16) {n : Nat} (hn : 16 ≤ n) :
    (shl16 a n).toInt = if a.toInt = 0 then 0 else if 0 < a.toInt then 32767 else -32768 := by
  have hpow : (2 : Int) ^ 16 ≤ 2 ^ n := pow_le_pow_right₀ (by decide) hn
  rw [toInt_shl16]
  rcases lt_trichotomy a.toInt 0 with hneg | hzero | hpos
  · rw [if_neg hneg.ne, if_neg hneg.not_gt]
    exact clamp_of_le_lo (by nlinarith)
  · rw [if_pos hzero, hzero, Int.zero_mul]
    rfl
  · rw [if_neg hpos.ne', if_pos hpos]
    exact clamp_of_hi_le (by decide) (by nlinarith)

theorem toInt_shr16_of_width_le (a : I16) {n : Nat} (hn : 15 ≤ n) :
    (shr16 a n).toInt = if 0 ≤ a.toInt then 0 else -1 := by
  have hpow : (2 : Int) ^ 15 ≤ 2 ^ n := pow_le_pow_right₀ (by decide) hn
  have hlo := i16_lo a
  have hhi := i16_hi a
  rw [toInt_shr16]
  split
  case isTrue h => exact Int.ediv_eq_zero_of_lt h (by omega)
  case isFalse h => exact (Int.ediv_eq_iff_of_pos (by omega)).2 ⟨by omega, by omega⟩

/-- Settles O20: the primitives are clamps of the integer operations, but for the right shift, which stays in i16; a
product reaches the clamp at one pair of factors, and a left shift by the width or more at every `a` but 0. -/
theorem fixedPointPrimitives : Obligations.FixedPointPrimitives := fun a b n =>
  ⟨toInt_add16 a b, toInt_sub16 a b, toInt_neg16 a, toInt_mult_eq_ite a b, toInt_shl16 a n, toInt_shr16 a n,
    toInt_shl16_of_width_le a, toInt_shr16_of_width_le a⟩

/-! ### The commands (40_saturating_arith.md R184 to R189) -/

theorem exec_sat (s : State) : exec .sat s = .next (s.setSatR (sat16 (opA32 s.regs))) := rfl

theorem exec_sadd (s : State) : exec .sadd s = .next (s.setSatR (add16 (opA s.regs) (opB s.regs))) := rfl

theorem exec_ssub (s : State) : exec .ssub s = .next (s.setSatR (sub16 (opA s.regs) (opB s.regs))) := rfl

theorem exec_smulq15 (s : State) : exec .smulq15 s = .next (s.setSatR (mult (opA s.regs) (opB s.regs))) := rfl

theorem exec_sshl (s : State) : exec .sshl s = .next (s.setSatR (shl16 (opA s.regs) (opN s.regs))) := rfl

theorem exec_sshr (s : State) : exec .sshr s = .next (s.setSatR (shr16 (opA s.regs) (opN s.regs))) := rfl

theorem opN_eq_mod (r : Regs) : opN r = r.satB.toNat % 32 := by
  rw [opN, BitVec.extractLsb'_toNat, Nat.shiftRight_zero]

/-- Settles O21: each command writes the primitive's result to `SAT_R`. -/
theorem saturateAddSubtract : Obligations.SaturateAddSubtract := fun s =>
  ⟨⟨_, toInt_sat16 _, exec_sat s⟩, ⟨_, toInt_add16 _ _, exec_sadd s⟩, ⟨_, toInt_sub16 _ _, exec_ssub s⟩⟩

/-- Settles O22: each command writes the primitive's result to `SAT_R`, and the shifts' count is `SAT_B` modulo 32. -/
theorem multiplyAndShift : Obligations.MultiplyAndShift := by
  intro s a b n
  have hn : opN s.regs = n := opN_eq_mod s.regs
  refine ⟨⟨_, toInt_mult _ _, exec_smulq15 s⟩, ⟨_, ?_, exec_sshl s⟩, ⟨_, ?_, exec_sshr s⟩⟩
  · rw [hn]
    exact toInt_shl16 _ n
  · rw [hn]
    exact toInt_shr16 _ n

end Sys2Proof.Machine

/-! PROOFS. The QMF filterbank (41_qmf.md): the dot products as sums and how large they get, what each command writes,
and the obligations of that family. -/

namespace Sys2Proof.Machine

/-! ### The delay line and the dot products (41_qmf.md R200, R201) -/

theorem push2_getElem_add_two (D : Vector I16 24) (u v : I16) (k : Fin 22) : (push2 D u v)[k.val + 2] = D[k.val] := by
  fin_cases k <;> rfl

theorem dotEven_eq_sum (h D : Vector I16 24) :
    dotEven h D = ∑ i : Fin 12, h[2 * i.val].toInt * D[2 * i.val].toInt := by
  simp [dotEven, Fin.sum_univ_succ, add_assoc]

theorem dotOdd_eq_sum (h D : Vector I16 24) :
    dotOdd h D = ∑ i : Fin 12, h[2 * i.val + 1].toInt * D[2 * i.val + 1].toInt := by
  simp [dotOdd, Fin.sum_univ_succ, add_assoc]

theorem qmfHRef_symmetric : ∀ j : Fin 24, qmfHRef[j] = qmfHRef[23 - j.val] := by decide

/-- Settles O23: the shift by its entries, each product as its sum, and the 24 reference coefficients evaluated. -/
theorem delayLineAndProducts : Obligations.DelayLineAndProducts :=
  ⟨fun D u v => ⟨rfl, rfl, push2_getElem_add_two D u v⟩, fun h D => ⟨dotEven_eq_sum h D, dotOdd_eq_sum h D⟩,
    qmfHRef_symmetric⟩

/-! ### How large the analysis sums get (41_qmf.md R202) -/

theorem abs_toInt_i16_le (x : I16) : |x.toInt| ≤ 32768 :=
  abs_le.2 ⟨i16_lo x, (i16_hi x).trans (by decide)⟩

/-- A dot product is at most its coefficients' magnitudes at the largest sample. -/
theorem abs_sum_mul_toInt_le {n : Nat} (c : Fin n → Int) (x : Fin n → I16) :
    |∑ i, c i * (x i).toInt| ≤ (∑ i, |c i|) * 32768 := by
  rw [Finset.sum_mul]
  refine (Finset.abs_sum_le_sum_abs _ _).trans (Finset.sum_le_sum fun i _ => ?_)
  rw [abs_mul]
  exact mul_le_mul_of_nonneg_left (abs_toInt_i16_le _) (abs_nonneg _)

/-- The magnitudes of the even reference coefficients add up to 6482. -/
theorem abs_dotEven_qmfHRef_le (D : Vector I16 24) : |dotEven qmfHRef D| ≤ 6482 * 32768 := by
  have hsum : ∑ i : Fin 12, |qmfHRef[2 * i.val].toInt| = 6482 := by decide
  rw [dotEven_eq_sum, ← hsum]
  exact abs_sum_mul_toInt_le (fun i => qmfHRef[2 * i.val].toInt) fun i => D[2 * i.val]

/-- The magnitudes of the odd reference coefficients add up to 6482 too, by the symmetry of R201. -/
theorem abs_dotOdd_qmfHRef_le (D : Vector I16 24) : |dotOdd qmfHRef D| ≤ 6482 * 32768 := by
  have hsum : ∑ i : Fin 12, |qmfHRef[2 * i.val + 1].toInt| = 6482 := by decide
  rw [dotOdd_eq_sum, ← hsum]
  exact abs_sum_mul_toInt_le (fun i => qmfHRef[2 * i.val + 1].toInt) fun i => D[2 * i.val + 1]

/-- `25928 * 2^14` is the largest sum that the two dot products reach, so an output of this size needs no clamp. -/
theorem toInt_sat16_shiftR_of_abs_le {v : Int} (hv : |v| ≤ 25928 * 2 ^ 14) :
    (sat16 (shiftR v 14)).toInt = v / 2 ^ 14 ∧ |(sat16 (shiftR v 14)).toInt| ≤ 25928 := by
  obtain ⟨hlo, hhi⟩ := abs_le.1 hv
  have hval : (sat16 (shiftR v 14)).toInt = v / 2 ^ 14 :=
    (toInt_sat16 _).trans (clamp_of_mem _ _ _ (by unfold shiftR; omega) (by unfold shiftR; omega))
  exact ⟨hval, hval ▸ abs_le.2 ⟨by omega, by omega⟩⟩

/-! ### The commands (41_qmf.md R202, R203) -/

theorem exec_qmfTx (s : State) : exec .qmfTx s = .next (s.qmfTx profile) := rfl

theorem exec_qmfRx (s : State) : exec .qmfRx s = .next (s.qmfRx profile) := rfl

/-- Settles O24: the two dot products are each at most `6482 * 2^15` in size, so their sum and their difference are at
most `25928 * 2^14`. -/
theorem qmfAnalysis : Obligations.QmfAnalysis := by
  intro s D XA XB
  have hA : |XA| ≤ 6482 * 32768 := abs_dotEven_qmfHRef_le D
  have hB : |XB| ≤ 6482 * 32768 := abs_dotOdd_qmfHRef_le D
  have hsum : |XA + XB| ≤ 25928 * 2 ^ 14 := (abs_add_le XA XB).trans (by omega)
  have hdiff : |XA - XB| ≤ 25928 * 2 ^ 14 := (abs_sub XA XB).trans (by omega)
  obtain ⟨hxl, hxlBound⟩ := toInt_sat16_shiftR_of_abs_le hsum
  obtain ⟨hxh, hxhBound⟩ := toInt_sat16_shiftR_of_abs_le hdiff
  exact ⟨_, _, hxl, hxh, hxlBound, hxhBound, exec_qmfTx s⟩

/-- Settles O25: each output is the saturation of its shifted dot product. -/
theorem qmfSynthesis : Obligations.QmfSynthesis := fun s =>
  ⟨_, _, toInt_sat16 _, toInt_sat16 _, exec_qmfRx s⟩

end Sys2Proof.Machine

/-! PROOFS. The adaptation (42_adpcm_adapt.md): each stage's result under the reference profile, the range of the step
sizes, the two halves apart, and the obligations of that family. -/

namespace Sys2Proof.Machine

/-! ### The new coefficients (42_adpcm_adapt.md R223 to R225) -/

theorem sgn_eq_sgn_iff (x y : I16) : sgn x = sgn y ↔ (x.toInt < 0 ↔ y.toInt < 0) := by
  rw [sgn, sgn, decide_eq_decide]

theorem neg16_zero : neg16 0 = 0 := by decide

theorem neg16_128 : neg16 128 = -128 := by decide

theorem neg16_192 : neg16 192 = -192 := by decide

/-- The increment follows the agreement of the signs; a zero difference signal gives none, of either sign. -/
theorem upzeroTap_profile (d b x : I16) : upzeroTap profile d b x =
    add16 (if d.toInt = 0 then 0 else if (x.toInt < 0 ↔ d.toInt < 0) then 128 else -128) (mult b 32640) := by
  show add16 (if sgn x = sgn d then (if d.toInt = 0 then 0 else 128) else neg16 (if d.toInt = 0 then 0 else 128)) _ = _
  by_cases hd : d.toInt = 0
  · simp only [if_pos hd, neg16_zero, ite_self]
    rfl
  · simp only [if_neg hd, sgn_eq_sgn_iff, neg16_128]
    rfl

theorem toInt_uppol2_profile (B : Band) : (uppol2 profile B).toInt = max (-12288) (min 12288
    (add16 (add16
      (shr16 (if sgn B.p[0] = sgn B.p[1] then neg16 (shl16 B.a[1] 2) else shl16 B.a[1] 2) 7)
      (if sgn B.p[0] = sgn B.p[2] then 128 else -128)) (mult B.a[2] 32512)).toInt) := by
  rw [← neg16_128]
  exact toInt_clamp16 _ (-12288) 12288 (by decide) (by decide) (by decide)

/-- The bound of the first pole coefficient needs no saturation once the second is within its own. -/
theorem toInt_sub16_al1Base {x : I16} (hlo : -12288 ≤ x.toInt) (hhi : x.toInt ≤ 12288) :
    (sub16 al1Base x).toInt = 15360 - x.toInt := by
  have hbase : al1Base.toInt = 15360 := by decide
  rw [toInt_sub16, hbase, clamp_of_mem _ _ _ (by omega) (by omega)]

theorem toInt_uppol1_profile (B : Band) {x : I16} (hlo : -12288 ≤ x.toInt) (hhi : x.toInt ≤ 12288) :
    (uppol1 profile B x).toInt = max (-(15360 - x.toInt)) (min (15360 - x.toInt)
      (add16 (if sgn B.p[0] = sgn B.p[1] then 192 else -192) (mult B.a[1] 32640)).toInt) := by
  simp only [uppol1]
  rw [toInt_sub16_al1Base hlo hhi, ← neg16_192]
  exact toInt_clamp16 _ _ _ (by omega) (by omega) (by omega)

/-! ### Each coefficient by its place -/

theorem adapt_b_succ (P : Profile) (B : Band) (d w : I16) (k : BandId) (i : Fin 6) :
    (adapt P B d w k).b[i.val + 1] = upzeroTap P d B.b[i.val + 1] B.d[i.val + 1] := by
  simp only [adapt_b]
  fin_cases i <;> rfl

theorem adapt_b_zero (P : Profile) (B : Band) (d w : I16) (k : BandId) : (adapt P B d w k).b[0] = B.b[0] := by
  rw [adapt_b]; rfl

theorem adapt_a_zero (P : Profile) (B : Band) (d w : I16) (k : BandId) : (adapt P B d w k).a[0] = B.a[0] := by
  rw [adapt_a]; rfl

theorem adapt_a_two (P : Profile) (B : Band) (d w : I16) (k : BandId) :
    (adapt P B d w k).a[2] = uppol2 P (partialStep B d) := by
  rw [adapt_a]; rfl

/-- The first pole coefficient is formed from the second's new value (42_adpcm_adapt.md R229). -/
theorem adapt_a_one (P : Profile) (B : Band) (d w : I16) (k : BandId) :
    (adapt P B d w k).a[1] = uppol1 P (partialStep B d) (adapt P B d w k).a[2] := by
  rw [adapt_a]; rfl

/-- 42_adpcm_adapt.md R235. -/
theorem adapt_a_two_mem (P : Profile) (B : Band) (d w : I16) (k : BandId) :
    -12288 ≤ (adapt P B d w k).a[2].toInt ∧ (adapt P B d w k).a[2].toInt ≤ 12288 := by
  rw [adapt_a_two]
  exact uppol2_mem P _

/-- 42_adpcm_adapt.md R236. -/
theorem abs_adapt_a_one_le (P : Profile) (B : Band) (d w : I16) (k : BandId) :
    |(adapt P B d w k).a[1].toInt| ≤ 15360 - (adapt P B d w k).a[2].toInt := by
  obtain ⟨hlo, hhi⟩ := adapt_a_two_mem P B d w k
  rw [adapt_a_one]
  exact abs_le.2 (uppol1_mem P _ _ hlo hhi)

/-- Settles O27: every coefficient is its stage's result, and the clamp bounds of the second pole coefficient keep the
first one's within i16. -/
theorem adaptCoefficients : Obligations.AdaptCoefficients := by
  intro B d w k A p neg
  obtain ⟨hlo, hhi⟩ := adapt_a_two_mem profile B d w k
  refine ⟨fun i => ?_, ?_, ?_⟩
  · rw [adapt_b_succ, upzeroTap_profile]
  · rw [adapt_a_two, toInt_uppol2_profile]
    simp only [sgn_eq_sgn_iff]
    rfl
  · rw [adapt_a_one, toInt_uppol1_profile _ hlo hhi]
    simp only [sgn_eq_sgn_iff]
    rfl

/-! ### The step size (42_adpcm_adapt.md R232, R233, R237) -/

theorem toInt_adapt_nb_profile (B : Band) (d w : I16) (k : BandId) : (adapt profile B d w k).nb.toInt =
    max 0 (min (nbMax k) (max (-32768) (min 32767 (B.nb.toInt * 127 / 128 + w.toInt)))) := by
  have hk : 0 ≤ nbMax k ∧ nbMax k ≤ 32767 := by cases k <;> decide
  rw [adapt_nb, toInt_clamp16 _ _ _ (by decide) hk.1 hk.2, toInt_sat16]
  rfl

theorem toNat_toInt_of_nonneg {x : I16} (hx : 0 ≤ x.toInt) : x.toInt.toNat = x.toNat :=
  BitVec.toNat_toInt_of_msb x (BitVec.msb_eq_toInt.trans (decide_eq_false hx.not_gt))

/-- The table's index, from the top bits of the new log step size. -/
theorem adapt_det_eq_ila (P : Profile) (B : Band) (d w : I16) (k : BandId) : (adapt P B d w k).det =
    P.ila ((adapt P B d w k).nb.toNat / 64 + ilaOff P k) := by
  have hnb := (adapt_nb_mem P B d w k).1
  rw [adapt_det, toNat_shiftR_six _ hnb, toNat_toInt_of_nonneg hnb]

/-- Settles O28: each band's log step size with its own bound, and its own offset into the table. -/
theorem adaptStepSize : Obligations.AdaptStepSize := fun B d w =>
  ⟨toInt_adapt_nb_profile B d w .low, adapt_det_eq_ila profile B d w .low,
    toInt_adapt_nb_profile B d w .high, adapt_det_eq_ila profile B d w .high⟩

/-- The step size is an entry of the table from the band's offset up to the last. -/
theorem adapt_det_index_mem (B : Band) (d w : I16) (k : BandId) :
    ∃ j, ilaOff profile k ≤ j ∧ j ≤ 352 ∧ (adapt profile B d w k).det = profile.ila j := by
  obtain ⟨hnb_lo, hnb_hi⟩ := adapt_nb_mem profile B d w k
  have hmax : (nbMax k).toNat / 64 + ilaOff profile k = 352 := by cases k <;> decide
  have hnat := toNat_toInt_of_nonneg hnb_lo
  exact ⟨_, Nat.le_add_left .., by omega, adapt_det_eq_ila profile B d w k⟩

/-- The entries below the last, by octave: none below the third is under 32, and none is over the last. -/
theorem ilaRef_octave_mem : ∀ (e : Fin 11) (m : Fin 32),
    8 ≤ (ilaRef (32 * e + m)).toInt ∧ (ilaRef (32 * e + m)).toInt ≤ 16384
    ∧ (2 ≤ e.val → 32 ≤ (ilaRef (32 * e + m)).toInt) := by
  decide

theorem ilaRef_last : ilaRef 352 = 16384 := by decide

/-- `ILA[0..352]` lies in [8, 16384], and from the low band's offset on it is at least 32. -/
theorem ilaRef_mem {j : Nat} (hj : j ≤ 352) :
    8 ≤ (ilaRef j).toInt ∧ (ilaRef j).toInt ≤ 16384 ∧ (64 ≤ j → 32 ≤ (ilaRef j).toInt) := by
  rcases hj.eq_or_lt with rfl | hlt
  · rw [ilaRef_last]
    decide
  · obtain ⟨hlo, hhi, hlow⟩ := ilaRef_octave_mem ⟨j / 32, by omega⟩ ⟨j % 32, by omega⟩
    simp only [Nat.div_add_mod] at hlo hhi hlow
    exact ⟨hlo, hhi, fun h => hlow (by omega)⟩

/-- Settles O29: the coefficients by the clamps of their stages, the step size by the table's entries at the indices
that the clamped log step size reaches. -/
theorem adaptBounds : Obligations.AdaptBounds := by
  intro B d w k A
  obtain ⟨ha2_lo, ha2_hi⟩ : -12288 ≤ A.a[2].toInt ∧ A.a[2].toInt ≤ 12288 := adapt_a_two_mem profile B d w k
  have ha1 : |A.a[1].toInt| ≤ 15360 - A.a[2].toInt := abs_adapt_a_one_le profile B d w k
  obtain ⟨hnb_lo, hnb_hi⟩ : 0 ≤ A.nb.toInt ∧ A.nb.toInt ≤ nbMax k := adapt_nb_mem profile B d w k
  obtain ⟨j, hj_lo, hj_hi, hdet⟩ : ∃ j, ilaOff profile k ≤ j ∧ j ≤ 352 ∧ A.det = profile.ila j :=
    adapt_det_index_mem B d w k
  obtain ⟨hila_lo, hila_hi, hila_low⟩ := ilaRef_mem hj_hi
  refine ⟨ha2_lo, ha2_hi, ha1, ha1.trans (by omega), hnb_lo, ?_, ?_⟩
  · rintro rfl
    exact ⟨hnb_hi, hdet ▸ hila_low hj_lo, hdet ▸ hila_hi, j, hj_lo, hj_hi, hdet⟩
  · rintro rfl
    exact ⟨hnb_hi, hdet ▸ hila_lo, hdet ▸ hila_hi, j, hj_hi, hdet⟩

/-! ### The two halves of an adaptation (42_adpcm_adapt.md R240) -/

/-- Steps 1 to 3 of an adaptation. -/
def predictorHalf (P : Profile) (B : Band) (d : I16) : Band :=
  let B1 := partialStep B d
  predict P (delaya B1 (upzero P B1 d) (uppol1 P B1 (uppol2 P B1)) (uppol2 P B1))

/-- Step 4 of an adaptation. -/
def stepSizeHalf (P : Profile) (B : Band) (w : I16) (k : BandId) : Band := scale P (logscl P B w k) k

/-- A sub-state with another log step size and step size. -/
def Band.setStep (B : Band) (nb det : I16) : Band := { B with nb := nb, det := det }

theorem adapt_eq_halves (P : Profile) (B : Band) (d w : I16) (k : BandId) :
    adapt P B d w k = stepSizeHalf P (predictorHalf P B d) w k := rfl

theorem Band.setStep_setStep (B : Band) (nb det nb' det' : I16) :
    (B.setStep nb det).setStep nb' det' = B.setStep nb' det' := rfl

/-- The predictor half neither reads nor writes the log step size and the step size. -/
theorem predictorHalf_setStep (P : Profile) (B : Band) (nb det d : I16) :
    predictorHalf P (B.setStep nb det) d = (predictorHalf P B d).setStep nb det := rfl

theorem predictorHalf_nb (P : Profile) (B : Band) (d : I16) : (predictorHalf P B d).nb = B.nb := rfl

/-- The step-size half writes only the log step size and the step size. -/
theorem stepSizeHalf_eq_setStep (P : Profile) (B : Band) (w : I16) (k : BandId) :
    stepSizeHalf P B w k = B.setStep (stepSizeHalf P B w k).nb (stepSizeHalf P B w k).det := by
  simp only [stepSizeHalf, scale, logscl, Band.setStep]

/-- The step-size half reads only the log step size. -/
theorem stepSizeHalf_congr (P : Profile) {B C : Band} (h : C.nb = B.nb) (w : I16) (k : BandId) :
    (stepSizeHalf P C w k).nb = (stepSizeHalf P B w k).nb
    ∧ (stepSizeHalf P C w k).det = (stepSizeHalf P B w k).det := by
  simp only [stepSizeHalf, scale, logscl, h, and_self]

/-- Each half of the result comes from its own half of the old sub-state. -/
theorem adapt_eq_setStep (P : Profile) (B : Band) (d w : I16) (k : BandId) : adapt P B d w k =
    (predictorHalf P B d).setStep (stepSizeHalf P B w k).nb (stepSizeHalf P B w k).det := by
  obtain ⟨hnb, hdet⟩ := stepSizeHalf_congr P (predictorHalf_nb P B d) w k
  rw [adapt_eq_halves, stepSizeHalf_eq_setStep, hnb, hdet]

/-- What the predictor half makes of a sub-state is the same under every step size. -/
theorem adapt_setStep_setStep (P : Profile) (B : Band) (d w w' : I16) (k : BandId) (nb det : I16) :
    (adapt P (B.setStep nb det) d w' k).setStep (stepSizeHalf P B w k).nb (stepSizeHalf P B w k).det =
      adapt P B d w k := by
  rw [adapt_eq_setStep, predictorHalf_setStep, Band.setStep_setStep, Band.setStep_setStep, ← adapt_eq_setStep]

/-- Settles O30: the step-size half first is a sub-state with its step size set, which the predictor half does not
see; and the step size comes from the old log step size alone. -/
theorem adaptHalvesIndependent : Obligations.AdaptHalvesIndependent := by
  intro B d w k S
  have hkeep (nb det w' : I16) : (adapt profile (B.setStep nb det) d w' k).setStep S.nb S.det = adapt profile B d w k :=
    adapt_setStep_setStep profile B d w w' k nb det
  refine ⟨(hkeep S.nb S.det w).symm, hkeep, fun C d' h => ?_⟩
  rw [adapt_eq_setStep, adapt_eq_setStep]
  exact stepSizeHalf_congr profile h w k

/-! ### The prediction (42_adpcm_adapt.md R226, R227) -/

/-- The pole section reads this sample's reconstruction and the one before. -/
theorem adapt_sp_eq_poles (P : Profile) (B : Band) (d w : I16) (k : BandId) : (adapt P B d w k).sp =
    add16 (mult (adapt P B d w k).a[1] (add16 (add16 B.s d) (add16 B.s d)))
      (mult (adapt P B d w k).a[2] (add16 B.r[1] B.r[1])) := by
  rw [adapt_sp, filtep, adapt_r]; rfl

/-- The zero section's sum in the order of the reference profile, from the oldest sample to the newest. -/
theorem filtez_profile (B : Band) : filtez profile B =
    let tap := fun i : Fin 7 => mult B.b[i] (add16 B.d[i] B.d[i])
    add16 (add16 (add16 (add16 (add16 (add16 0 (tap 6)) (tap 5)) (tap 4)) (tap 3)) (tap 2)) (tap 1) := rfl

/-- Settles O26: each history and each output is its field's lemma. -/
theorem adaptHistoriesAndPrediction : Obligations.AdaptHistoriesAndPrediction := fun B d w k =>
  ⟨adapt_d .., adapt_r .., adapt_p .., adapt_a_zero .., adapt_b_zero .., adapt_sp_eq_poles ..,
    (adapt_sz profile B d w k).trans (filtez_profile _), adapt_s ..⟩

end Sys2Proof.Machine

/-! PROOFS. The quantizers (43_quantizers.md): the level of a difference signal, its index and its decoded magnitude
under the reference profile, the four commands, and the obligations of that family. -/

namespace Sys2Proof.Machine

/-! ### The level of a difference signal (43_quantizers.md R261) -/

theorem levelL_profile (wd : Int) (det : I16) : levelL profile wd det =
    1 + (q6Ref.filter fun q => decide (q.toInt * det.toInt / 2 ^ 12 ≤ wd)).length := by
  rw [levelL, List.countP_eq_length_filter]
  rfl

/-- There are 29 thresholds, so the levels are 1 to 30. -/
theorem levelL_mem_Icc (wd : Int) (det : I16) : levelL profile wd det ∈ Set.Icc 1 30 := by
  have hcount : levelL profile wd det ≤ 1 + profile.q6.length := Nat.add_le_add_left List.countP_le_length 1
  exact ⟨Nat.le_add_right .., hcount⟩

/-- A larger magnitude reaches every threshold that a smaller one reaches. -/
theorem levelL_mono (P : Profile) (det : I16) {wd wd' : Int} (h : wd ≤ wd') : levelL P wd det ≤ levelL P wd' det :=
  Nat.add_le_add_left (List.countP_mono_left fun _ _ hq => decide_eq_true ((of_decide_eq_true hq).trans h)) 1

/-- The one's complement of a difference signal has its magnitude. -/
theorem quantMag_of_complement {e e' : I16} (h : e'.toInt = -(e.toInt + 1)) : quantMag e = quantMag e' := by
  unfold quantMag
  rw [h]
  split <;> split <;> omega

/-! ### The index of a level -/

theorem toNat_ilp {k : Nat} (h : k ∈ Set.Icc 1 30) : (profile.ilp k).toNat = 62 - k := by
  have table : ∀ k < 31, 1 ≤ k → (profile.ilp k).toNat = 62 - k := by decide
  exact table k (Nat.lt_succ_of_le h.2) h.1

theorem toNat_iln {k : Nat} (h : k ∈ Set.Icc 1 30) :
    (profile.iln k).toNat = if k ≤ 2 then 64 - k else 34 - k := by
  have table : ∀ k < 31, 1 ≤ k → (profile.iln k).toNat = if k ≤ 2 then 64 - k else 34 - k := by decide
  exact table k (Nat.lt_succ_of_le h.2) h.1

/-- The index of a level by the sign, with `ILN` and `ILP` as formulas. -/
theorem toNat_quantL (el det : I16) : let mag := levelL profile (quantMag el) det
    (quantL profile el det).toNat = if el.toInt < 0 then (if mag ≤ 2 then 64 - mag else 34 - mag) else 62 - mag := by
  have hmag := levelL_mem_Icc (quantMag el) det
  unfold quantL
  dsimp only
  split
  · exact toNat_iln hmag
  · exact toNat_ilp hmag

/-- Settles O31: the level is in 1 to 30, where `ILN` and `ILP` are at least 4. -/
theorem lowBandQuantizer : Obligations.LowBandQuantizer := by
  intro el det wd mag
  have hlevel : levelL profile (quantMag el) det = mag := levelL_profile ..
  obtain ⟨hlo, hhi⟩ : mag ∈ Set.Icc 1 30 := hlevel ▸ levelL_mem_Icc ..
  have hindex := toNat_quantL el det
  rw [hlevel] at hindex
  refine ⟨hlo, hhi, hindex, ?_⟩
  rw [hindex]
  split
  · split <;> omega
  · omega

/-! ### The decoded magnitude of a level (43_quantizers.md R275) -/

/-- The magnitude of the 6-bit inverse quantizer's output at a level, of either sign. -/
def decodedMag (k : Nat) : Int := |(profile.invq0 (profile.ilp k)).toInt|

/-- A level decodes to the same magnitude under both signs. -/
theorem abs_invq0_iln {k : Nat} (h : k ∈ Set.Icc 1 30) : |(profile.invq0 (profile.iln k)).toInt| = decodedMag k := by
  have table : ∀ k < 31, 1 ≤ k → |(profile.invq0 (profile.iln k)).toInt| = decodedMag k := by decide
  exact table k (Nat.lt_succ_of_le h.2) h.1

theorem decodedMag_strictMonoOn : StrictMonoOn decodedMag (Set.Icc 1 30) := by
  have step : ∀ k < 30, 1 ≤ k → decodedMag k < decodedMag (k + 1) := by decide
  exact strictMonoOn_of_lt_add_one Set.ordConnected_Icc fun k _ hk hk' => step k hk'.2 hk.1

theorem abs_invq0_quantL (e det : I16) :
    |(profile.invq0 (quantL profile e det)).toInt| = decodedMag (levelL profile (quantMag e) det) := by
  unfold quantL
  dsimp only
  split
  · exact abs_invq0_iln (levelL_mem_Icc ..)
  · rfl

/-- At the reset step size the first three scaled thresholds are 0, which every magnitude reaches. -/
theorem four_le_levelL_resetStep {wd : Int} (h : 0 ≤ wd) : 4 ≤ levelL profile wd 32 := by
  have hzero : levelL profile 0 32 = 4 := by decide
  exact hzero ▸ levelL_mono profile 32 h

/-- Settles O32: the level grows with the magnitude, and the decoded magnitude with the level. -/
theorem quantizerMonotone : Obligations.QuantizerMonotone := by
  refine ⟨fun _ _ det => levelL_mono profile det, fun _ _ => quantMag_of_complement, fun i j hi hij hj => ?_,
    fun e e' det h => ?_, by decide, by decide, fun _ => four_le_levelL_resetStep, by decide⟩
  · have hi' : i ∈ Set.Icc 1 30 := ⟨hi, hij.le.trans hj⟩
    have hj' : j ∈ Set.Icc 1 30 := ⟨hi.trans hij.le, hj⟩
    have hlt : decodedMag i < decodedMag j := decodedMag_strictMonoOn hi' hj' hij
    rw [abs_invq0_iln hi', abs_invq0_iln hj']
    exact ⟨hlt, hlt⟩
  · rw [abs_invq0_quantL, abs_invq0_quantL]
    exact decodedMag_strictMonoOn.monotoneOn (levelL_mem_Icc ..) (levelL_mem_Icc ..) (levelL_mono profile det h)

/-! ### Encoder and decoder (43_quantizers.md R272) -/

/-- The decoder's mask leaves a transmitted index as it is. -/
theorem encLF_il_and_codeMask (P : Profile) (t : BitVec 6 → I16) (m : LMode) (B : Band) (xl : I16) :
    (encLF P t m B xl).il &&& codeMask m = (encLF P t m B xl).il := by
  unfold encLF
  rw [BitVec.and_assoc, BitVec.and_self]

/-- Decoding a transmitted index adapts the sub-state as the encoder adapted it. -/
theorem decLF_encLF (P : Profile) (t : BitVec 6 → I16) (m : LMode) (B : Band) (xl : I16) :
    let o := encLF P t m B xl
    decLF P t m B o.il = { B := o.B, x := limit (add16 B.s (mult B.det (t o.il))) } := by
  unfold decLF
  simp only [encLF_il_and_codeMask]
  rfl

/-- Settles O36: in each band the decoder adapts its sub-state with the index that the encoder adapted its own with. -/
theorem encoderDecoderAgree : Obligations.EncoderDecoderAgree := by
  refine ⟨fun s s1 s2 m q hq hL h1 h2 => ?_, fun s s1 s2 hH h1 h2 => ?_⟩
  · obtain rfl := Host.Outcome.next.inj ((exec_encL m s q hq).symm.trans h1)
    obtain rfl := Host.Outcome.next.inj ((exec_decL m _ q hq).symm.trans h2)
    refine ⟨?_, ?_, rfl⟩
    · simp only [State.decL_enc, State.decL_dec, State.encL_enc, State.encL_dec, State.encL_regs, ← hL, decLF_encLF]
    · simp only [State.decL_regs, State.encL_dec, State.encL_regs, ← hL, decLF_encLF]
  · obtain rfl := Host.Outcome.next.inj ((exec_encH s).symm.trans h1)
    obtain rfl := Host.Outcome.next.inj ((exec_decH _).symm.trans h2)
    simp only [State.decH_enc, State.decH_dec, State.encH_enc, State.encH_dec, State.encH_regs, ← hH]
    rfl

/-! ### The commands (43_quantizers.md R263, R266, R270, R271, R273) -/

/-- The mask of each mode that the reference profile defines. -/
theorem eq_codeMask {m : LMode} {mask : BitVec 6}
    (h : (m = .bits6 ∧ mask = 0x3F#6) ∨ (m = .bits5 ∧ mask = 0x3E#6) ∨ (m = .bits4 ∧ mask = 0x3C#6)) :
    mask = codeMask m := by
  rcases h with ⟨rfl, rfl⟩ | ⟨rfl, rfl⟩ | ⟨rfl, rfl⟩ <;> rfl

theorem exec_encL_bits3 (s : State) : exec (.encL .bits3) s = .next (s.raiseError .rsvdMode) :=
  checkModeL_of_none profile _ s (fun q => .next (s.encL profile q .bits3)) profile_invq_bits3

theorem exec_decL_bits3 (s : State) : exec (.decL .bits3) s = .next (s.raiseError .rsvdMode) :=
  checkModeL_of_none profile _ s (fun q => .next (s.decL profile q .bits3)) profile_invq_bits3

/-- Settles O33: the state that `ENC_L` leaves, and the mode without a table. -/
theorem lowBandEncode : Obligations.LowBandEncode := by
  refine ⟨fun s m q mask hq hmask => ?_, exec_encL_bits3⟩
  obtain rfl := eq_codeMask hmask
  exact exec_encL m s q hq

/-- `IHN` and `IHP` under the reference profile: the outer levels are 0 and 2. -/
theorem quantH_profile (eh det : I16) : quantH profile eh det =
    if 564 * det.toInt / 2 ^ 12 ≤ quantMag eh then (if eh.toInt < 0 then 0 else 2)
      else (if eh.toInt < 0 then 1 else 3) := by
  have hthr : shiftR (profile.qhThr.toInt * det.toInt) profile.qlShift = 564 * det.toInt / 2 ^ 12 := rfl
  unfold quantH
  rw [hthr]
  by_cases h : 564 * det.toInt / 2 ^ 12 ≤ quantMag eh
  · simp only [if_pos h]
    rfl
  · simp only [if_neg h]
    rfl

/-- `WH` at `RH2`: the outer levels raise the step size, the inner ones lower it (43_quantizers.md R267). -/
theorem wh_rh2_profile (ih : BitVec 2) : profile.wh (profile.rh2 ih) = if ih = 0 ∨ ih = 2 then 798 else -214 := by
  revert ih
  decide

/-- Settles O34: `ENC_H` adapts with the index of `quantH` and its entry of `WH`. -/
theorem highBandEncode : Obligations.HighBandEncode := by
  refine ⟨fun s => ?_, fun s => rfl⟩
  intro B eh wd ih w
  have hih : quantH profile eh B.det = ih := quantH_profile eh B.det
  have hw : profile.wh (profile.rh2 ih) = w := wh_rh2_profile ih
  have hout : encHF profile B s.regs.xh = { B := adapt profile B (mult B.det (profile.qm2 ih)) w .high, ih := ih } := by
    rw [← hw, ← hih]
    rfl
  rw [exec_encH, State.encH, hout]

/-- Settles O35: the state that each command leaves, with its output limited, and the modes that are not legal. -/
theorem bandDecode : Obligations.BandDecode := by
  refine ⟨fun s m q mask hq hmask => ?_, fun s => ⟨_, toInt_limit _, exec_decH s⟩,
    fun s => ⟨exec_decL_bits3 s, rfl⟩⟩
  obtain rfl := eq_codeMask hmask
  exact ⟨_, toInt_limit _, exec_decL m s q hq⟩

end Sys2Proof.Machine

/-! PROOFS. The system commands and the pair commands (44_codec_commands.md sections 1 to 3): that every step ends in a
next state, the effects of `NOP` and of the resets, and the pairs as their stages. -/

namespace Sys2Proof.Machine

/-! ### Every command and every access answers with a next state (44_codec_commands.md R301, 60_exceptions.md R439) -/

theorem checkModeL_next {P : Profile} {m : LMode} {s : State} {k : (BitVec 6 → I16) → Result}
    (h : ∀ q, ∃ t, k q = .next t) : ∃ t, checkModeL P m s k = .next t := by
  rcases checkModeL_cases P m s k with ⟨-, he⟩ | ⟨q, -, he⟩
  · exact ⟨_, he⟩
  · obtain ⟨t, ht⟩ := h q
    exact ⟨t, he.trans ht⟩

theorem checkModeH_next {hm : HMode} {s : State} {k : Result} (h : ∃ t, k = .next t) :
    ∃ t, checkModeH hm s k = .next t := by
  cases hm with
  | bits2 => exact h
  | bits3 => exact ⟨_, rfl⟩

/-- A command is its effect, or its mode checks before it. -/
theorem exec_next (i : Instr) (s : State) : ∃ t, exec i s = .next t := by
  cases i with
  | encL m => exact checkModeL_next fun q => ⟨_, rfl⟩
  | decL m => exact checkModeL_next fun q => ⟨_, rfl⟩
  | encH h => exact checkModeH_next ⟨_, rfl⟩
  | decH h => exact checkModeH_next ⟨_, rfl⟩
  | encPair m h => exact checkModeL_next fun q => checkModeH_next ⟨_, rfl⟩
  | decPair m h => exact checkModeL_next fun q => checkModeH_next ⟨_, rfl⟩
  | encFrame m h => exact checkModeL_next fun q => checkModeH_next ⟨_, rfl⟩
  | decFrame m h loss => exact checkModeL_next fun q => checkModeH_next ⟨_, rfl⟩
  | _ => exact ⟨_, rfl⟩

theorem runCommand_next (v : Word) (s : State) : ∃ t, runCommand v s = .next t ∧ t.bus = s.bus := by
  unfold runCommand
  split
  · obtain ⟨t, ht⟩ := exec_next ‹_› s
    exact ⟨t, ht, exec_bus ht⟩
  · exact ⟨_, rfl, rfl⟩

/-- Serving an access takes nothing else off the host's list. -/
theorem serve_next (x : HostInput) (s : State) : ∃ t, serve x s = .next t ∧ t.bus.inputs = s.bus.inputs := by
  cases x with
  | read o w =>
    refine ⟨hostRead o w s, rfl, ?_⟩
    unfold hostRead
    split <;> rfl
  | write o w v =>
    simp only [serve, hostWrite]
    split
    · split
      · obtain ⟨t, ht, hbus⟩ := runCommand_next v s
        exact ⟨t, ht, congrArg Bus.inputs hbus⟩
      · obtain ⟨-, -, -, hbus⟩ := writeTarget_keeps v s (targetAt o.toNat)
        exact ⟨_, rfl, congrArg Bus.inputs hbus⟩
    · exact ⟨_, rfl, rfl⟩
  | powerOnReset => exact ⟨s.powerOn, rfl, rfl⟩

theorem step_of_no_inputs {s : State} (h : s.bus.inputs = []) : step s = .next s := by
  unfold step serveNext
  rw [h]

/-- Settles O60: `exec_next` for the commands, and for a step the one access that it serves. -/
theorem everyStepAnswersNext : Obligations.EveryStepAnswersNext := by
  refine ⟨exec_next, fun s => ?_⟩
  cases hin : s.bus.inputs with
  | nil => exact ⟨s, step_of_no_inputs hin, hin⟩
  | cons x rest =>
    obtain ⟨t, ht, hrest⟩ := serve_next x (s.setInputs rest)
    exact ⟨t, (step_of_inputs s x rest hin).trans ht, hrest⟩

/-! ### `NOP` (44_codec_commands.md R290) -/

theorem opcOf_eq_zero {v : Word} (h : v.toNat % 256 = 0) : opcOf v = 0#8 := by
  refine BitVec.eq_of_toNat_eq ?_
  rw [opcOf, BitVec.extractLsb'_toNat, Nat.shiftRight_zero]
  exact h

theorem rsvOf_eq_zero_iff (v : Word) : rsvOf v = 0#20 ↔ v.toNat / 4096 = 0 := by
  have hv := v.isLt
  rw [← BitVec.toNat_inj, rsvOf, BitVec.extractLsb'_toNat, Nat.shiftRight_eq_div_pow, BitVec.toNat_ofNat]
  omega

/-- Opcode 0 is the row of `NOP`, which ignores all three fields. -/
theorem decode_of_opc_zero {v : Word} (h : opcOf v = 0#8) :
    decode v = if rsvOf v = 0#20 then .ok .nop else .error .rsvdBits := by
  unfold decode
  rw [h]
  rfl

/-- Settles O17: the word decodes by its reserved bits alone. -/
theorem nopChangesNothing : Obligations.NopChangesNothing := by
  refine ⟨fun s => rfl, fun s v rest hin hopc => ?_⟩
  rw [step_cmdWrite hin, runCommand, decode_of_opc_zero (opcOf_eq_zero hopc)]
  by_cases hrsv : v.toNat / 4096 = 0
  · rw [if_pos ((rsvOf_eq_zero_iff v).2 hrsv), if_pos hrsv]
    rfl
  · rw [if_neg (mt (rsvOf_eq_zero_iff v).1 hrsv), if_neg hrsv]
    rfl

/-! ### The resets (44_codec_commands.md R291 to R294) -/

theorem Band.reset_isReset (det : I16) : (Band.reset det).IsReset det where
  a i := by fin_cases i <;> rfl
  b i := by fin_cases i <;> rfl
  d i := by fin_cases i <;> rfl
  p i := by fin_cases i <;> rfl
  r i := by fin_cases i <;> rfl
  nb := rfl
  det := rfl
  s := rfl
  sp := rfl
  sz := rfl

theorem Ctx.reset_isReset : Ctx.reset.IsReset := ⟨Band.reset_isReset 32, Band.reset_isReset 8, by decide⟩

theorem Plc.reset_isReset (P : PlcParams) : (Plc.reset P).IsReset P where
  histL_len := List.length_replicate
  histL _ := List.eq_of_mem_replicate
  histH_len := List.length_replicate
  histH _ := List.eq_of_mem_replicate
  exc_len := List.length_replicate
  exc _ := List.eq_of_mem_replicate
  lpc_len := List.length_replicate
  lpc _ := List.eq_of_mem_replicate
  cls := rfl
  t0 := rfl
  prevBfi := rfl
  episode := rfl
  cntL := rfl
  cntH := rfl
  wL := rfl
  wH := rfl
  xfBuf_len := List.length_replicate
  xfBuf _ := List.eq_of_mem_replicate
  xfPos := rfl
  xfActive := rfl
  synMem_len := List.length_replicate
  synMem _ := List.eq_of_mem_replicate
  tSyn := rfl
  jit := rfl
  hbPhase := rfl
  hbPer_len := List.length_replicate
  hbPer _ := List.eq_of_mem_replicate

/-- Settles O18: the reset values, field by field; each reset overwrites what it writes with a constant. -/
theorem resetCommands : Obligations.ResetCommands := by
  refine ⟨⟨Ctx.reset, Plc.reset profile.plc, Ctx.reset_isReset, Plc.reset_isReset _, fun s => ⟨rfl, rfl, rfl, rfl⟩⟩,
    fun i s t hi h => ?_, fun s t h => ?_⟩
  · simp only [List.mem_cons, List.not_mem_nil, or_false] at hi
    rcases hi with rfl | rfl | rfl | rfl <;> obtain rfl := Host.Outcome.next.inj h <;> exact ⟨rfl, rfl, rfl, rfl⟩
  · obtain rfl := Host.Outcome.next.inj h
    obtain ⟨-, -, -, -, hbfi, hxf, hcls, -⟩ := statusWord_fields s.status (Plc.reset profile.plc)
    exact ⟨hbfi, hxf, BitVec.eq_of_toNat_eq hcls⟩

/-! ### The pair commands (44_codec_commands.md R296, R297) -/

/-- A command that checks both modes, with one that is not legal. -/
theorem checkModes_of_illegal {P : Profile} {m : LMode} {h : HMode} (hbad : (m.legal P && h.legal) = false) (s : State)
    (k : (BitVec 6 → I16) → Result) :
    checkModeL P m s (fun q => checkModeH h s (k q)) = .next (s.raiseError .rsvdMode) := by
  rcases checkModeL_cases P m s fun q => checkModeH h s (k q) with ⟨-, he⟩ | ⟨q, hq, he⟩
  · exact he
  · rw [he]
    cases h with
    | bits2 => simp [LMode.legal, hq, HMode.legal] at hbad
    | bits3 => rfl

theorem packCode_eq_ofNat (ih : BitVec 2) (il : BitVec 6) :
    packCode ih il = BitVec.ofNat 8 (ih.toNat * 64 + il.toNat) := by
  revert ih il; decide

theorem codeIl_eq_ofNat (c : Byte) : codeIl c = BitVec.ofNat 6 (c.toNat % 64) := by
  revert c; decide

theorem codeIh_eq_ofNat (c : Byte) : codeIh c = BitVec.ofNat 2 (c.toNat / 64) := by
  revert c; decide

/-- Settles O37: each command is the composition of its stages' effects. -/
theorem pairCommandsCompose : Obligations.PairCommandsCompose := by
  refine ⟨fun s m h hbad => ⟨checkModes_of_illegal hbad s _, checkModes_of_illegal hbad s _⟩, fun s m q hq => ⟨?_, ?_⟩⟩
  · refine ⟨_, _, _, rfl, exec_encL m _ q hq, rfl, ?_⟩
    rw [exec_encPair m s q hq, State.packCode, packCode_eq_ofNat]
  · refine ⟨_, _, _, exec_decL m _ q hq, rfl, rfl, ?_⟩
    rw [exec_decPair m s q hq, State.unpackCode, codeIl_eq_ofNat, codeIh_eq_ofNat]

end Sys2Proof.Machine

/-! PROOFS. The frame commands (44_codec_commands.md section 4): what a frame's loop has done after each codeword, and a
frame as the pairs it is made of. -/

namespace Sys2Proof.Machine

/-! ### `ENC_PAIR` and `DEC_PAIR` after their checks -/

/-- `ENC_PAIR` after its checks (44_codec_commands.md R296). -/
def State.encPair (P : Profile) (q : BitVec 6 → I16) (m : LMode) (s : State) : State :=
  (((s.qmfTx P).encL P q m).encH P).packCode

/-- `DEC_PAIR` after its checks (44_codec_commands.md R297). -/
def State.decPair (P : Profile) (q : BitVec 6 → I16) (m : LMode) (s : State) : State :=
  ((s.unpackCode.decL P q m).decH P).qmfRx P

/-- From equal sub-states, the codeword of a pair decodes to the sub-states that the encoder has after it
(43_quantizers.md R272). -/
theorem decode_encPair_code (P : Profile) (q : BitVec 6 → I16) (m : LMode) (u : State) (D : Ctx) (hL : D.L = u.enc.L)
    (hH : D.H = u.enc.H) :
    (decLF P q m D.L (codeIl (u.encPair P q m).regs.code)).B = (u.encPair P q m).enc.L
      ∧ (decHF P D.H (codeIh (u.encPair P q m).regs.code)).B = (u.encPair P q m).enc.H := by
  simp only [State.encPair, State.packCode_regs, State.packCode_enc, codeIl_packCode, codeIh_packCode, hL, hH]
  exact ⟨congrArg DecOut.B (decLF_encLF P q m u.enc.L _), rfl⟩

/-! ### The elements that one codeword of `ENC_FRAME` stores (44_codec_commands.md R299) -/

/-- The codeword and the noise-shaping pair of the registers, stored as number `n`. -/
def Memory.setCoded (m : Memory) (n : Nat) (r : Regs) : Memory :=
  ((m.setCode n r.code).setNst n r.nsTgt).setNse n r.nsErr

section Coded

variable {m : Memory} {n : Nat} (r : Regs) (hw : m.wf = true)
include hw

theorem Memory.wf_setCoded : (m.setCoded n r).wf = true :=
  Memory.wf_setNse _ _ _ (Memory.wf_setNst _ _ _ (Memory.wf_setCode _ _ _ hw))

theorem Memory.pcm_setCoded {k : Nat} (hk : k < 320) : (m.setCoded n r).pcm k = m.pcm k := by
  have h1 := Memory.wf_setCode m n r.code hw
  have h2 := Memory.wf_setNst _ n r.nsTgt h1
  rw [Memory.setCoded, Memory.pcm_setNse _ _ _ _ h2 hk, Memory.pcm_setNst _ _ _ _ h1 hk,
    Memory.pcm_setCode _ _ _ _ hw hk]

/-- Under its own number, the three elements read back. -/
theorem Memory.setCoded_same (hn : n < 160) : (m.setCoded n r).code n = r.code ∧ (m.setCoded n r).nst n = r.nsTgt
    ∧ (m.setCoded n r).nse n = r.nsErr := by
  have h1 := Memory.wf_setCode m n r.code hw
  have h2 := Memory.wf_setNst _ n r.nsTgt h1
  refine ⟨?_, ?_, Memory.nse_setNse_same _ _ _ h2⟩
  · rw [Memory.setCoded, Memory.code_setNse _ _ _ _ h2 hn, Memory.code_setNst _ _ _ _ h1 hn,
      Memory.code_setCode_same _ _ _ hw]
  · rw [Memory.setCoded, Memory.nst_setNse _ _ _ _ h2 hn, Memory.nst_setNst_same _ _ _ h1]

end Coded

/-- A byte of no element of number `n` stays. -/
theorem Memory.get_setCoded_ne (m : Memory) (r : Regs) {n a : Nat}
    (ha : ¬ (a = codeAddr n ∨ a = nstAddr n ∨ a = nstAddr n + 1 ∨ a = nseAddr n ∨ a = nseAddr n + 1)) :
    (m.setCoded n r).get a = m.get a := by
  simp only [not_or] at ha
  obtain ⟨hcode, hnst, hnst1, hnse, hnse1⟩ := ha
  simp only [Memory.setCoded, Memory.setCode, Memory.setNst, Memory.setNse, Memory.put16]
  rw [Memory.get_put_ne _ _ _ _ hnse1, Memory.get_put_ne _ _ _ _ hnse, Memory.get_put_ne _ _ _ _ hnst1,
    Memory.get_put_ne _ _ _ _ hnst, Memory.get_put_ne _ _ _ _ hcode]

/-- Under another number, the three elements stay. -/
theorem Memory.setCoded_other (m : Memory) (r : Regs) {j n : Nat} (hj : j < n) (hn : n < 160) :
    (m.setCoded n r).code j = m.code j ∧ (m.setCoded n r).nst j = m.nst j ∧ (m.setCoded n r).nse j = m.nse j := by
  unfold Memory.code Memory.nst Memory.nse Memory.get16
  refine ⟨?_, ?_, ?_⟩ <;>
    repeat rw [Memory.get_setCoded_ne m r (by unfold codeAddr nstAddr nseAddr; omega)]

/-! ### The loop of `ENC_FRAME` -/

/-- The loop of `ENC_FRAME` after `n` codewords. -/
def State.encRun (P : Profile) (q : BitVec 6 → I16) (m : LMode) (s : State) (n : Nat) : EncRun :=
  forN n (encSample P q m) ⟨s.enc, s.mem⟩

/-- `n` pair commands, one after the other, on the first pairs of `PCMBUF`. -/
def State.encPairs (P : Profile) (q : BitVec 6 → I16) (m : LMode) (s : State) : Nat → State
  | 0 => s
  | n + 1 => ((State.encPairs P q m s n).loadPair (s.mem.pcm (2 * n)) (s.mem.pcm (2 * n + 1))).encPair P q m

/-- One codeword of the loop is one pair command, with its results stored. -/
theorem encSample_eq_encPair (P : Profile) (q : BitVec 6 → I16) (m : LMode) (n : Nat) (r : EncRun) (u : State)
    (hu : u.enc = r.enc) : encSample P q m n r =
      let v := (u.loadPair (r.mem.pcm (2 * n)) (r.mem.pcm (2 * n + 1))).encPair P q m
      ⟨v.enc, r.mem.setCoded n v.regs⟩ := by
  unfold encSample
  rw [← hu]
  rfl

theorem State.encRun_succ (P : Profile) (q : BitVec 6 → I16) (m : LMode) (s : State) (n : Nat) :
    s.encRun P q m (n + 1) = encSample P q m n (s.encRun P q m n) := rfl

/-- One codeword stores what the registers hold after some pair command. -/
theorem encSample_mem (P : Profile) (q : BitVec 6 → I16) (m : LMode) (n : Nat) (r : EncRun) :
    ∃ v : State, (encSample P q m n r).mem = r.mem.setCoded n v.regs :=
  ⟨_, congrArg EncRun.mem (encSample_eq_encPair P q m n r { State.reset with enc := r.enc } rfl)⟩

section EncFrame

variable (P : Profile) (q : BitVec 6 → I16) (m : LMode) {s : State} (hw : s.mem.wf = true) {n : Nat}

theorem State.encRun_get {a : Nat} (ha : ¬ encFrameStores n a) : (s.encRun P q m n).mem.get a = s.mem.get a := by
  induction n with
  | zero => rfl
  | succ n ih =>
    obtain ⟨v, hv⟩ := encSample_mem P q m n (s.encRun P q m n)
    rw [State.encRun_succ, hv, Memory.get_setCoded_ne _ _ fun h => ha ⟨n, n.lt_succ_self, h⟩]
    exact ih fun ⟨j, hj, h⟩ => ha ⟨j, hj.trans n.lt_succ_self, h⟩

include hw

theorem State.encRun_wf : (s.encRun P q m n).mem.wf = true :=
  forN_keeps (fun r : EncRun => r.mem.wf = true) _ _ _ hw fun n r _ => wf_encSample P q m n r

/-- The loop leaves the samples that it reads. -/
theorem State.encRun_pcm {k : Nat} (hk : k < 320) : (s.encRun P q m n).mem.pcm k = s.mem.pcm k := by
  induction n with
  | zero => rfl
  | succ n ih =>
    obtain ⟨v, hv⟩ := encSample_mem P q m n (s.encRun P q m n)
    rw [State.encRun_succ, hv, Memory.pcm_setCoded _ (State.encRun_wf P q m hw) hk]
    exact ih

/-- After `n` codewords the loop has the context of `n` pair commands. -/
theorem State.encRun_enc (hn : n ≤ 160) : (s.encPairs P q m n).enc = (s.encRun P q m n).enc := by
  induction n with
  | zero => rfl
  | succ n ih =>
    have hturn := encSample_eq_encPair P q m n _ _ (ih (by omega))
    rw [State.encRun_pcm P q m hw (by omega), State.encRun_pcm P q m hw (by omega)] at hturn
    exact (congrArg EncRun.enc hturn).symm

/-- Codeword `n` stores the results of pair command `n`. -/
theorem State.encRun_mem_succ (hn : n < 160) :
    (s.encRun P q m (n + 1)).mem = (s.encRun P q m n).mem.setCoded n (s.encPairs P q m (n + 1)).regs := by
  have hturn := encSample_eq_encPair P q m n _ _ (State.encRun_enc P q m hw hn.le)
  rw [State.encRun_pcm P q m hw (by omega), State.encRun_pcm P q m hw (by omega)] at hturn
  exact congrArg EncRun.mem hturn

/-- Each codeword's elements stand as its pair command left them. -/
theorem State.encRun_elements {j : Nat} (hj : j < n) (hn : n ≤ 160) :
    (s.encRun P q m n).mem.code j = (s.encPairs P q m (j + 1)).regs.code
      ∧ (s.encRun P q m n).mem.nst j = (s.encPairs P q m (j + 1)).regs.nsTgt
      ∧ (s.encRun P q m n).mem.nse j = (s.encPairs P q m (j + 1)).regs.nsErr := by
  induction n with
  | zero => omega
  | succ n ih =>
    rw [State.encRun_mem_succ P q m hw (by omega)]
    rcases Nat.lt_succ_iff_lt_or_eq.1 hj with hlt | rfl
    · obtain ⟨hcode, hnst, hnse⟩ := Memory.setCoded_other (s.encRun P q m n).mem (s.encPairs P q m (n + 1)).regs hlt hn
      rw [hcode, hnst, hnse]
      exact ih hlt (by omega)
    · exact Memory.setCoded_same _ (State.encRun_wf P q m hw) hn

end EncFrame

theorem exec_encPair_eq (m : LMode) (s : State) (q : BitVec 6 → I16) (hq : profile.invq m = some q) :
    exec (.encPair m .bits2) s = .next (s.encPair profile q m) := exec_encPair m s q hq

theorem exec_decPair_eq (m : LMode) (s : State) (q : BitVec 6 → I16) (hq : profile.invq m = some q) :
    exec (.decPair m .bits2) s = .next (s.decPair profile q m) := exec_decPair m s q hq

/-- Settles O38: the loop and the pair commands go through the same contexts, and each turn stores the results of one
pair command. -/
theorem encFrameIsPairs : Obligations.EncFrameIsPairs := by
  refine ⟨fun s m h hbad => checkModes_of_illegal hbad s _, fun s m q hq ⟨_, hlen⟩ hw => ?_⟩
  refine ⟨s.encPairs profile q m, s.encFrame profile q m, rfl, fun n _ => exec_encPair_eq m _ q hq,
    exec_encFrame m s q hq, ?_, fun n hn => State.encRun_elements profile q m hw hn hlen,
    fun a => State.encRun_get profile q m⟩
  rw [State.encRun_enc profile q m hw hlen]
  rfl

/-! ### A loop that stores a pair of PCM samples per turn (44_codec_commands.md R300) -/

section Pairs

variable {α : Type} {f : Nat → α → α} {mem : α → Memory} {y0 y1 : Nat → α → I16}
  (hf : ∀ n a, mem (f n a) = ((mem a).setPcm (2 * n) (y0 n a)).setPcm (2 * n + 1) (y1 n a)) {a : α}
include hf

theorem forN_pairs_get {n b : Nat} (hb : ¬ decFrameStores n b) : (mem (forN n f a)).get b = (mem a).get b := by
  induction n with
  | zero => rfl
  | succ n ih =>
    have hne : ∀ k, k < 2 * (n + 1) → b ≠ pcmAddr k ∧ b ≠ pcmAddr k + 1 := fun k hk =>
      not_or.1 fun h => hb ⟨k, hk, h⟩
    rw [forN_succ, hf]
    simp only [Memory.setPcm, Memory.put16]
    rw [Memory.get_put_ne _ _ _ _ (hne _ (by omega)).2, Memory.get_put_ne _ _ _ _ (hne _ (by omega)).1,
      Memory.get_put_ne _ _ _ _ (hne _ (by omega)).2, Memory.get_put_ne _ _ _ _ (hne _ (by omega)).1]
    exact ih fun ⟨k, hk, h⟩ => hb ⟨k, by omega, h⟩

variable (hw : (mem a).wf = true)
include hw

theorem forN_pairs_wf (n : Nat) : (mem (forN n f a)).wf = true :=
  forN_keeps (fun b => (mem b).wf = true) _ _ _ hw fun n b _ hb => by
    rw [hf]; exact Memory.wf_setPcm _ _ _ (Memory.wf_setPcm _ _ _ hb)

/-- The pair of each turn stands as that turn made it. -/
theorem forN_pairs_pcm {j n : Nat} (hj : j < n) : (mem (forN n f a)).pcm (2 * j) = y0 j (forN j f a)
    ∧ (mem (forN n f a)).pcm (2 * j + 1) = y1 j (forN j f a) := by
  induction n with
  | zero => omega
  | succ n ih =>
    have hturn := fun k => pcm_setPair _ n k (y0 n (forN n f a)) (y1 n (forN n f a)) (forN_pairs_wf hf hw n)
    rw [forN_succ, hf, hturn, hturn]
    rcases Nat.lt_succ_iff_lt_or_eq.1 hj with hlt | rfl
    · rw [if_neg (by omega), if_neg (by omega), if_neg (by omega), if_neg (by omega)]
      exact ih hlt
    · rw [if_neg (by omega), if_pos rfl, if_pos rfl]
      exact ⟨rfl, rfl⟩

/-- A frame's samples do not reach the codewords. -/
theorem forN_pairs_code {n : Nat} (hn : n ≤ 160) (k : Nat) : (mem (forN n f a)).code k = (mem a).code k := by
  induction n with
  | zero => rfl
  | succ n ih =>
    rw [forN_succ, hf, code_setPair _ _ _ _ _ (forN_pairs_wf hf hw n) (by omega)]
    exact ih (by omega)

end Pairs

/-! ### The loop of a good frame -/

/-- The low-band sample that a turn passes to the synthesis: decoded, and crossfaded where a crossfade is running. -/
def DecRun.rl (P : Profile) (q : BitVec 6 → I16) (m : LMode) (r : DecRun) (c : Byte) : I16 :=
  if r.plc.xfActive then xfOut P.plc r.plc (decLF P q m r.dec.L (codeIl c)).x else (decLF P q m r.dec.L (codeIl c)).x

/-- The high-band sample that a turn passes to the synthesis. -/
def DecRun.rh (P : Profile) (r : DecRun) (c : Byte) : I16 := (decHF P r.dec.H (codeIh c)).x

/-- The PCM pair that a turn makes. -/
def DecRun.out (P : Profile) (q : BitVec 6 → I16) (m : LMode) (r : DecRun) (c : Byte) : RxOut :=
  qmfRxF P r.dec.D (r.rl P q m c) (r.rh P c)

/-- What a turn of the loop leaves, where `c` is the codeword that it reads. -/
def DecRun.turn (P : Profile) (q : BitVec 6 → I16) (m : LMode) (n : Nat) (r : DecRun) (c : Byte) : DecRun where
  dec := { L := (decLF P q m r.dec.L (codeIl c)).B, H := (decHF P r.dec.H (codeIh c)).B, D := (r.out P q m c).D }
  plc := if r.plc.xfActive then xfAdvance r.plc else r.plc
  mem := (r.mem.setPcm (2 * n) (r.out P q m c).y0).setPcm (2 * n + 1) (r.out P q m c).y1
  lo := r.lo ++ [r.rl P q m c]
  hi := r.hi ++ [r.rh P c]

theorem decSample_eq_turn (P : Profile) (q : BitVec 6 → I16) (m : LMode) (n : Nat) (r : DecRun) :
    decSample P q m n r = r.turn P q m n (r.mem.code n) := rfl

theorem decSample_mem (P : Profile) (q : BitVec 6 → I16) (m : LMode) (n : Nat) (r : DecRun) :
    (decSample P q m n r).mem = (r.mem.setPcm (2 * n) (r.out P q m (r.mem.code n)).y0).setPcm (2 * n + 1)
      (r.out P q m (r.mem.code n)).y1 := rfl

/-- The loop of a good frame after `n` codewords. -/
def State.goodRunTo (P : Profile) (q : BitVec 6 → I16) (m : LMode) (s : State) (n : Nat) : DecRun :=
  forN n (decSample P q m) ⟨goodStartDec P s.plc s.dec, goodStartPlc s.plc, s.mem, [], []⟩

section GoodRun

variable (P : Profile) (q : BitVec 6 → I16) (m : LMode) {s : State}

theorem State.goodRunTo_get {n b : Nat} (hb : ¬ decFrameStores n b) :
    (s.goodRunTo P q m n).mem.get b = s.mem.get b :=
  forN_pairs_get (mem := DecRun.mem) (decSample_mem P q m) hb

variable (hw : s.mem.wf = true) {n : Nat}
include hw

theorem State.goodRunTo_code (hn : n ≤ 160) (k : Nat) : (s.goodRunTo P q m n).mem.code k = s.mem.code k :=
  forN_pairs_code (mem := DecRun.mem) (decSample_mem P q m) hw hn k

/-- The samples of turn `j`, after any later turn. -/
theorem State.goodRunTo_pcm {j : Nat} (hj : j < n) (hn : n ≤ 160) :
    (s.goodRunTo P q m n).mem.pcm (2 * j) = ((s.goodRunTo P q m j).out P q m (s.mem.code j)).y0
      ∧ (s.goodRunTo P q m n).mem.pcm (2 * j + 1) = ((s.goodRunTo P q m j).out P q m (s.mem.code j)).y1 := by
  rw [← State.goodRunTo_code P q m hw (hj.le.trans hn)]
  exact forN_pairs_pcm (mem := DecRun.mem) (a := ⟨_, _, s.mem, [], []⟩) (decSample_mem P q m) hw hj

/-- A turn reads the codeword that stood in `CODEBUF` before the frame. -/
theorem State.goodRunTo_succ (hn : n < 160) :
    s.goodRunTo P q m (n + 1) = (s.goodRunTo P q m n).turn P q m n (s.mem.code n) := by
  rw [← State.goodRunTo_code P q m hw hn.le]
  exact decSample_eq_turn P q m n _

/-- The samples collected for the history, in order. -/
theorem State.goodRunTo_samples (hn : n ≤ 160) :
    (s.goodRunTo P q m n).lo = (List.range n).map (fun j => (s.goodRunTo P q m j).rl P q m (s.mem.code j))
      ∧ (s.goodRunTo P q m n).hi = (List.range n).map (fun j => (s.goodRunTo P q m j).rh P (s.mem.code j)) := by
  induction n with
  | zero => exact ⟨rfl, rfl⟩
  | succ n ih =>
    obtain ⟨hlo, hhi⟩ := ih (by omega)
    rw [State.goodRunTo_succ P q m hw hn, List.range_succ, List.map_append, List.map_append, ← hlo, ← hhi]
    exact ⟨rfl, rfl⟩

end GoodRun

/-- Settles O41: the contexts, the PLC states and the samples are those of the loop after each codeword. -/
theorem goodFrame_steps : Obligations.GoodFrame := by
  refine ⟨fun s m h loss hbad => checkModes_of_illegal hbad s _, fun s m q hq hw ⟨_, hlen⟩ => ?_⟩
  obtain ⟨hlo, hhi⟩ := State.goodRunTo_samples profile q m hw hlen
  refine ⟨fun n => (s.goodRunTo profile q m n).dec, fun n => (s.goodRunTo profile q m n).plc,
    fun n => (s.goodRunTo profile q m n).rl profile q m (s.mem.code n),
    fun n => (s.goodRunTo profile q m n).rh profile (s.mem.code n), _, exec_decFrame_good m s q hq, rfl, rfl,
    fun n hn => ?_, rfl, ?_, fun a ha => State.goodRunTo_get profile q m ha⟩
  · have hturn := State.goodRunTo_succ profile q m hw (hn.trans_le hlen)
    exact ⟨rfl, rfl, congrArg DecRun.dec hturn, congrArg DecRun.plc hturn, State.goodRunTo_pcm profile q m hw hn hlen⟩
  · rw [← hlo, ← hhi]
    rfl

/-! ### A good frame outside an episode and a crossfade -/

/-- `n` pair commands, one after the other, on the first codewords of `CODEBUF`. -/
def State.decPairs (P : Profile) (q : BitVec 6 → I16) (m : LMode) (s : State) : Nat → State
  | 0 => s
  | n + 1 => ((State.decPairs P q m s n).loadCode (s.mem.code n)).decPair P q m

/-- Outside a crossfade, one turn passes on and leaves what one pair command does. -/
theorem DecRun.turn_eq_decPair (P : Profile) (q : BitVec 6 → I16) (m : LMode) (n : Nat) (r : DecRun) (c : Byte)
    (u : State) (hx : r.plc.xfActive = false) (hu : u.dec = r.dec) : let v := (u.loadCode c).decPair P q m
    r.rl P q m c = v.regs.xl ∧ r.rh P c = v.regs.xh ∧ (r.out P q m c).y0 = v.regs.y0
      ∧ (r.out P q m c).y1 = v.regs.y1 ∧ (r.turn P q m n c).dec = v.dec := by
  have hrl : r.rl P q m c = (decLF P q m r.dec.L (codeIl c)).x := if_neg (Bool.eq_false_iff.1 hx)
  simp [State.decPair, DecRun.turn, DecRun.out, DecRun.rh, hrl, hu]

section Plain

variable (P : Profile) (q : BitVec 6 → I16) (m : LMode) {s : State} (hbfi : s.plc.prevBfi = false)
  (hx : s.plc.xfActive = false)
include hbfi hx

theorem State.goodRunTo_plc (n : Nat) : (s.goodRunTo P q m n).plc = s.plc :=
  forN_keeps (fun r : DecRun => r.plc = s.plc) _ _ _ (if_neg (Bool.eq_false_iff.1 hbfi)) fun n r _ hr => by
    rw [decSample_plain P q m n r (by rw [hr]; exact hx), hr]

variable (hw : s.mem.wf = true) {n : Nat}
include hw

/-- After `n` codewords the loop has the context of `n` pair commands. -/
theorem State.goodRunTo_dec (hn : n ≤ 160) : (s.decPairs P q m n).dec = (s.goodRunTo P q m n).dec := by
  induction n with
  | zero => exact (if_neg (Bool.eq_false_iff.1 hbfi)).symm
  | succ n ih =>
    have hx' : (s.goodRunTo P q m n).plc.xfActive = false := by rw [State.goodRunTo_plc P q m hbfi hx]; exact hx
    obtain ⟨-, -, -, -, hdec⟩ := DecRun.turn_eq_decPair P q m n _ (s.mem.code n) _ hx' (ih (by omega))
    rw [State.goodRunTo_succ P q m hw hn, hdec]
    rfl

/-- The samples of turn `n` are those that pair command `n` leaves in the registers. -/
theorem State.goodRunTo_regs (hn : n < 160) :
    (s.goodRunTo P q m n).rl P q m (s.mem.code n) = (s.decPairs P q m (n + 1)).regs.xl
      ∧ (s.goodRunTo P q m n).rh P (s.mem.code n) = (s.decPairs P q m (n + 1)).regs.xh
      ∧ ((s.goodRunTo P q m n).out P q m (s.mem.code n)).y0 = (s.decPairs P q m (n + 1)).regs.y0
      ∧ ((s.goodRunTo P q m n).out P q m (s.mem.code n)).y1 = (s.decPairs P q m (n + 1)).regs.y1 := by
  have hx' : (s.goodRunTo P q m n).plc.xfActive = false := by rw [State.goodRunTo_plc P q m hbfi hx]; exact hx
  obtain ⟨hlo, hhi, hy0, hy1, -⟩ := DecRun.turn_eq_decPair P q m n _ (s.mem.code n) _ hx'
    (State.goodRunTo_dec P q m hbfi hx hw hn.le)
  exact ⟨hlo, hhi, hy0, hy1⟩

/-- The samples collected for the history are those that the pair commands leave in the registers. -/
theorem State.goodRunTo_history (hn : n ≤ 160) :
    (s.goodRunTo P q m n).lo = (List.range n).map (fun j => (s.decPairs P q m (j + 1)).regs.xl)
      ∧ (s.goodRunTo P q m n).hi = (List.range n).map (fun j => (s.decPairs P q m (j + 1)).regs.xh) := by
  obtain ⟨hlo, hhi⟩ := State.goodRunTo_samples P q m hw hn
  refine ⟨hlo.trans (List.map_congr_left fun j hj => ?_), hhi.trans (List.map_congr_left fun j hj => ?_)⟩ <;>
    obtain ⟨hrl, hrh, -, -⟩ := State.goodRunTo_regs P q m hbfi hx hw ((List.mem_range.1 hj).trans_le hn)
  · exact hrl
  · exact hrh

end Plain

/-- Settles O39: without a crossfade the loop and the pair commands go through the same contexts and samples. -/
theorem goodFrameIsPairs : Obligations.GoodFrameIsPairs := by
  intro s m q hq ⟨_, hlen⟩ hw hbfi hx
  refine ⟨s.decPairs profile q m, _, rfl, fun n _ => exec_decPair_eq m _ q hq, exec_decFrame_good m s q hq, ?_,
    fun n hn => ?_, ?_⟩
  · rw [State.goodRunTo_dec profile q m hbfi hx hw hlen]
    rfl
  · obtain ⟨-, -, hy0, hy1⟩ := State.goodRunTo_regs profile q m hbfi hx hw (hn.trans_le hlen)
    rw [← hy0, ← hy1]
    exact State.goodRunTo_pcm profile q m hw hn hlen
  · obtain ⟨hlo, hhi⟩ := State.goodRunTo_history profile q m hbfi hx hw hlen
    rw [← hlo, ← hhi, ← State.goodRunTo_plc profile q m hbfi hx s.regs.frameLen]
    rfl

/-! ### A frame encoded and decoded (44_codec_commands.md R304) -/

/-- A good frame after `ENC_FRAME` goes through the encoder's sub-states, whatever the crossfade does to its samples. -/
theorem State.goodRunTo_encFrame (P : Profile) (q : BitVec 6 → I16) (m : LMode) {s : State} (hw : s.mem.wf = true)
    (hlen : s.regs.frameLen ≤ 160) (hbfi : s.plc.prevBfi = false) (hL : s.enc.L = s.dec.L) (hH : s.enc.H = s.dec.H)
    {n : Nat} (hn : n ≤ s.regs.frameLen) :
    ((s.encFrame P q m).goodRunTo P q m n).dec.L = (s.encPairs P q m n).enc.L
      ∧ ((s.encFrame P q m).goodRunTo P q m n).dec.H = (s.encPairs P q m n).enc.H := by
  induction n with
  | zero =>
    have hstart : goodStartDec P s.plc s.dec = s.dec := if_neg (Bool.eq_false_iff.1 hbfi)
    exact ⟨(congrArg Ctx.L hstart).trans hL.symm, (congrArg Ctx.H hstart).trans hH.symm⟩
  | succ n ih =>
    obtain ⟨ihL, ihH⟩ := ih (by omega)
    have hcode : (s.encFrame P q m).mem.code n = (s.encPairs P q m (n + 1)).regs.code :=
      (State.encRun_elements P q m hw hn hlen).1
    rw [State.goodRunTo_succ P q m (State.encRun_wf P q m hw) (by omega), hcode]
    exact decode_encPair_code P q m _ _ ihL ihH

/-- Settles O40: the two loops go through equal sub-states. -/
theorem frameRoundTrip : Obligations.FrameRoundTrip := by
  intro s t u m q hq ⟨_, hlen⟩ hw hbfi hL hH henc hdec
  obtain rfl := Host.Outcome.next.inj ((exec_encFrame m s q hq).symm.trans henc)
  obtain rfl := Host.Outcome.next.inj ((exec_decFrame_good m _ q hq).symm.trans hdec)
  obtain ⟨hL', hH'⟩ := State.goodRunTo_encFrame profile q m hw hlen hbfi hL hH le_rfl
  rw [State.encRun_enc profile q m hw hlen] at hL' hH'
  exact ⟨hL', hH', rfl⟩

/-! ### Concealment (46_plc_synthesis.md R380) -/

/-- What `n` turns of the concealment loop have written: the synthesis state, the counts and the place in the high-band
period, and a sample of each band per turn. -/
theorem concealRun_frame (P : PlcParams) (p : Plc) (n : Nat) :
    let c := forN n (fun _ => concealSample P) ⟨p, [], []⟩
    c.plc = { p with
      exc := c.plc.exc, synMem := c.plc.synMem, jit := c.plc.jit, hbPhase := c.plc.hbPhase
      cntL := p.cntL + n, cntH := p.cntH + n }
    ∧ c.lo.length = n ∧ c.hi.length = n := by
  induction n with
  | zero => exact ⟨rfl, rfl, rfl⟩
  | succ n ih =>
    obtain ⟨hplc, hlo, hhi⟩ := ih
    obtain ⟨-, -, hlo', hhi'⟩ := concealSample_counts P (forN n (fun _ => concealSample P) ⟨p, [], []⟩)
    refine ⟨?_, hlo'.trans (congrArg (· + 1) hlo), hhi'.trans (congrArg (· + 1) hhi)⟩
    rw [forN_succ, concealSample]
    generalize forN n (fun _ => concealSample P) ⟨p, [], []⟩ = c at hplc
    rw [hplc]
    rfl

theorem conceal_frame (P : PlcParams) (N : Nat) (p : Plc) : let c := conceal P N p
    c.plc = { p with
      exc := c.plc.exc, synMem := c.plc.synMem, jit := c.plc.jit, hbPhase := c.plc.hbPhase
      cntL := p.cntL + N, cntH := p.cntH + N
      wL := attW P p.cls (p.cntL + N), wH := attW P p.cls (p.cntH + N), xfBuf := c.plc.xfBuf }
    ∧ c.lo.length = N ∧ c.hi.length = N ∧ c.plc.xfBuf.length = 80 := by
  obtain ⟨hplc, hlo, hhi⟩ := concealRun_frame P p N
  refine ⟨?_, hlo, hhi, length_makeXfBuffer P _⟩
  simp only [conceal]
  generalize forN N (fun _ => concealSample P) ⟨p, [], []⟩ = c at hplc
  rw [hplc]
  rfl

/-! ### The loop of a lost frame -/

/-- The synthesis loop of a lost frame after `n` pairs of samples. -/
def State.lostRunTo (P : Profile) (s : State) (n : Nat) : RxRun :=
  forN n (lostSample P (s.lostConceal P).lo (s.lostConceal P).hi) ⟨s.dec.D, s.mem⟩

/-- The PCM pair `n` of a lost frame. -/
def State.lostOut (P : Profile) (s : State) (n : Nat) : RxOut :=
  qmfRxF P (s.lostRunTo P n).D ((s.lostConceal P).lo.getD n 0) ((s.lostConceal P).hi.getD n 0)

theorem lostSample_mem (P : Profile) (lo hi : List I16) (n : Nat) (r : RxRun) : (lostSample P lo hi n r).mem =
    (r.mem.setPcm (2 * n) (qmfRxF P r.D (lo.getD n 0) (hi.getD n 0)).y0).setPcm (2 * n + 1)
      (qmfRxF P r.D (lo.getD n 0) (hi.getD n 0)).y1 := rfl

theorem State.lostRunTo_pcm (P : Profile) {s : State} (hw : s.mem.wf = true) {j n : Nat} (hj : j < n) :
    (s.lostRunTo P n).mem.pcm (2 * j) = (s.lostOut P j).y0
      ∧ (s.lostRunTo P n).mem.pcm (2 * j + 1) = (s.lostOut P j).y1 :=
  forN_pairs_pcm (mem := RxRun.mem) (a := ⟨_, s.mem⟩) (lostSample_mem P _ _) hw hj

/-- The analysis starts the counts of an episode and abandons a crossfade (46_plc_synthesis.md R381, R391). -/
theorem lostStart_counts (P : PlcParams) (dec : Ctx) (p : Plc) :
    (lostStart P dec p).cntL = (if p.prevBfi then p.cntL else 0)
      ∧ (lostStart P dec p).cntH = (if p.prevBfi then p.cntH else 0)
      ∧ (p.prevBfi = false → (lostStart P dec p).xfActive = false ∧ (lostStart P dec p).xfPos = 0) := by
  unfold lostStart
  cases p.prevBfi with
  | true => exact ⟨rfl, rfl, nofun⟩
  | false => exact ⟨rfl, rfl, fun _ => ⟨rfl, rfl⟩⟩

/-- Settles O42: the concealment writes the fields of `conceal_frame` only, and the loop stores each turn's pair. -/
theorem lostFrame_steps : Obligations.LostFrame := by
  intro s m q hq hw N start c
  obtain ⟨hplc, hlo, hhi, hbuf⟩ : c.plc = _ ∧ c.lo.length = N ∧ c.hi.length = N ∧ c.plc.xfBuf.length = 80 :=
    conceal_frame profile.plc N start
  obtain ⟨hcntL, hcntH, hxf⟩ := lostStart_counts profile.plc s.dec s.plc
  refine ⟨fun n => (s.lostRunTo profile n).D, _, exec_decFrame_lost m s q hq, hlo, hhi, rfl,
    fun n hn => ⟨rfl, State.lostRunTo_pcm profile hw hn⟩, rfl, rfl, (congrArg Plc.cls hplc :), (congrArg Plc.t0 hplc :),
    (congrArg Plc.lpc hplc :), (congrArg Plc.hbPer hplc :), (congrArg Plc.tSyn hplc :), ?_, ?_, rfl, rfl,
    fun hbfi => ?_, hbuf, fun a ha => forN_pairs_get (mem := RxRun.mem) (lostSample_mem profile _ _) ha⟩
  · exact (congrArg Plc.cntL hplc).trans (congrArg (· + N) hcntL)
  · exact (congrArg Plc.cntH hplc).trans (congrArg (· + N) hcntH)
  · obtain ⟨hact, hpos⟩ := hxf hbfi
    exact ⟨(congrArg Plc.xfActive hplc).trans hact, (congrArg Plc.xfPos hplc).trans hpos⟩

/-! ### A lost frame and the buffers -/

/-- The synthesis reads only the samples and the delay line. -/
theorem lostSample_D (P : Profile) (lo hi : List I16) (D : Vector I16 24) (m m' : Memory) (n : Nat) :
    (forN n (lostSample P lo hi) ⟨D, m⟩).D = (forN n (lostSample P lo hi) ⟨D, m'⟩).D :=
  forN_relate (fun _ (x y : RxRun) => x.D = y.D) _ _ _ _ n rfl fun n x y _ hD => by unfold lostSample; rw [hD]

theorem State.lostOut_withMem (P : Profile) (s : State) (m : Memory) (n : Nat) :
    (s.withMem m).lostOut P n = s.lostOut P n :=
  congrArg (qmfRxF P · _ _) (lostSample_D P _ _ s.dec.D m s.mem n)

/-- With other buffers, a lost frame leaves the same in every part but the buffers. -/
theorem State.decLost_withMem (P : Profile) (s : State) (m : Memory) :
    (s.withMem m).decLost P = (s.decLost P).withMem ((s.withMem m).decLost P).mem :=
  congrArg
    (fun D => { s.decLost P with dec := { s.dec with D := D }, mem := ((s.withMem m).decLost P).mem })
    (lostSample_D P _ _ s.dec.D m s.mem s.regs.frameLen)

theorem exec_decFrame_of_none (m : LMode) (loss : Bool) (s : State) (h : profile.invq m = none) :
    exec (.decFrame m .bits2 loss) s = .next (s.raiseError .rsvdMode) :=
  checkModeL_of_none profile m s _ h

theorem eq_bits3_of_none {m : LMode} (h : profile.invq m = none) : m = .bits3 := by
  cases m with
  | bits3 => rfl
  | _ => cases h

/-- Settles O43: the concealment and the delay line do not depend on the buffers, and each sample stored comes from
them. -/
theorem lostFrameIgnoresBuffers : Obligations.LostFrameIgnoresBuffers := by
  intro s t m n hw hn h
  cases hq : profile.invq m with
  | none =>
    obtain rfl := Host.Outcome.next.inj ((exec_decFrame_of_none m true s hq).symm.trans h)
    exact ⟨n, exec_decFrame_of_none m true _ hq, fun hm => absurd (eq_bits3_of_none hq) hm⟩
  | some q =>
    obtain rfl := Host.Outcome.next.inj ((exec_decFrame_lost m s q hq).symm.trans h)
    refine ⟨_, (exec_decFrame_lost m _ q hq).trans (congrArg _ (State.decLost_withMem profile s n)), fun _ k hk => ?_⟩
    obtain ⟨j, hj⟩ := Nat.even_or_odd' k
    have hout := State.lostOut_withMem profile s n j
    obtain ⟨h0, h1⟩ := State.lostRunTo_pcm profile hw (show j < s.regs.frameLen by omega)
    obtain ⟨h0', h1'⟩ := State.lostRunTo_pcm (s := s.withMem n) profile hn (show j < s.regs.frameLen by omega)
    rcases hj with rfl | rfl
    · exact h0'.trans ((congrArg RxOut.y0 hout).trans h0.symm)
    · exact h1'.trans ((congrArg RxOut.y1 hout).trans h1.symm)

end Sys2Proof.Machine

/-! PROOFS. After the resets, nothing of the past is left in what the host reads (44_codec_commands.md R298): two runs
of one program are kept in step. -/

namespace Sys2Proof.Machine

/-! ### Running a program of commands -/

theorem runSteps_succ {s t : State} (h : step s = .next t) (n : Nat) : runSteps (n + 1) s = runSteps n t := by
  rw [runSteps, h]

/-- A line with a command runs it. -/
theorem step_command {i : Instr} {s : State} {rest : List HostInput} (hin : s.bus.inputs = command i :: rest) :
    step s = exec i (s.setInputs rest) :=
  (step_cmdWrite hin).trans (runCommand_of_decode (decodeOfEncode i) _)

theorem runSteps_command {i : Instr} {s t : State} {rest : List HostInput} (hin : s.bus.inputs = command i :: rest)
    (h : exec i (s.setInputs rest) = .next t) (n : Nat) : runSteps (n + 1) s = runSteps n t :=
  runSteps_succ ((step_command hin).trans h) n

theorem rdReg_ne_command (r : HostReg) (i : Instr) : rdReg r ≠ command i := nofun

theorem wellFormed_of_table {m : LMode} {q : BitVec 6 → I16} (hq : profile.invq m = some q) :
    (Instr.encPair m .bits2).wellFormed profile = true ∧ (Instr.decPair m .bits2).wellFormed profile = true
      ∧ (Instr.encFrame m .bits2).wellFormed profile = true
      ∧ ∀ loss, (Instr.decFrame m .bits2 loss).wellFormed profile = true := by
  have hm : m.legal profile = true := by rw [LMode.legal, hq]; rfl
  simp [Instr.wellFormed, Instr.lmode?, Instr.hmode?, HMode.legal, hm]

/-! ### Two states in step, as far as the contexts and some registers -/

/-- Two states with the same contexts, in which the registers of `K` read alike. (`STATUS` shows the PLC state too, and
is left out.) -/
structure Agree (K : List HostReg) (s s' : State) : Prop where
  enc : s.enc = s'.enc
  dec : s.dec = s'.dec
  regs : ∀ r ∈ K, r ≠ .status → readReg s r = readReg s' r

/-- The effect of a command that touches neither the PLC state nor the buffers is a function of the registers that its
row reads and the contexts. -/
theorem effect_agree_contexts {i : Instr} {s s' : State} (q : BitVec 6 → I16) (hplc : writesPlc i = false)
    (hmem : writesBuffers i = false) (henc : s.enc = s'.enc) (hdec : s.dec = s'.dec)
    (hread : ∀ r ∈ regsRead i, readReg s r = readReg s' r) :
    (∀ r ∈ regsWritten i, readReg (s.effect q i) r = readReg (s'.effect q i) r)
      ∧ (s.effect q i).enc = (s'.effect q i).enc ∧ (s.effect q i).dec = (s'.effect q i).dec := by
  cases i with
  | encFrame m h => cases hmem
  | decFrame m h loss => cases hmem
  | _ =>
    simp only [regsRead, readReg, List.forall_mem_cons, List.not_mem_nil, false_imp_iff,
      sampleWord_inj, setWidth_inj (by decide : 2 ≤ 32), setWidth_inj (by decide : 6 ≤ 32),
      setWidth_inj (by decide : 8 ≤ 32)] at hread
    simp [State.effect, regsWritten, readReg, opA32, opA, opB, opN, *]

/-- Nothing reads `STATUS`. -/
theorem status_notMem_regsRead (i : Instr) : .status ∉ regsRead i := by cases i <;> simp [regsRead]

/-- One access served on both sides: they agree after it, and on the word read where they did or where it is a read. -/
def StepsAgree (K : List HostReg) (x : HostInput) (rest : List HostInput) (s s' : State) : Prop :=
  ∃ u u', step s = .next u ∧ step s' = .next u' ∧ Agree K u u' ∧ u.bus.inputs = rest ∧ u'.bus.inputs = rest
    ∧ (s.bus.readData = s'.bus.readData ∨ (∃ r, x = rdReg r) → u.bus.readData = u'.bus.readData)

/-- An access that is no read keeps the word read before. -/
theorem StepsAgree.of_bus {K : List HostReg} {x : HostInput} {rest : List HostInput} {s s' u u' : State}
    (hx : ∀ r, x ≠ rdReg r) (hu : step s = .next u) (hu' : step s' = .next u') (ha : Agree K u u')
    (hbus : u.bus = (s.setInputs rest).bus) (hbus' : u'.bus = (s'.setInputs rest).bus) : StepsAgree K x rest s s' := by
  refine ⟨u, u', hu, hu', ha, congrArg Bus.inputs hbus, congrArg Bus.inputs hbus', fun h => ?_⟩
  rw [hbus, hbus']
  exact h.resolve_right fun ⟨r, hr⟩ => hx r hr

/-- The registers that keep what the host writes. -/
def dataRegs : List HostReg := [.x0, .x1, .xl, .xh, .il, .ih, .code, .satA, .satB]

theorem readReg_writeReg_dataReg (v : Word) (s s' : State) {r : HostReg} (hr : r ∈ dataRegs) :
    readReg (writeReg v s r) r = readReg (writeReg v s' r) r := by
  simp only [dataRegs, List.mem_cons, List.not_mem_nil, or_false] at hr
  rcases hr with rfl | rfl | rfl | rfl | rfl | rfl | rfl | rfl | rfl <;> rfl

section Agree

variable {K : List HostReg} {s s' : State} {rest : List HostInput} (ha : Agree K s s')
include ha

theorem Agree.write {r : HostReg} {v : Word} (hr : r ∈ dataRegs) (hin : s.bus.inputs = wrReg r v :: rest)
    (hin' : s'.bus.inputs = wrReg r v :: rest) : StepsAgree (r :: K) (wrReg r v) rest s s' := by
  have hcmd : r ≠ .cmd := by rintro rfl; exact absurd hr (by decide)
  obtain ⟨henc, hdec, -, hbus⟩ := writeTarget_keeps v (s.setInputs rest) (.reg r)
  obtain ⟨henc', hdec', -, hbus'⟩ := writeTarget_keeps v (s'.setInputs rest) (.reg r)
  refine .of_bus (fun _ => nofun) (step_writeReg hcmd hin) (step_writeReg hcmd hin')
    ⟨henc.trans (ha.enc.trans henc'.symm), hdec.trans (ha.dec.trans hdec'.symm), fun p hp hst => ?_⟩ hbus hbus'
  by_cases hpr : p = r
  · subst hpr; exact readReg_writeReg_dataReg v _ _ hr
  · rw [readReg_writeReg_ne v _ hpr, readReg_writeReg_ne v _ hpr]
    exact ha.regs p ((List.mem_cons.1 hp).resolve_left hpr) hst

theorem Agree.read {r : HostReg} (hr : r ∈ K) (hst : r ≠ .status) (hin : s.bus.inputs = rdReg r :: rest)
    (hin' : s'.bus.inputs = rdReg r :: rest) : StepsAgree K (rdReg r) rest s s' :=
  ⟨_, _, step_readReg hin, step_readReg hin', ⟨ha.enc, ha.dec, ha.regs⟩, rfl, rfl, fun _ => ha.regs r hr hst⟩

theorem Agree.command {i : Instr} (hwf : i.wellFormed profile = true) (hplc : writesPlc i = false)
    (hmem : writesBuffers i = false) (hread : regsRead i ⊆ K) (hin : s.bus.inputs = command i :: rest)
    (hin' : s'.bus.inputs = command i :: rest) : StepsAgree (regsWritten i ++ K) (command i) rest s s' := by
  obtain ⟨q, hq⟩ := exec_effect hwf
  have hu := hq (s.setInputs rest)
  have hu' := hq (s'.setInputs rest)
  obtain ⟨hregs, henc, hdec⟩ := effect_agree_contexts (s := s.setInputs rest) (s' := s'.setInputs rest) q hplc hmem
    ha.enc ha.dec fun r hr => ha.regs r (hread hr) fun hst => status_notMem_regsRead i (hst ▸ hr)
  refine .of_bus (fun _ => nofun) ((step_command hin).trans hu) ((step_command hin').trans hu')
    ⟨henc, hdec, fun r hr hst => ?_⟩ (exec_bus hu) (exec_bus hu')
  by_cases hw : r ∈ regsWritten i
  · exact hregs r hw
  · rw [readReg_exec hu hw hst, readReg_exec hu' hw hst]
    exact ha.regs r ((List.mem_append.1 hr).resolve_left hw) hst

end Agree

/-! ### Programs whose reads depend on their own writes only -/

/-- From states that agree on `K`, the accesses of the list keep the states in agreement: it writes a register with a
word of its own, runs a command whose row reads registers of `K`, and reads registers of `K`. -/
inductive Determined : List HostReg → List HostInput → Prop
  | done (K : List HostReg) : Determined K []
  | write {K : List HostReg} {r : HostReg} {v : Word} {rest : List HostInput} (hr : r ∈ dataRegs)
      (h : Determined (r :: K) rest) : Determined K (wrReg r v :: rest)
  | read {K : List HostReg} {r : HostReg} {rest : List HostInput} (hr : r ∈ K) (hst : r ≠ .status)
      (h : Determined K rest) : Determined K (rdReg r :: rest)
  | command {K : List HostReg} {i : Instr} {rest : List HostInput} (hwf : i.wellFormed profile = true)
      (hplc : writesPlc i = false) (hmem : writesBuffers i = false) (hread : regsRead i ⊆ K)
      (h : Determined (regsWritten i ++ K) rest) : Determined K (command i :: rest)

/-- `n` steps taken on both sides: the contexts are equal after them, and the word read is where it was before or where
one of the `n` accesses is a read. -/
def RunsAgree (n : Nat) (prog : List HostInput) (s s' : State) : Prop :=
  ∃ t t', runSteps n s = .next t ∧ runSteps n s' = .next t' ∧ t.enc = t'.enc ∧ t.dec = t'.dec
    ∧ (s.bus.readData = s'.bus.readData ∨ (∃ r, rdReg r ∈ prog.take n) → t.bus.readData = t'.bus.readData)

/-- A first step in agreement, then the rest of the run. -/
theorem StepsAgree.runsAgree {K : List HostReg} {x : HostInput} {rest : List HostInput} {s s' : State} {n : Nat}
    (h : StepsAgree K x rest s s')
    (ih : ∀ {u u' : State}, Agree K u u' → u.bus.inputs = rest → u'.bus.inputs = rest → RunsAgree n rest u u') :
    RunsAgree (n + 1) (x :: rest) s s' := by
  obtain ⟨u, u', hu, hu', ha, hin, hin', hread⟩ := h
  obtain ⟨t, t', ht, ht', henc, hdec, hread'⟩ := ih ha hin hin'
  refine ⟨t, t', (runSteps_succ hu n).trans ht, (runSteps_succ hu' n).trans ht', henc, hdec, ?_⟩
  rintro (hs | ⟨r, hr⟩)
  · exact hread' (.inl (hread (.inl hs)))
  · rcases List.mem_cons.1 hr with hr | hr
    · exact hread' (.inl (hread (.inr ⟨r, hr.symm⟩)))
    · exact hread' (.inr ⟨r, hr⟩)

theorem Determined.runsAgree {K : List HostReg} {prog : List HostInput} (h : Determined K prog) {s s' : State}
    (ha : Agree K s s') (hin : s.bus.inputs = prog) (hin' : s'.bus.inputs = prog) {n : Nat} (hn : n ≤ prog.length) :
    RunsAgree n prog s s' := by
  induction n generalizing K prog s s' with
  | zero => exact ⟨s, s', rfl, rfl, ha.enc, ha.dec, fun h => h.resolve_right fun ⟨r, hr⟩ => by cases hr⟩
  | succ n ih =>
    cases h with
    | done => exact absurd hn (by simp)
    | write hr h =>
      exact (ha.write hr hin hin').runsAgree fun ha hin hin' => ih h ha hin hin' (Nat.le_of_succ_le_succ hn)
    | read hr hst h =>
      exact (ha.read hr hst hin hin').runsAgree fun ha hin hin' => ih h ha hin hin' (Nat.le_of_succ_le_succ hn)
    | command hwf hplc hmem hread h =>
      exact (ha.command hwf hplc hmem hread hin hin').runsAgree fun ha hin hin' =>
        ih h ha hin hin' (Nat.le_of_succ_le_succ hn)

/-- Lines that may stand anywhere, one after the other. -/
theorem Determined.flatMap {α : Type} {line : α → List HostInput} {rest : List HostInput}
    (hline : ∀ (x : α) (tail : List HostInput), (∀ K, Determined K tail) → ∀ K, Determined K (line x ++ tail))
    (h : ∀ K, Determined K rest) (xs : List α) : ∀ K, Determined K (xs.flatMap line ++ rest) := by
  induction xs with
  | nil => exact h
  | cons x xs ih =>
    intro K
    rw [List.flatMap_cons, List.append_assoc]
    exact hline x _ ih K

section Lines

variable {m : LMode} {q : BitVec 6 → I16} (hq : profile.invq m = some q) {tail : List HostInput}
  (h : ∀ K, Determined K tail) (K : List HostReg)
include hq h

/-- An encoding writes the pair that it encodes, and `CODE` before it is read. -/
theorem Determined.encodeLine (x0 x1 : Word) :
    Determined K (encodeLine x0 x1 m .bits2 ++ [rdReg .code] ++ tail) :=
  .write (by decide) <| .write (by decide) <|
    .command (wellFormed_of_table hq).1 rfl rfl (by simp [regsRead]) <| .read (by simp [regsWritten]) nofun (h _)

/-- A decoding writes the codeword that it decodes, and `Y0` before it is read. -/
theorem Determined.decodeLine (c : Word) : Determined K (decodeLine c m .bits2 ++ [rdReg .y0] ++ tail) :=
  .write (by decide) <| .command (wellFormed_of_table hq).2.1 rfl rfl (by simp [regsRead]) <|
    .read (by simp [regsWritten]) nofun (h _)

end Lines

/-! ### Frames from states that are the same to them -/

/-- Two states with the same contexts, PLC state, buffers and frame length, all that a frame command depends on. -/
structure SameParts (s s' : State) : Prop where
  enc : s.enc = s'.enc
  dec : s.dec = s'.dec
  plc : s.plc = s'.plc
  mem : s.mem = s'.mem
  frameLen : s.regs.frameLen = s'.regs.frameLen

/-- No command touches `FRAMELEN`. -/
theorem exec_frameLen {i : Instr} {s t : State} (h : exec i s = .next t) : t.regs.frameLen = s.regs.frameLen := by
  have hkept : KeptByStages fun u => u.regs.frameLen = s.regs.frameLen := {}
  rcases hkept.exec h rfl with ⟨-, rfl⟩ | ht
  · rfl
  · exact ht

theorem SameParts.exec {i : Instr} {s s' : State} (h : SameParts s s') (hwf : i.wellFormed profile = true)
    (hread : regsRead i = []) : ∃ t t', exec i s = .next t ∧ exec i s' = .next t' ∧ SameParts t t' := by
  obtain ⟨q, hq⟩ := exec_effect hwf
  obtain ⟨-, henc, hdec, hplc, hmem⟩ := effect_agree (i := i) q h.enc h.dec h.plc h.mem h.frameLen (by simp [hread])
  exact ⟨_, _, hq s, hq s', henc, hdec, hplc, hmem,
    (exec_frameLen (hq s)).trans (h.frameLen.trans (exec_frameLen (hq s')).symm)⟩

/-- A program of commands that read no register, from such states. -/
theorem SameParts.runSteps {is : List Instr} (his : ∀ i ∈ is, i.wellFormed profile = true ∧ regsRead i = [])
    {s s' : State} (h : SameParts s s') (hin : s.bus.inputs = is.map command) (hin' : s'.bus.inputs = is.map command) :
    ∃ t t', runSteps is.length s = .next t ∧ runSteps is.length s' = .next t' ∧ SameParts t t' := by
  induction is generalizing s s' with
  | nil => exact ⟨s, s', rfl, rfl, h⟩
  | cons i is ih =>
    obtain ⟨⟨hwf, hread⟩, his⟩ := List.forall_mem_cons.1 his
    have hset : SameParts (s.setInputs (is.map command)) (s'.setInputs (is.map command)) :=
      ⟨h.enc, h.dec, h.plc, h.mem, h.frameLen⟩
    obtain ⟨u, u', hu, hu', hsame⟩ := hset.exec hwf hread
    obtain ⟨t, t', ht, ht', hend⟩ :=
      ih his hsame (congrArg Bus.inputs (exec_bus hu)) (congrArg Bus.inputs (exec_bus hu'))
    exact ⟨t, t', (runSteps_command hin hu _).trans ht, (runSteps_command hin' hu' _).trans ht', hend⟩

/-! ### After the resets -/

/-- `RESET_ENC` and `RESET_DEC` at the head of a program. -/
theorem runSteps_resets (s : State) (rest : List HostInput) (n : Nat) :
    runSteps (n + 2) (s.setInputs (command .resetEnc :: command .resetDec :: rest))
      = runSteps n ((s.setInputs rest).resetEnc.resetDec) :=
  (runSteps_command rfl rfl (n + 1)).trans (runSteps_command rfl rfl n)

/-- The resets of the codec and of the PLC at the head of a program. -/
theorem runSteps_resets_plc (s : State) (rest : List HostInput) (n : Nat) :
    runSteps (n + 3) (s.setInputs (command .resetEnc :: command .resetDec :: command .plcReset :: rest))
      = runSteps n (((s.setInputs rest).resetEnc.resetDec).resetPlc profile.plc) :=
  (runSteps_resets s _ (n + 1)).trans (runSteps_command rfl rfl n)

/-- Settles O19: after the resets, the lines of a program keep the two runs in agreement; and a frame is a function of
the parts that the resets and the premises make equal. -/
theorem resetForgetsHistory : Obligations.ResetForgetsHistory := by
  refine ⟨fun s s' m q xs cs hq => ?_, fun s s' m q loss hq hlen hmem => ?_⟩
  · have hlines : Determined [] (xs.flatMap (fun x => encodeLine x.1 x.2 m .bits2 ++ [rdReg .code])
        ++ (cs.flatMap (fun c => decodeLine c m .bits2 ++ [rdReg .y0]) ++ [])) :=
      .flatMap (fun x _ h K => .encodeLine hq h K x.1 x.2)
        (.flatMap (fun c _ h K => .decodeLine hq h K c) .done cs) xs []
    rw [List.append_nil] at hlines
    rw [List.append_assoc]
    generalize xs.flatMap _ ++ cs.flatMap _ = lines at hlines ⊢
    rintro prog (- | - | n) hn ⟨r, hr⟩
    · cases hr
    · simp [prog, rdReg_ne_command] at hr
    · have hr : rdReg r ∈ lines.take n := by simpa [prog, rdReg_ne_command] using hr
      have hagree : Agree [] ((s.setInputs lines).resetEnc.resetDec) ((s'.setInputs lines).resetEnc.resetDec) :=
        ⟨rfl, rfl, nofun⟩
      obtain ⟨t, t', ht, ht', henc, hdec, hread⟩ := hlines.runsAgree hagree rfl rfl (n := n) (by simpa [prog] using hn)
      exact ⟨t, t', (runSteps_resets s lines n).trans ht, (runSteps_resets s' lines n).trans ht', hread (.inr ⟨r, hr⟩),
        henc, hdec⟩
  · have hframes : ∀ i ∈ [Instr.encFrame m .bits2, .decFrame m .bits2 loss],
        i.wellFormed profile = true ∧ regsRead i = [] := by
      obtain ⟨-, -, henc, hdec⟩ := wellFormed_of_table hq
      simp [henc, hdec, regsRead]
    have hsame : ∀ rest, SameParts (((s.setInputs rest).resetEnc.resetDec).resetPlc profile.plc)
        (((s'.setInputs rest).resetEnc.resetDec).resetPlc profile.plc) := fun _ => ⟨rfl, rfl, rfl, hmem, hlen⟩
    obtain ⟨t, t', ht, ht', henc, hdec, hplc, hmem, -⟩ := (hsame _).runSteps hframes rfl rfl
    exact ⟨t, t', (runSteps_resets_plc s _ 2).trans ht, (runSteps_resets_plc s' _ 2).trans ht', henc, hdec, hplc, hmem⟩

end Sys2Proof.Machine

/-! PROOFS. The concealment's analysis (45_plc_analysis.md): what a history holds after a frame, the normal equations
that the recursion solves, the order of the signed squares, the best of the candidate lags, and the limit on the last
cycle. -/

namespace Sys2Proof.Machine

/-! ### Histories (45_plc_analysis.md R330) -/

theorem pushBuf_getD {len : Nat} {buf : List I16} (src : List I16) (h : buf.length = len) (j : Nat) :
    (pushBuf len buf src).getD j 0 = (if len ≤ src.length then src.getD (src.length - len + j) 0
      else if j < len - src.length then buf.getD (src.length + j) 0 else src.getD (j - (len - src.length)) 0) := by
  unfold pushBuf
  split
  · simp
  · rw [getD_append_ite, List.length_drop, h]
    simp

/-- Settles O46: each history is `pushBuf`, and `pushHistory` writes no other field. -/
theorem pushHistory_histories : Obligations.PushHistory := by
  intro P p lo hi hL hH hlen N shifted
  have hN : N = hi.length := hlen
  refine ⟨_, _, rfl, ⟨length_pushBuf _ _ _ hL, fun j _ => pushBuf_getD lo hL j⟩, length_pushBuf _ _ _ hH, fun j _ => ?_⟩
  rw [hN]
  exact pushBuf_getD hi hH j

/-! ### The Levinson-Durbin recursion (45_plc_analysis.md R335) -/

theorem sumFrom_eq_sum (lo hi : Nat) (f : Nat → Rat) : sumFrom lo hi f = ∑ k ∈ Finset.range (hi - lo), f (lo + k) := rfl

theorem ratAbs_eq_abs (x : Rat) : ratAbs x = |x| := by
  unfold ratAbs
  split
  · exact (abs_of_neg ‹_›).symm
  · exact (abs_of_nonneg (not_lt.1 ‹_›)).symm

/-- The left side of normal equation `i` for the coefficients `a`. At 0 it is the energy of the prediction error. -/
def normalLhs (rr : Nat → Rat) (a : List Rat) (i : Nat) : Rat :=
  rr i + ∑ j ∈ Finset.range a.length, ratAt a j * rr (Int.natAbs ((i : Int) - (j + 1)))

/-- The coefficients after one step of the recursion with the reflection coefficient `k`. -/
def levinsonStep (a : List Rat) (k : Rat) : List Rat :=
  ((List.range a.length).map fun j => ratAt a j + k * ratAt a (a.length - 1 - j)) ++ [k]

theorem length_levinsonStep (a : List Rat) (k : Rat) : (levinsonStep a k).length = a.length + 1 := by
  simp [levinsonStep]

theorem ratAt_levinsonStep_of_lt {a : List Rat} (k : Rat) {j : Nat} (h : j < a.length) :
    ratAt (levinsonStep a k) j = ratAt a j + k * ratAt a (a.length - 1 - j) := by
  rw [ratAt, levinsonStep, List.getD_append _ _ _ _ (by simpa using h)]
  simp [ratAt, h]

theorem ratAt_levinsonStep_last (a : List Rat) (k : Rat) : ratAt (levinsonStep a k) a.length = k := by
  simp [levinsonStep, ratAt]

/-- The sum in step `i` of the recursion runs over the left side of normal equation `i`. -/
theorem sumFrom_levinson (rr : Nat → Rat) (a : List Rat) :
    rr (a.length + 1) + sumFrom 1 (a.length + 1) (fun j => ratAt a (j - 1) * rr (a.length + 1 - j))
      = normalLhs rr a (a.length + 1) := by
  rw [sumFrom_eq_sum, normalLhs]
  refine congrArg _ (Finset.sum_congr rfl fun j hj => ?_)
  have hj : j < a.length := Finset.mem_range.1 hj
  have hdist : Int.natAbs ((a.length + 1 : Nat) - ((j : Int) + 1)) = a.length + 1 - (1 + j) := by omega
  rw [Nat.add_sub_cancel_left, hdist]

/-- The coefficients in reverse order, against the correlations of equation `i`, are those in order against the
correlations of equation `a.length + 1 - i`: the autocorrelation is symmetric. -/
theorem sum_ratAt_reverse (rr : Nat → Rat) (a : List Rat) {i : Nat} (hi : i ≤ a.length + 1) :
    ∑ j ∈ Finset.range a.length, ratAt a (a.length - 1 - j) * rr (Int.natAbs ((i : Int) - (j + 1)))
      = ∑ j ∈ Finset.range a.length, ratAt a j * rr (Int.natAbs (((a.length + 1 - i : Nat) : Int) - (j + 1))) := by
  rw [← Finset.sum_range_reflect]
  refine Finset.sum_congr rfl fun j hj => ?_
  have hj : j < a.length := Finset.mem_range.1 hj
  congr 2 <;> omega

/-- One step adds to each equation `k` times its mirror image. -/
theorem normalLhs_levinsonStep (rr : Nat → Rat) (a : List Rat) (k : Rat) {i : Nat} (hi : i ≤ a.length + 1) :
    normalLhs rr (levinsonStep a k) i = normalLhs rr a i + k * normalLhs rr a (a.length + 1 - i) := by
  have hterms : ∀ j ∈ Finset.range a.length,
      ratAt (levinsonStep a k) j * rr (Int.natAbs ((i : Int) - (j + 1)))
        = ratAt a j * rr (Int.natAbs ((i : Int) - (j + 1)))
          + k * (ratAt a (a.length - 1 - j) * rr (Int.natAbs ((i : Int) - (j + 1)))) := fun j hj => by
    rw [ratAt_levinsonStep_of_lt k (Finset.mem_range.1 hj)]
    ring
  have hlast : Int.natAbs ((i : Int) - (a.length + 1)) = a.length + 1 - i := by omega
  simp only [normalLhs, length_levinsonStep, Finset.sum_range_succ, ratAt_levinsonStep_last,
    Finset.sum_congr rfl hterms, Finset.sum_add_distrib, ← Finset.mul_sum, sum_ratAt_reverse rr a hi, hlast]
  ring

/-- What the recursion keeps: `a` solves the first `a.length` normal equations, and `E` is the energy of the prediction
error, which stays positive. -/
structure LevinsonInv (rr : Nat → Rat) (a : List Rat) (E : Rat) : Prop where
  energy : normalLhs rr a 0 = E
  energy_pos : 0 < E
  solves : ∀ i, 1 ≤ i → i ≤ a.length → normalLhs rr a i = 0

theorem LevinsonInv.start {rr : Nat → Rat} (h : 0 < rr 0) : LevinsonInv rr [] (rr 0) where
  energy := by simp [normalLhs]
  energy_pos := h
  solves i h1 h0 := absurd h1 (by simpa using h0)

/-- The reflection coefficient is the one that makes the next equation hold. -/
theorem LevinsonInv.step {rr : Nat → Rat} {a : List Rat} {E k : Rat} (h : LevinsonInv rr a E)
    (hk : k = -normalLhs rr a (a.length + 1) / E) (hle : |k| ≤ rcMax) :
    LevinsonInv rr (levinsonStep a k) (E * (1 - k * k)) := by
  have hlast : normalLhs rr a (a.length + 1) = -(k * E) := by
    rw [hk, div_mul_cancel₀ _ h.energy_pos.ne', neg_neg]
  have hsq : k * k < 1 := by
    have hlt : |k| < 1 := hle.trans_lt (by norm_num [rcMax])
    rw [← abs_mul_abs_self]
    exact mul_lt_one_of_nonneg_of_lt_one_left (abs_nonneg k) hlt hlt.le
  refine ⟨?_, mul_pos h.energy_pos (sub_pos.2 hsq), fun i h1 hi => ?_⟩
  · rw [normalLhs_levinsonStep rr a k (Nat.zero_le _), Nat.sub_zero, h.energy, hlast]
    ring
  · rw [length_levinsonStep] at hi
    rw [normalLhs_levinsonStep rr a k hi]
    obtain hi | rfl := Nat.le_succ_iff.1 hi
    · rw [h.solves i h1 hi, h.solves _ (by omega) (by omega), mul_zero, add_zero]
    · rw [Nat.sub_self, h.energy, hlast, neg_add_cancel]

/-- A step of the recursion that does not abort, in the terms of `normalLhs` and `levinsonStep`. -/
theorem levinsonFrom_succ {rr : Nat → Rat} {left : Nat} {a : List Rat} {E : Rat} {out : List Rat}
    (h : levinsonFrom rr (left + 1) (a.length + 1) a E = some out) :
    ∃ k, k = -normalLhs rr a (a.length + 1) / E ∧ |k| ≤ rcMax
      ∧ levinsonFrom rr left (a.length + 1 + 1) (levinsonStep a k) (E * (1 - k * k)) = some out := by
  simp only [levinsonFrom, sumFrom_levinson, ratAbs_eq_abs] at h
  split at h
  · cases h
  · exact ⟨_, rfl, not_lt.1 ‹_›, h⟩

theorem LevinsonInv.of_levinsonFrom {rr : Nat → Rat} {left : Nat} {a : List Rat} {E : Rat} {out : List Rat}
    (h : LevinsonInv rr a E) (hout : levinsonFrom rr left (a.length + 1) a E = some out) :
    ∃ E', LevinsonInv rr out E' := by
  induction left generalizing a E with
  | zero =>
    obtain rfl := Option.some.inj hout
    exact ⟨E, h⟩
  | succ left ih =>
    obtain ⟨k, hk, hle, hrest⟩ := levinsonFrom_succ hout
    rw [← length_levinsonStep a k] at hrest
    exact ih (h.step hk hle) hrest

theorem levinson_solves {rr : Nat → Rat} {p : Nat} {a : List Rat} (h : levinson rr p = some a) :
    ∃ E, LevinsonInv rr a E := by
  unfold levinson at h
  split at h
  · cases h
  · exact (LevinsonInv.start (not_le.1 ‹_›)).of_levinsonFrom h

/-- Settles O47, by the invariant of the recursion. -/
theorem levinsonSolvesNormalEquations : Obligations.LevinsonSolvesNormalEquations := by
  intro rr p a h
  obtain rfl := length_levinson rr p a h
  obtain ⟨E, hinv⟩ := levinson_solves h
  exact ⟨rfl, hinv.solves⟩

/-! ### Signed squares (45_plc_analysis.md R339; log 2) -/

theorem mul_abs_strictMono : StrictMono fun c : Real => c * |c| := by
  refine strictMono_of_odd_strictMonoOn_nonneg (fun c => by rw [abs_neg, neg_mul]) fun x hx y hy hxy => ?_
  have hx : 0 ≤ x := hx
  simpa only [abs_of_nonneg hx, abs_of_nonneg (hx.trans hxy.le)] using mul_self_lt_mul_self hx hxy

/-- The correlation as a real, of which the model carries the signed square. -/
noncomputable def realCorr (X E : Rat) : Real := if 0 < E then (X : Real) / Real.sqrt (E : Real) else 0

theorem signedSq_eq (X E : Rat) : (signedSq X E : Real) = realCorr X E * |realCorr X E| := by
  unfold signedSq realCorr
  split
  · next hE =>
    have hE' : (0 : Real) ≤ E := by exact_mod_cast hE.le
    rw [abs_div, abs_of_nonneg (Real.sqrt_nonneg _), div_mul_div_comm, Real.mul_self_sqrt hE']
    split
    · next hX =>
      rw [abs_of_neg (by exact_mod_cast hX)]
      push_cast
      ring
    · next hX =>
      rw [abs_of_nonneg (by exact_mod_cast not_lt.1 hX)]
      push_cast
      ring
  · simp

/-- Settles O48: `c ↦ c * |c|` is strictly monotone, and takes the threshold to its square. -/
theorem signedSquaresOrderCorrelations : Obligations.SignedSquaresOrderCorrelations := by
  refine ⟨fun X E X' E' => ?_, fun X E => ?_⟩
  · rw [← Rat.cast_lt (K := Real), signedSq_eq, signedSq_eq]
    exact mul_abs_strictMono.lt_iff_lt
  · have hthr : (voicedThrSq : Real) = 7 / 10 * |(7 / 10 : Real)| := by norm_num [voicedThrSq]
    rw [← Rat.cast_lt (K := Real), signedSq_eq, hthr]
    exact mul_abs_strictMono.lt_iff_lt

/-! ### The best lag (45_plc_analysis.md R341) -/

/-- `best` has at least the correlation of `T`, and is no larger a lag on a tie. -/
def NoWorseLag (f : Nat → Rat) (best T : Nat) : Prop := f T ≤ f best ∧ (f T = f best → best ≤ T)

theorem NoWorseLag.refl (f : Nat → Rat) (T : Nat) : NoWorseLag f T T := ⟨le_rfl, fun _ => le_rfl⟩

theorem NoWorseLag.trans {f : Nat → Rat} {x y z : Nat} (hxy : NoWorseLag f x y) (hyz : NoWorseLag f y z) :
    NoWorseLag f x z := by
  obtain ⟨hf, htie⟩ := hxy
  obtain ⟨hf', htie'⟩ := hyz
  refine ⟨hf'.trans hf, fun h => ?_⟩
  exact (htie (hf.antisymm (h ▸ hf'))).trans (htie' (hf'.antisymm (h ▸ hf)))

theorem betterLag_cases (f : Nat → Rat) (b T : Nat) :
    (betterLag f b T = b ∨ betterLag f b T = T)
      ∧ NoWorseLag f (betterLag f b T) b ∧ NoWorseLag f (betterLag f b T) T := by
  unfold betterLag
  split
  · next hlt => exact ⟨.inr rfl, ⟨hlt.le, fun h => absurd h hlt.ne⟩, .refl f T⟩
  · next hlt =>
    split
    · next heq =>
      rcases le_total b T with h | h
      · rw [min_eq_left h]
        exact ⟨.inl rfl, .refl f b, heq.le, fun _ => h⟩
      · rw [min_eq_right h]
        exact ⟨.inr rfl, ⟨heq.ge, fun _ => h⟩, .refl f T⟩
    · next hne => exact ⟨.inl rfl, .refl f b, not_lt.1 hlt, fun h => absurd h hne⟩

theorem foldl_betterLag_best (f : Nat → Rat) (xs : List Nat) (b : Nat) :
    xs.foldl (betterLag f) b ∈ b :: xs ∧ ∀ T ∈ b :: xs, NoWorseLag f (xs.foldl (betterLag f) b) T := by
  induction xs generalizing b with
  | nil => exact ⟨List.mem_singleton_self b, fun T hT => List.mem_singleton.1 hT ▸ .refl f T⟩
  | cons x xs ih =>
    obtain ⟨hmem, hbest⟩ := ih (betterLag f b x)
    obtain ⟨hsel, hb, hx⟩ := betterLag_cases f b x
    have hhead := hbest _ List.mem_cons_self
    refine ⟨?_, fun T hT => ?_⟩
    · rcases List.mem_cons.1 hmem with h | h
      · rw [List.foldl_cons, h]
        rcases hsel with h | h <;> simp [h]
      · exact List.mem_cons_of_mem _ (List.mem_cons_of_mem _ h)
    · rcases List.mem_cons.1 hT with rfl | hT
      · exact hhead.trans hb
      rcases List.mem_cons.1 hT with rfl | hT
      · exact hhead.trans hx
      · exact hbest T (List.mem_cons_of_mem _ hT)

theorem mem_lagsFrom_iff {lo hi T : Nat} : T ∈ lagsFrom lo hi ↔ lo ≤ T ∧ T ≤ hi := by
  refine ⟨mem_lagsFrom lo hi T, fun ⟨hlo, hhi⟩ => ?_⟩
  exact List.mem_map.2 ⟨T - lo, List.mem_range.2 (by omega), by omega⟩

/-- The refinement set of a lag in range holds four times the lag. -/
theorem four_mul_mem_refineSet {P : PlcParams} {τ : Nat} (hlo : P.tauMin ≤ τ) (hhi : τ ≤ P.tauMax) :
    4 * τ ∈ refineSet P τ := by
  unfold PlcParams.tauMin at hlo
  unfold PlcParams.tauMax at hhi
  exact mem_lagsFrom_iff.2 (by omega)

/-- The union of the refinement sets of the selected lags. -/
def refineSets (P : PlcParams) (sel : Nat × Option Nat) : List Nat := (sel.1 :: sel.2.toList).flatMap (refineSet P)

theorem mem_refineSets_iff {P : PlcParams} {sel : Nat × Option Nat} {T : Nat} : T ∈ refineSets P sel ↔
    ∃ τ : Nat, (τ = sel.1 ∨ sel.2 = some τ) ∧ max P.minPit (4 * τ - 2) ≤ T ∧ T ≤ min P.maxPit (4 * τ + 2) := by
  simp only [refineSets, List.mem_flatMap, List.mem_cons, Option.mem_toList, refineSet, mem_lagsFrom_iff]

/-- The lags that `PITCH_SELECT` selects for an excitation. -/
def selectedLags (P : PlcParams) (exc : List Rat) : Nat × Option Nat :=
  P.pitchSelect ((lagsFrom P.tauMin P.tauMax).map (normCorr (decimLen P) (whiten P (decimate P exc))))

theorem pitchLag_eq_foldl (P : PlcParams) (exc : List Rat) : pitchLag P exc =
    (refineSets P (selectedLags P exc)).foldl (betterLag (pitchCorr P exc)) (4 * (selectedLags P exc).1) := by
  simp only [pitchLag, refineSets, selectedLags]
  generalize P.pitchSelect _ = sel
  refine congrArg (List.foldl _ _) ?_
  obtain ⟨τ, _ | τ'⟩ := sel <;> simp

/-- Settles O49: the fold ends in the best of its start and its list, and its start is in the list. -/
theorem pitchLagIsBest : Obligations.PitchLagIsBest := by
  intro exc P sel cand t0
  obtain ⟨hlo, hhi⟩ : P.minPit ≤ t0 ∧ t0 ≤ P.maxPit := pitchLag_mem exc
  obtain ⟨hsel_lo, hsel_hi⟩ : P.tauMin ≤ sel.1 ∧ sel.1 ≤ P.tauMax := Config.pitchSelect_fst_mem _
  have hstart : 4 * sel.1 ∈ refineSets P sel :=
    List.mem_flatMap.2 ⟨sel.1, List.mem_cons_self, four_mul_mem_refineSet hsel_lo hsel_hi⟩
  have hfold : t0 = (refineSets P sel).foldl (betterLag (pitchCorr P exc)) (4 * sel.1) := pitchLag_eq_foldl P exc
  obtain ⟨hmem, hbest⟩ := foldl_betterLag_best (pitchCorr P exc) (refineSets P sel) (4 * sel.1)
  rw [← hfold] at hmem hbest
  refine ⟨hlo, hhi, mem_refineSets_iff.1 ?_, fun T hT => hbest T (List.mem_cons_of_mem _ (mem_refineSets_iff.2 hT))⟩
  obtain h | h := List.mem_cons.1 hmem
  · exact h ▸ hstart
  · exact h

/-! ### The limit on the last cycle (45_plc_analysis.md R346) -/

theorem limitMag_eq (lim x : Rat) :
    limitMag lim x = if |x| ≤ lim then x else if x < 0 then -lim else lim := by
  simp only [limitMag, ratAbs_eq_abs, ← not_le, ite_not]

theorem abs_limitMag_le {lim : Rat} (h : 0 ≤ lim) (x : Rat) : |limitMag lim x| ≤ lim := by
  rw [limitMag_eq]
  split
  · assumption
  · split
    · rw [abs_neg, abs_of_nonneg h]
    · rw [abs_of_nonneg h]

/-- The limit that the prior cycle sets on the last one. -/
def cycleLimit (P : PlcParams) (t0 : Nat) (exc : List Rat) : Rat := 8 * peak (priorCycle P t0 exc)

theorem transientLimit_of_pos {P : PlcParams} {t0 : Nat} {exc : List Rat} (h : 0 < peak (priorCycle P t0 exc)) :
    transientLimit P t0 exc
      = exc.take (P.excLen - t0) ++ (lastCycle P t0 exc).map (limitMag (cycleLimit P t0 exc)) := if_pos h

theorem transientLimit_of_not_pos {P : PlcParams} {t0 : Nat} {exc : List Rat}
    (h : ¬ 0 < peak (priorCycle P t0 exc)) : transientLimit P t0 exc = exc := if_neg h

theorem transientClass_of_pos {P : PlcParams} {t0 : Nat} {exc : List Rat} (c : SigClass)
    (h : 0 < peak (priorCycle P t0 exc)) : transientClass P t0 exc c = .transient ↔
      c = .transient ∨ ∃ x ∈ lastCycle P t0 exc, cycleLimit P t0 exc < |x| := by
  have hany : ((lastCycle P t0 exc).any fun x => decide (transRatio * peak (priorCycle P t0 exc) < ratAbs x)) = true ↔
      ∃ x ∈ lastCycle P t0 exc, cycleLimit P t0 exc < |x| := by
    simp only [List.any_eq_true, decide_eq_true_eq, ratAbs_eq_abs, cycleLimit, transRatio]
  simp only [transientClass, h, true_and, hany]
  split
  · next hex => exact iff_of_true rfl (.inr hex)
  · next hex => simp only [hex, or_false]

theorem transientClass_of_not_pos {P : PlcParams} {t0 : Nat} {exc : List Rat} (c : SigClass)
    (h : ¬ 0 < peak (priorCycle P t0 exc)) : transientClass P t0 exc c = c := if_neg fun hp => h hp.1

theorem take_transientLimit {P : PlcParams} {exc : List Rat} (t0 : Nat) (hlen : exc.length = P.excLen) :
    (transientLimit P t0 exc).take (P.excLen - t0) = exc.take (P.excLen - t0) := by
  by_cases h : 0 < peak (priorCycle P t0 exc)
  · rw [transientLimit_of_pos h]
    exact List.take_left' (by simp [hlen])
  · rw [transientLimit_of_not_pos h]

theorem lastCycle_transientLimit {P : PlcParams} {t0 : Nat} {exc : List Rat} (hlen : exc.length = P.excLen)
    (h : 0 < peak (priorCycle P t0 exc)) : lastCycle P t0 (transientLimit P t0 exc)
      = (lastCycle P t0 exc).map (limitMag (cycleLimit P t0 exc)) := by
  rw [transientLimit_of_pos h]
  exact List.drop_left' (by simp [hlen])

/-- Settles O50: the last cycle is limited sample by sample, and the samples before it are kept. -/
theorem transientLimitsTheLastCycle : Obligations.TransientLimitsTheLastCycle := by
  intro P t0 exc c hlen ht0 top out
  refine ⟨fun htop => ?_, fun htop => ⟨transientLimit_of_not_pos htop, transientClass_of_not_pos c htop⟩,
    (length_transientLimit P t0 exc).trans hlen, take_transientLimit t0 hlen⟩
  have hlast : lastCycle P t0 out = (lastCycle P t0 exc).map (limitMag (8 * top)) := lastCycle_transientLimit hlen htop
  refine ⟨fun j hj => ?_, fun x hx => ?_, transientClass_of_pos c htop⟩
  · have hj' : j < (lastCycle P t0 exc).length := by simp [lastCycle]; omega
    have hmap : ((lastCycle P t0 exc).map (limitMag (8 * top))).getD j 0
        = limitMag (8 * top) ((lastCycle P t0 exc).getD j 0) := by simp [hj']
    rw [hlast, hmap]
    exact limitMag_eq _ _
  · rw [hlast] at hx
    obtain ⟨y, -, rfl⟩ := List.mem_map.1 hx
    exact abs_limitMag_le (by linarith) y

end Sys2Proof.Machine

/-! PROOFS. The concealment's synthesis (46_plc_synthesis.md): the attenuation weight, the recovery crossfade, what
re-convergence leaves in each band, and a loss from silence. -/

namespace Sys2Proof.Machine

/-! ### The attenuation weight (46_plc_synthesis.md R386) -/

/-- How far the weight has fallen after `c` samples: the three segments' decrements, summed. -/
def attDrop (P : PlcParams) (cls : SigClass) (c : Nat) : Rat :=
  P.attSlope cls 0 * (min c 80 : Nat) + P.attSlope cls 1 * (min (c - 80) 80 : Nat) + P.attSlope cls 2 * (c - 160 : Nat)

theorem attW_of_lt {P : PlcParams} {cls : SigClass} {c : Nat} (h : c < P.attEnd cls) :
    attW P cls c = max 0 (1 - attDrop P cls c) := if_neg (not_le.2 h)

theorem attW_of_le {P : PlcParams} {cls : SigClass} {c : Nat} (h : P.attEnd cls ≤ c) : attW P cls c = 0 := if_pos h

/-- Up to 80 samples, only the first segment counts. -/
theorem attDrop_of_le_80 (P : PlcParams) (cls : SigClass) {c : Nat} (h : c ≤ 80) :
    attDrop P cls c = P.attSlope cls 0 * c := by
  have h' : c ≤ 160 := h.trans (by decide)
  rw [attDrop, Nat.min_eq_left h, Nat.sub_eq_zero_of_le h, Nat.sub_eq_zero_of_le h']
  simp

/-- From 80 to 160 samples, the first segment is whole and the third has not begun. -/
theorem attDrop_of_le_160 (P : PlcParams) (cls : SigClass) {c : Nat} (h : 80 ≤ c) (h' : c ≤ 160) :
    attDrop P cls c = P.attSlope cls 0 * 80 + P.attSlope cls 1 * (c - 80) := by
  rw [attDrop, Nat.min_eq_right h, Nat.min_eq_left (Nat.sub_le_sub_right h' 80), Nat.sub_eq_zero_of_le h',
    Nat.cast_sub h]
  simp

/-- From 160 samples on, the first two segments are whole. -/
theorem attDrop_of_ge_160 (P : PlcParams) (cls : SigClass) {c : Nat} (h : 160 ≤ c) :
    attDrop P cls c = P.attSlope cls 0 * 80 + P.attSlope cls 1 * 80 + P.attSlope cls 2 * (c - 160) := by
  rw [attDrop, Nat.min_eq_right (show 80 ≤ c by omega), Nat.min_eq_right (Nat.sub_le_sub_right h 80), Nat.cast_sub h]
  rfl

theorem attDrop_mono {P : PlcParams} {cls : SigClass} (hs : ∀ k, 0 ≤ P.attSlope cls k) {c c' : Nat} (h : c ≤ c') :
    attDrop P cls c ≤ attDrop P cls c' := by
  have h0 := hs 0
  have h1 := hs 1
  have h2 := hs 2
  unfold attDrop
  gcongr

theorem attW_antitone {P : PlcParams} {cls : SigClass} (hs : ∀ k, 0 ≤ P.attSlope cls k) {c c' : Nat} (h : c ≤ c') :
    attW P cls c' ≤ attW P cls c := by
  rcases le_or_gt (P.attEnd cls) c' with hend | hend
  · rw [attW_of_le hend]
    exact (attW_mem P cls c hs).1
  · rw [attW_of_lt hend, attW_of_lt (h.trans_lt hend)]
    exact max_le_max le_rfl (sub_le_sub_left (attDrop_mono hs h) 1)

/-- Settles O51: the weight is 1 less the three segments' drop, which only grows, and 0 from the class's end on. -/
theorem attenuationWeight : Obligations.AttenuationWeight := by
  intro P cls c c' hs
  obtain ⟨hlo, hhi⟩ := attW_mem P cls c hs
  refine ⟨hlo, hhi, attW_antitone hs, fun hend => ?_, attW_of_le, fun hend hc => ?_, fun hend hc hc' => ?_,
    fun hend hc => ?_⟩
  · rw [attW_of_lt (Nat.pos_of_ne_zero hend), attDrop_of_le_80 P cls (Nat.zero_le 80)]
    simp
  · rw [attW_of_lt hend, attDrop_of_le_80 P cls hc]
  · rw [attW_of_lt hend, attDrop_of_le_160 P cls hc hc']
  · rw [attW_of_lt hend, attDrop_of_ge_160 P cls hc]

/-! ### The recovery crossfade (46_plc_synthesis.md R389) -/

/-- `PLC_ROUND` does not leave a range between two integers. -/
theorem plcRound_mem {v : Rat} {lo hi : Int} (hlo : (lo : Rat) ≤ v) (hhi : v ≤ hi) :
    lo ≤ Config.plcRound v ∧ Config.plcRound v ≤ hi := by
  obtain ⟨hdown, hup⟩ := Config.plcRound_near v
  have h0 : ((lo - 1 : Int) : Rat) < Config.plcRound v := by push_cast; linarith
  have h1 : (Config.plcRound v : Rat) < ((hi + 1 : Int) : Rat) := by push_cast; linarith
  exact ⟨Int.sub_one_lt_iff.1 (Int.cast_lt.1 h0), Int.lt_add_one_iff.1 (Int.cast_lt.1 h1)⟩

/-- `round16` keeps a sample. -/
theorem round16_ratOf (x : I16) : round16 profile.plc (ratOf x) = x :=
  (congrArg sat16 (Config.plcRound_int x.toInt)).trans (sat16_toInt x)

/-- Two samples mixed: the weight `g` on the first, the rest on the second. -/
def mix (g : Rat) (x y : I16) : I16 := round16 profile.plc (g * ratOf x + (1 - g) * ratOf y)

/-- A mix lies between the two samples: its exact value does, and rounding and saturation keep it there. -/
theorem mix_mem {g : Rat} (h0 : 0 ≤ g) (h1 : g ≤ 1) (x y : I16) :
    min x.toInt y.toInt ≤ (mix g x y).toInt ∧ (mix g x y).toInt ≤ max x.toInt y.toInt := by
  have hx0 : ((min x.toInt y.toInt : Int) : Rat) ≤ ratOf x := Int.cast_le.2 (min_le_left ..)
  have hy0 : ((min x.toInt y.toInt : Int) : Rat) ≤ ratOf y := Int.cast_le.2 (min_le_right ..)
  have hx1 : ratOf x ≤ ((max x.toInt y.toInt : Int) : Rat) := Int.cast_le.2 (le_max_left ..)
  have hy1 : ratOf y ≤ ((max x.toInt y.toInt : Int) : Rat) := Int.cast_le.2 (le_max_right ..)
  obtain ⟨hlo, hhi⟩ := plcRound_mem (v := g * ratOf x + (1 - g) * ratOf y) (lo := min x.toInt y.toInt)
    (hi := max x.toInt y.toInt) (by nlinarith) (by nlinarith)
  have hmix : (mix g x y).toInt = clamp (Config.plcRound (g * ratOf x + (1 - g) * ratOf y)) (-32768) 32767 :=
    toInt_sat16 _
  have := i16_lo x
  have := i16_lo y
  have := i16_hi x
  have := i16_hi y
  rw [hmix, clamp_of_mem _ _ _ (by omega) (by omega)]
  exact ⟨hlo, hhi⟩

theorem mix_one (x y : I16) : mix 1 x y = x := by
  rw [mix, sub_self, zero_mul, add_zero, one_mul, round16_ratOf]

/-- The weight of the decoded sample at a place of the ramp. -/
def rampWeight (pos : Nat) : Rat := ((pos : Rat) - 19) / 60

theorem rampWeight_mem {pos : Nat} (h : 20 ≤ pos) (h' : pos < 80) : 0 ≤ rampWeight pos ∧ rampWeight pos ≤ 1 := by
  have h0 : (20 : Rat) ≤ pos := by exact_mod_cast h
  have h1 : (pos : Rat) ≤ 79 := by exact_mod_cast Nat.le_of_lt_succ h'
  unfold rampWeight
  constructor <;> linarith

theorem xfOut_flat (P : PlcParams) {p : Plc} (rl : I16) (h : p.xfPos < 20) :
    xfOut P p rl = p.xfBuf.getD p.xfPos 0 := if_pos h

theorem xfOut_ramp {p : Plc} (rl : I16) (h : 20 ≤ p.xfPos) :
    xfOut profile.plc p rl = mix (rampWeight p.xfPos) rl (p.xfBuf.getD p.xfPos 0) := by
  have hg : ((p.xfPos - xfFlat + 1 : Nat) : Rat) * xfStep = rampWeight p.xfPos := by
    rw [rampWeight, xfStep, xfFlat, Nat.cast_add, Nat.cast_sub h]
    push_cast
    ring
  simp only [xfOut, hg]
  exact if_neg (not_lt.2 h)

/-- Settles O52: the first 20 samples are the buffer's, and each later one is a mix by its ramp weight. -/
theorem crossfadeSchedule : Obligations.CrossfadeSchedule := by
  intro p rl hpos x out
  refine ⟨xfOut_flat _ rl, xfOut_ramp rl, fun hlast => ?_, ?_⟩
  · have hone : rampWeight p.xfPos = 1 := by rw [hlast, rampWeight]; norm_num
    calc out = mix (rampWeight p.xfPos) rl x := xfOut_ramp rl (by omega)
      _ = rl := by rw [hone, mix_one]
  have hadv : xfAdvance p = { p with
      xfPos := p.xfPos + 1, xfActive := if p.xfPos = 79 then false else p.xfActive } := by
    simp only [xfAdvance, xfLen, Nat.reduceEqDiff]
  rw [← and_assoc]
  refine ⟨?_, hadv⟩
  rcases lt_or_ge p.xfPos 20 with hflat | hramp
  · rw [show out = x from xfOut_flat _ rl hflat]
    exact ⟨min_le_right .., le_max_right ..⟩
  · obtain ⟨h0, h1⟩ := rampWeight_mem hramp hpos
    rw [show out = _ from xfOut_ramp rl hramp]
    exact mix_mem h0 h1 rl x

/-! ### Re-convergence, band by band (46_plc_synthesis.md R395) -/

theorem add16_zero_right (x : I16) : add16 x 0 = x := (congrArg sat16 (add_zero x.toInt)).trans (sat16_toInt x)

theorem mult_zero_right (x : I16) : mult x 0 = 0 := by
  rw [mult, show (0 : I16).toInt = 0 from rfl, mul_zero]
  rfl

/-- With no difference signal in the history, the zero section predicts 0, whatever its order. -/
theorem filtez_eq_zero (P : Profile) {B : Band} (h : ∀ i : Fin 7, B.d[i] = 0) : filtez P B = 0 := by
  have htap : ∀ i : Fin 7, mult (B.b.get i) (add16 (B.d.get i) (B.d.get i)) = 0 := fun i => by
    rw [show B.d.get i = 0 from h i, add16_zero_right, mult_zero_right]
  unfold filtez
  simp only [htap, add16_zero_right]
  exact List.foldl_fixed P.filtezOrder

section Reconvergence

variable (plc : Plc) (det : I16) (B : Band) (hist : List I16) (len : Nat)

theorem reconvOne_d_zero (i : Fin 7) : (reconvOne profile plc det B hist len).d[i] = 0 := by
  rw [reconvOne_d]
  fin_cases i <;> rfl

/-- Each partial reconstruction is half the reconstruction at its place. -/
theorem reconvOne_p_half (i : Fin 3) : ((reconvOne profile plc det B hist len).p[i]).toInt
    = ((reconvOne profile plc det B hist len).r[i]).toInt / 2 := by
  rw [reconvOne_p, reconvOne_r]
  fin_cases i <;> exact toInt_shr16 _ 1

theorem reconvOne_a_leak (i : Fin 2) :
    (reconvOne profile plc det B hist len).a[i.val + 1] = leak B.a[i.val + 1] := by
  simp only [reconvOne_a]
  fin_cases i <;> rfl

theorem reconvOne_b_leak (i : Fin 6) :
    (reconvOne profile plc det B hist len).b[i.val + 1] = leak B.b[i.val + 1] := by
  simp only [reconvOne_b]
  fin_cases i <;> rfl

theorem reconvOne_sz : (reconvOne profile plc det B hist len).sz = 0 :=
  filtez_eq_zero profile (reconvOne_d_zero plc det B hist len)

/-- The prediction is the pole section's alone. -/
theorem reconvOne_s : (reconvOne profile plc det B hist len).s = (reconvOne profile plc det B hist len).sp := by
  calc (reconvOne profile plc det B hist len).s
      = add16 (reconvOne profile plc det B hist len).sp (reconvOne profile plc det B hist len).sz := rfl
    _ = (reconvOne profile plc det B hist len).sp := by rw [reconvOne_sz, add16_zero_right]

theorem reconvOne_step_long (h : 160 < plc.cntH) : (reconvOne profile plc det B hist len).det = det
    ∧ (reconvOne profile plc det B hist len).nb = 0 := by
  obtain ⟨hnb, hdet⟩ := reconvOne_step plc det B hist len
  exact ⟨hdet.trans (if_pos h), hnb.trans (if_pos h)⟩

theorem reconvOne_step_short (h : ¬ 160 < plc.cntH) : (reconvOne profile plc det B hist len).det = B.det
    ∧ (reconvOne profile plc det B hist len).nb = B.nb := by
  obtain ⟨hnb, hdet⟩ := reconvOne_step plc det B hist len
  exact ⟨hdet.trans (if_neg h), hnb.trans (if_neg h)⟩

end Reconvergence

/-- Settles O53: both bands are `reconvOne` of the old ones, field by field, and `Ctx.Ok.reconvDec` keeps the bounds. -/
theorem reconvergeKeepsBounds : Obligations.ReconvergeKeepsBounds := by
  intro p C hC R leak
  refine ⟨hC.reconvDec p, rfl, fun i => ⟨reconvOne_a_leak .., reconvOne_a_leak ..⟩,
    fun i => ⟨reconvOne_b_leak .., reconvOne_b_leak ..⟩,
    (congrArg (·[0]) (reconvOne_a ..) :), (congrArg (·[0]) (reconvOne_a ..) :),
    (congrArg (·[0]) (reconvOne_b ..) :), (congrArg (·[0]) (reconvOne_b ..) :),
    fun i => ⟨reconvOne_d_zero .., reconvOne_d_zero ..⟩,
    (congrArg (·[1]) (reconvOne_r ..) :), (congrArg (·[2]) (reconvOne_r ..) :),
    (congrArg (·[1]) (reconvOne_r ..) :), (congrArg (·[2]) (reconvOne_r ..) :),
    fun i => ⟨reconvOne_p_half .., reconvOne_p_half ..⟩, fun hlong => ?_, fun hshort => ?_,
    reconvOne_sz .., reconvOne_sz .., reconvOne_s .., reconvOne_s ..⟩
  · obtain ⟨hdetL, hnbL⟩ := reconvOne_step_long p detL0 C.L p.histL profile.plc.histLen hlong
    obtain ⟨hdetH, hnbH⟩ := reconvOne_step_long p detH0 C.H p.histH 160 hlong
    exact ⟨hdetL, hnbL, hdetH, hnbH⟩
  · obtain ⟨hdetL, hnbL⟩ := reconvOne_step_short p detL0 C.L p.histL profile.plc.histLen hshort
    obtain ⟨hdetH, hnbH⟩ := reconvOne_step_short p detH0 C.H p.histH 160 hshort
    exact ⟨hdetL, hnbL, hdetH, hnbH⟩

/-! ### Analysis of silence (46_plc_synthesis.md R398) -/

theorem getD_of_forall_eq {α : Type} {xs : List α} {z : α} (h : ∀ x ∈ xs, x = z) (i : Nat) : xs.getD i z = z := by
  rcases lt_or_ge i xs.length with hi | hi
  · rw [List.getD_eq_getElem _ _ hi]
    exact h _ (List.getElem_mem hi)
  · exact List.getD_eq_default _ _ hi

theorem forall_mem_snoc {α : Type} {xs : List α} {z y : α} (h : ∀ x ∈ xs, x = z) (hy : y = z) :
    ∀ x ∈ xs ++ [y], x = z :=
  List.forall_mem_append.2 ⟨h, List.forall_mem_singleton.2 hy⟩

theorem autocorr_zero (n m k : Nat) : autocorr n (List.replicate m 0) k = 0 := by
  simp [autocorr, sumFrom, ratAt_replicate_zero]

theorem windowed_zero (P : PlcParams) (n : Nat) : windowed P (List.replicate n 0) = List.replicate 80 0 := by
  simp [windowed, ratAt_replicate_zero]

/-- Without energy the recursion does not run. -/
theorem levinson_zero (P : PlcParams) (n : Nat) : levinson (lpcCorr P (List.replicate n 0)) 8 = none := by
  have hrr : lpcCorr P (List.replicate n 0) 0 = 0 := by rw [lpcCorr, windowed_zero, autocorr_zero, zero_mul]
  exact if_pos hrr.le

theorem pitchCorr_zero (P : PlcParams) (m t0 : Nat) : pitchCorr P (List.replicate m 0) t0 = 0 := by
  rw [pitchCorr, normCorr, autocorr_zero, signedSq]
  simp

theorem zeroCrossings_zero (P : PlcParams) (n : Nat) : zeroCrossings P (List.replicate n 0) = 0 := by
  simp [zeroCrossings, ratAt_replicate_zero]

theorem peak_zero (m : Nat) : peak (List.replicate m 0) = 0 := by
  induction m with
  | zero => rfl
  | succ m ih => simpa [peak, List.replicate_succ, ratAbs] using ih

theorem transientLimit_zero (P : PlcParams) (t0 m : Nat) :
    transientLimit P t0 (List.replicate m 0) = List.replicate m 0 := by
  refine transientLimit_of_not_pos ?_
  rw [priorCycle, List.drop_replicate, List.take_replicate, peak_zero]
  exact lt_irrefl 0

/-- Silence keeps the base class of a correlation of 0, and its excitation. -/
theorem classify_zero (P : PlcParams) (nbL nbH : I16) (n m t0 : Nat) :
    classify P nbL nbH (List.replicate n 0) (List.replicate m 0) t0 0 = ⟨.weaklyVoiced, List.replicate m 0, t0⟩ := by
  have hbase : baseClass 0 = .weaklyVoiced := if_neg (by norm_num [voicedThrSq])
  have hzc : zcStep P (List.replicate n 0) t0 0 .weaklyVoiced = .weaklyVoiced := by
    simp [zcStep, zeroCrossings_zero, zcThr]
  simp [classify, hbase, downgrade, hzc, transientClass_zero, transientLimit_zero, unvoicedExc]

/-- The synthesis memory and the samples it reads are 0. -/
structure Syn.Silent (S : Syn) : Prop where
  exc : ∀ x ∈ S.exc, x = 0
  synMem : ∀ x ∈ S.synMem, x = 0

/-- What the concealment reads of `PLC` is 0. -/
structure Plc.Silent (p : Plc) : Prop where
  syn : p.syn.Silent
  hbPer : ∀ x ∈ p.hbPer, x = 0

/-- The analysis of a silent history gives silence, keeps the prediction coefficients, and finds no voice. -/
theorem analyse_silent {P : PlcParams} {p : Plc} {n : Nat} (hL : p.histL = List.replicate n 0)
    (hH : ∀ x ∈ p.histH, x = 0) (nbL nbH : I16) :
    (analyse P nbL nbH p).Silent ∧ (analyse P nbL nbH p).lpc = p.lpc
      ∧ (analyse P nbL nbH p).cls = .weaklyVoiced ∧ (analyse P nbL nbH p).xfActive = false := by
  have hu : dcRemove P (p.histL.map ratOf) = List.replicate n 0 := by
    rw [hL, List.map_replicate]
    exact dcFrom_zero _ _
  simp only [analyse, hu, levinson_zero, Option.getD_none, residual_zero, pitchCorr_zero, classify_zero]
  refine ⟨⟨⟨fun x => List.eq_of_mem_replicate, ?_⟩, ?_⟩, rfl, rfl, rfl⟩
  · simp [startEpisode, captureHb, Plc.syn, ratAt_replicate_zero]
  · exact List.forall_mem_append.2 ⟨fun x hx => hH x (List.mem_of_mem_drop hx), fun x => List.eq_of_mem_replicate⟩

/-! ### Concealment of silence (46_plc_synthesis.md R398) -/

theorem round16_zero : round16 profile.plc 0 = 0 := round16_ratOf 0

theorem ltpSample_silent (P : PlcParams) {S : Syn} (h : S.Silent) : ltpSample P S = 0 := getD_of_forall_eq h.exc _

theorem synSample_silent (P : PlcParams) (lpc : List Rat) {S : Syn} (h : S.Silent) : synSample P lpc S = 0 := by
  have hmem : ∀ i, ratAt S.synMem i = 0 := getD_of_forall_eq h.synMem
  simp [synSample, ltpSample_silent P h, lpcSample, hmem, sumFrom]

theorem synNext_silent (P : PlcParams) (lpc : List Rat) {S : Syn} (h : S.Silent) : (synNext P lpc S).Silent where
  exc := forall_mem_snoc (fun x hx => h.exc x (List.mem_of_mem_drop hx)) (ltpSample_silent P h)
  synMem := List.forall_mem_cons.2
    ⟨synSample_silent P lpc h, fun x hx => h.synMem x (List.mem_of_mem_take hx)⟩

/-- What the concealment loop carries, silent so far. -/
structure Conceal.Silent (c : Conceal) : Prop where
  plc : c.plc.Silent
  lo : ∀ x ∈ c.lo, x = 0
  hi : ∀ x ∈ c.hi, x = 0

theorem concealSample_silent {c : Conceal} (h : c.Silent) : (concealSample profile.plc c).Silent where
  plc := ⟨synNext_silent _ _ h.plc.syn, h.plc.hbPer⟩
  lo := forall_mem_snoc h.lo (by rw [synSample_silent _ _ h.plc.syn, mul_zero, round16_zero])
  hi := forall_mem_snoc h.hi (by
    rw [getD_of_forall_eq h.plc.hbPer, show ratOf 0 = 0 from rfl, mul_zero, round16_zero])

theorem makeXfBuffer_silent {p : Plc} (h : p.Silent) : ∀ x ∈ (makeXfBuffer profile.plc p).xfBuf, x = 0 := by
  refine (forN_keeps (fun x : XfRun => x.S.Silent ∧ ∀ y ∈ x.buf, y = 0) (xfSample profile.plc p) ⟨p.syn, []⟩ xfLen
    ⟨h.syn, nofun⟩ fun k x _ hx => ⟨synNext_silent _ _ hx.1, forall_mem_snoc hx.2 ?_⟩).2
  rw [synSample_silent _ _ hx.1, mul_zero, round16_zero]

theorem conceal_silent {p : Plc} (h : p.Silent) (N : Nat) :
    (conceal profile.plc N p).Silent ∧ ∀ x ∈ (conceal profile.plc N p).plc.xfBuf, x = 0 := by
  have hrun := forN_keeps Conceal.Silent (fun _ => concealSample profile.plc) ⟨p, [], []⟩ N ⟨h, nofun, nofun⟩
    fun _ _ _ hc => concealSample_silent hc
  exact ⟨⟨⟨hrun.plc.syn, hrun.plc.hbPer⟩, hrun.lo, hrun.hi⟩, makeXfBuffer_silent ⟨hrun.plc.syn, hrun.plc.hbPer⟩⟩

/-! ### A lost frame from a clean start (46_plc_synthesis.md R398) -/

/-- QMF synthesis of zeros from a zero delay line. -/
theorem qmfRxF_zero : qmfRxF profile Ctx.reset.D 0 0 = ⟨Ctx.reset.D, 0, 0⟩ := rfl

/-- The state that `RESET_DEC` and `PLC_RESET` leave. -/
def State.cleanStart (s : State) : State := s.resetDec.resetPlc profile.plc

section CleanStart

variable (s : State)

theorem State.cleanStart_start : let p := lostStart profile.plc s.cleanStart.dec s.cleanStart.plc
    p.Silent ∧ p.lpc = List.replicate 8 0 ∧ p.cls = .weaklyVoiced ∧ p.xfActive = false :=
  analyse_silent rfl (fun _ => List.eq_of_mem_replicate) _ _

theorem State.cleanStart_conceal : (s.cleanStart.lostConceal profile).Silent
    ∧ ∀ x ∈ (s.cleanStart.lostConceal profile).plc.xfBuf, x = 0 :=
  conceal_silent s.cleanStart_start.1 _

theorem State.cleanStart_line (n : Nat) : (s.cleanStart.lostRunTo profile n).D = Ctx.reset.D := by
  obtain ⟨⟨-, hlo, hhi⟩, -⟩ := s.cleanStart_conceal
  refine forN_keeps (fun r : RxRun => r.D = Ctx.reset.D) _ _ _ rfl fun k r _ hr => ?_
  rw [lostSample, getD_of_forall_eq hlo, getD_of_forall_eq hhi, hr, qmfRxF_zero]

theorem State.cleanStart_out (n : Nat) : s.cleanStart.lostOut profile n = ⟨Ctx.reset.D, 0, 0⟩ := by
  obtain ⟨⟨-, hlo, hhi⟩, -⟩ := s.cleanStart_conceal
  rw [State.lostOut, s.cleanStart_line, getD_of_forall_eq hlo, getD_of_forall_eq hhi, qmfRxF_zero]

theorem State.cleanStart_pcm (hw : s.mem.wf = true) {k : Nat} (hk : k < 2 * s.regs.frameLen) :
    (s.cleanStart.decLost profile).mem.pcm k = 0 := by
  obtain ⟨j, hj⟩ := Nat.even_or_odd' k
  obtain ⟨heven, hodd⟩ := State.lostRunTo_pcm (s := s.cleanStart) profile hw (show j < s.regs.frameLen by omega)
  rw [s.cleanStart_out] at heven hodd
  rcases hj with rfl | rfl
  · exact heven
  · exact hodd

end CleanStart

/-- The `STATUS` bits of `PREV_BFI`, `XF_ACTIVE` and `CLASS` after a lost frame of class `WEAKLY_VOICED`. -/
theorem statusWord_lost (st : Status) {p : Plc} (hbfi : p.prevBfi = true) (hxf : p.xfActive = false)
    (hcls : p.cls = .weaklyVoiced) : statusWord st p &&& 0x1F00#32 = 0x0900#32 := by
  obtain ⟨e, c⟩ := st
  simp only [statusWord, hbfi, hxf, hcls, classNumber]
  cases e <;> decide +revert

/-- Settles O54: the analysis of a silent history is silent, and so is every loop after it. -/
theorem lossFromCleanStart : Obligations.LossFromCleanStart := by
  intro s m q hq hw
  obtain ⟨hconceal, hbuf⟩ := s.cleanStart_conceal
  obtain ⟨-, hlpc, hcls, hxf⟩ := s.cleanStart_start
  obtain ⟨hplc, -⟩ :=
    conceal_frame profile.plc s.regs.frameLen (lostStart profile.plc s.cleanStart.dec s.cleanStart.plc)
  have hlpc' : (s.cleanStart.decLost profile).plc.lpc = List.replicate 8 0 := (congrArg Plc.lpc hplc).trans hlpc
  have hline : ∀ i : Fin 24, (s.cleanStart.decLost profile).dec.D[i] = 0 := fun i =>
    (congrArg (·[i]) (s.cleanStart_line s.regs.frameLen)).trans (Ctx.reset_isReset.line i)
  exact ⟨s.resetDec, s.cleanStart, s.cleanStart.decLost profile, rfl, rfl, exec_decFrame_lost m _ q hq,
    fun k hk => s.cleanStart_pcm hw hk, ⟨Ctx.reset_isReset.low, Ctx.reset_isReset.high, hline⟩,
    fun x hx => List.eq_of_mem_replicate (hlpc' ▸ hx), hconceal.plc.syn.exc, hconceal.plc.hbPer, hbuf,
    statusWord_lost _ rfl ((congrArg Plc.xfActive hplc).trans hxf) ((congrArg Plc.cls hplc).trans hcls)⟩

end Sys2Proof.Machine

/-! PROOFS. Errors (60_exceptions.md): the outcome of each check of a command word, what a step does whatever `STATUS`
holds, and the obligations of that family. -/

namespace Sys2Proof.Machine

/-! ### The checks that the decoder makes (60_exceptions.md R433, the first two) -/

theorem toNat_opcOf (v : Word) : (opcOf v).toNat = v.toNat % 256 := by
  rw [opcOf, BitVec.extractLsb'_toNat, Nat.shiftRight_zero]

/-- The opcodes that 30_encoding.md R147 lists are those without a row in R146. -/
theorem illegalOpcode_iff (o : BitVec 8) : illegalOpcode o.toNat = true ↔ opcRow o = none := by
  revert o; decide

theorem decode_of_illegalOpcode {v : Word} (h : illegalOpcode (v.toNat % 256) = true) :
    decode v = .error .illegalOpc := by
  rw [← toNat_opcOf, illegalOpcode_iff] at h
  unfold decode
  rw [h]

/-- A word with a legal opcode decodes by its row, unless a reserved bit is set. -/
theorem decode_of_legalOpcode {v : Word} (h : ¬ illegalOpcode (v.toNat % 256) = true) :
    ∃ r ∈ opcRows, r.opc.toNat = v.toNat % 256 ∧ decode v =
      if v.toNat / 4096 = 0 then .ok (r.make (lmodeOf v) (hmodeOf v) (lossOf v)) else .error .rsvdBits := by
  rw [← toNat_opcOf, illegalOpcode_iff] at h
  obtain ⟨r, hrow⟩ := Option.ne_none_iff_exists'.1 h
  obtain ⟨hr, hopc⟩ := opcRow_eq_some_iff.1 hrow
  refine ⟨r, hr, by rw [hopc, toNat_opcOf], ?_⟩
  unfold decode
  rw [hrow]
  exact if_congr (rsvOf_eq_zero_iff v) rfl rfl

theorem runCommand_of_decode_error {v : Word} {e : DecodeError} (h : decode v = .error e) (s : State) :
    runCommand v s = .next (s.raiseError (decodeErrCode e)) := by
  unfold runCommand
  rw [h]

/-! ### The checks of the modes (60_exceptions.md R433, the last two) -/

theorem lmodeOf_eq_bits3_iff (v : Word) : lmodeOf v = .bits3 ↔ v.toNat / 256 % 4 = 3 := by
  have hcode : ∀ c : BitVec 2, LMode.ofCode c = .bits3 ↔ c.toNat = 3 := by decide
  rw [lmodeOf, hcode, BitVec.extractLsb'_toNat, Nat.shiftRight_eq_div_pow]

theorem hmodeOf_eq_bits3_iff (v : Word) : hmodeOf v = .bits3 ↔ v.toNat / 1024 % 2 = 1 := by
  have hcode : ∀ c : BitVec 1, HMode.ofCode c = .bits3 ↔ c.toNat = 1 := by decide
  rw [hmodeOf, hcode, BitVec.extractLsb'_toNat, Nat.shiftRight_eq_div_pow]

theorem lmode?_make {r : OpcRow} (hr : r ∈ opcRows) (m : LMode) (h : HMode) (loss : Bool) :
    (r.make m h loss).lmode? = if usesLmode r.opc.toNat then some m else none := by
  fin_cases hr <;> rfl

theorem hmode?_make {r : OpcRow} (hr : r ∈ opcRows) (m : LMode) (h : HMode) (loss : Bool) :
    (r.make m h loss).hmode? = if usesHmode r.opc.toNat then some h else none := by
  fin_cases hr <;> rfl

/-- The machine's profile lacks `INVQ_L[3]` and no other table (30_encoding.md R142). -/
theorem legal_profile_iff (m : LMode) : m.legal profile = true ↔ m ≠ .bits3 := by cases m <;> decide

/-- A row's command has legal modes unless it uses a mode of three bits. -/
theorem wellFormed_make_iff {r : OpcRow} (hr : r ∈ opcRows) (m : LMode) (h : HMode) (loss : Bool) :
    (r.make m h loss).wellFormed profile = true ↔
      ¬ (usesLmode r.opc.toNat = true ∧ m = .bits3) ∧ ¬ (usesHmode r.opc.toNat = true ∧ h = .bits3) := by
  rw [Instr.wellFormed, lmode?_make hr, hmode?_make hr, Bool.and_eq_true]
  refine and_congr ?_ ?_
  · cases usesLmode r.opc.toNat <;> simp [legal_profile_iff]
  · cases usesHmode r.opc.toNat <;> cases h <;> simp [HMode.legal]

/-- A command checks its modes before all else (30_encoding.md R149). -/
theorem exec_of_illegal {i : Instr} (hbad : i.wellFormed profile = false) (s : State) :
    exec i s = .next (s.raiseError .rsvdMode) := by
  cases i with
  | encL m => cases m with
    | bits3 => exact exec_encL_bits3 s
    | _ => cases hbad
  | decL m => cases m with
    | bits3 => exact exec_decL_bits3 s
    | _ => cases hbad
  | encH h => cases h with
    | bits3 => rfl
    | bits2 => cases hbad
  | decH h => cases h with
    | bits3 => rfl
    | bits2 => cases hbad
  | encPair m h | decPair m h | encFrame m h | decFrame m h loss => exact checkModes_of_illegal hbad s _
  | _ => cases hbad

/-- Settles O5: the decoder makes the first two checks, and the row's command the two of its modes. -/
theorem commandChecksInOrder : Obligations.CommandChecksInOrder := by
  intro s v rest hin o fails
  have fails_of : ∀ {e}, runCommand v (s.setInputs rest) = .next ((s.setInputs rest).raiseError e) → fails e :=
    (step_cmdWrite hin).trans
  by_cases hopc : illegalOpcode o = true
  · rw [if_pos hopc]
    exact fails_of (runCommand_of_decode_error (decode_of_illegalOpcode hopc) _)
  obtain ⟨r, hr, ho, hdec⟩ := decode_of_legalOpcode hopc
  rw [if_neg hopc]
  by_cases hrsv : v.toNat / 4096 = 0
  case neg =>
    rw [if_pos hrsv]
    exact fails_of (runCommand_of_decode_error (hdec.trans (if_neg hrsv)) _)
  rw [if_pos hrsv] at hdec
  have hrun := runCommand_of_decode hdec (s.setInputs rest)
  have hwf := wellFormed_make_iff hr (lmodeOf v) (hmodeOf v) (lossOf v)
  rw [ho, lmodeOf_eq_bits3_iff, hmodeOf_eq_bits3_iff] at hwf
  have fails_of_illegal (hbad) : fails .rsvdMode :=
    fails_of (hrun.trans (exec_of_illegal (Bool.eq_false_iff.2 (mt hwf.1 hbad)) _))
  rw [if_neg (not_not.2 hrsv)]
  split_ifs with hl hh
  · exact fails_of_illegal fun ⟨hlegal, _⟩ => hlegal hl
  · exact fails_of_illegal fun ⟨_, hlegal⟩ => hlegal hh
  · obtain ⟨t, ht⟩ := exec_next (r.make (lmodeOf v) (hmodeOf v) (lossOf v)) (s.setInputs rest)
    have hstatus := exec_status ht (hwf.2 ⟨hl, hh⟩)
    exact ⟨_, t, hdec, ht, (step_cmdWrite hin).trans (hrun.trans ht), hstatus⟩

/-! ### A recorded error blocks nothing (60_exceptions.md R432)

Two runs of one access from states that differ in `STATUS` at most end in states that differ in `STATUS` at most. -/

section AnyStatus

variable (st : Status) (s : State)

theorem raiseError_withStatus (e : ErrCode) :
    (s.withStatus st).raiseError e = (s.raiseError e).withStatus (recordError e st) := rfl

/-- No effect reads or writes `STATUS`. -/
theorem effect_withStatus (q : BitVec 6 → I16) (i : Instr) :
    (s.withStatus st).effect q i = (s.effect q i).withStatus st := by
  cases i with
  | decFrame m h loss => cases loss <;> rfl
  | _ => rfl

theorem exec_withStatus (i : Instr) :
    ∃ t st', exec i s = .next t ∧ exec i (s.withStatus st) = .next (t.withStatus st') := by
  cases hwf : i.wellFormed profile with
  | false => exact ⟨_, _, exec_of_illegal hwf s, exec_of_illegal hwf (s.withStatus st)⟩
  | true =>
    obtain ⟨q, hq⟩ := exec_effect hwf
    exact ⟨_, st, hq s, by rw [hq, effect_withStatus]⟩

theorem runCommand_withStatus (v : Word) :
    ∃ t st', runCommand v s = .next t ∧ runCommand v (s.withStatus st) = .next (t.withStatus st') := by
  cases hdec : decode v with
  | error e => exact ⟨_, _, runCommand_of_decode_error hdec s, runCommand_of_decode_error hdec (s.withStatus st)⟩
  | ok i =>
    rw [runCommand_of_decode hdec, runCommand_of_decode hdec]
    exact exec_withStatus st s i

theorem writeTarget_withStatus (v : Word) (w : Target) : writeTarget v (s.withStatus st) w =
    (writeTarget v s w).withStatus (if w = .reg .status then writeStatus v st else st) := by
  cases w with
  | reg r => cases r <;> rfl
  | _ => rfl

theorem readTarget_withStatus {w : Target} (hw : w ≠ .reg .status) :
    readTarget (s.withStatus st) w = readTarget s w := by
  cases w with
  | reg r => exact readReg_of_regs (s := s) (t := s.withStatus st) rfl fun hr => hw (congrArg _ hr)
  | _ => rfl

/-- Only one access reads `STATUS`. -/
theorem eq_statusRead {o : BitVec 14} {w : Width} (hok : accessOk o w = true) (ht : targetAt o.toNat = .reg .status) :
    HostInput.read o w = .read 0x008#14 .w32 := by
  obtain ⟨rfl, -⟩ := accessOk_eq_true hok
  rw [show o = 0x008#14 from BitVec.eq_of_toNat_eq (targetAt_eq_reg ht)]

theorem hostRead_withStatus {o : BitVec 14} {w : Width} (hx : HostInput.read o w ≠ .read 0x008#14 .w32) :
    ∃ st', hostRead o w (s.withStatus st) = (hostRead o w s).withStatus st' := by
  unfold hostRead
  split
  case isTrue hok =>
    rw [readTarget_withStatus st s fun ht => hx (eq_statusRead hok ht)]
    exact ⟨st, rfl⟩
  case isFalse => exact ⟨recordError .bus st, rfl⟩

theorem hostWrite_withStatus (o : BitVec 14) (w : Width) (v : Word) :
    ∃ t st', hostWrite o w v s = .next t ∧ hostWrite o w v (s.withStatus st) = .next (t.withStatus st') := by
  unfold hostWrite
  split
  · split
    · exact runCommand_withStatus st s v
    · exact ⟨_, _, rfl, congrArg _ (writeTarget_withStatus st s v _)⟩
  · exact ⟨_, _, rfl, congrArg _ (raiseError_withStatus st s .bus)⟩

theorem serve_withStatus {x : HostInput} (hx : x ≠ .read 0x008#14 .w32) :
    ∃ t st', serve x s = .next t ∧ serve x (s.withStatus st) = .next (t.withStatus st') := by
  cases x with
  | read o w =>
    obtain ⟨st', hread⟩ := hostRead_withStatus st s hx
    exact ⟨_, st', rfl, congrArg _ hread⟩
  | write o w v => exact hostWrite_withStatus st s o w v
  | powerOnReset => exact ⟨_, ⟨false, 0⟩, rfl, rfl⟩

theorem step_withStatus (hx : s.bus.inputs.head? ≠ some (.read 0x008#14 .w32)) :
    ∃ t st', step s = .next t ∧ step (s.withStatus st) = .next (t.withStatus st') := by
  cases hin : s.bus.inputs with
  | nil => exact ⟨s, st, step_of_no_inputs hin, step_of_no_inputs (s := s.withStatus st) hin⟩
  | cons x rest =>
    rw [step_of_inputs s x rest hin, step_of_inputs (s.withStatus st) x rest hin]
    exact serve_withStatus st (s.setInputs rest) fun he => hx (by rw [hin, he, List.head?_cons])

end AnyStatus

/-- A `STATUS` write with bit 1 (10_state.md R43). -/
theorem writeStatus_of_bit_set {v : Word} (st : Status) (hv : v.toNat / 2 % 2 = 1) : writeStatus v st = ⟨false, 0⟩ := by
  have hbit : v.getLsbD 1 = true := by
    rw [BitVec.getLsbD, Nat.testBit_eq_decide_div_mod_eq, decide_eq_true_iff]
    exact hv
  rw [writeStatus, if_pos hbit]

/-- Settles O6: but for a read of `STATUS`, which returns the word of the status it finds, a step is the same under
every status. -/
theorem errorRecording : Obligations.ErrorRecording := by
  refine ⟨fun e s => rfl, fun s v rest hin hv => ?_, fun s t st h => ?_⟩
  · rw [step_writeReg (r := .status) nofun hin, writeReg, State.clearError, writeStatus_of_bit_set _ hv]
    rfl
  by_cases hx : s.bus.inputs.head? = some (.read 0x008#14 .w32)
  · obtain ⟨rest, hin⟩ := List.head?_eq_some_iff.1 hx
    obtain rfl := Host.Outcome.next.inj ((step_readReg (r := .status) hin).symm.trans h)
    exact ⟨st, _, step_readReg (s := s.withStatus st) (r := .status) hin, (if_pos hx).symm⟩
  · obtain ⟨u, st', hu, hstep⟩ := step_withStatus st s hx
    obtain rfl := Host.Outcome.next.inj (hu.symm.trans h)
    exact ⟨st', _, hstep, (if_neg hx).symm⟩

end Sys2Proof.Machine

/-! PROOFS. Power-on reset (70_reset_and_hazards.md): what the reset input leaves, that the state it leaves is within
every range that the steps keep, and the obligations of that family. -/

namespace Sys2Proof.Machine

/-! ### What the reset input leaves (70_reset_and_hazards.md R470) -/

/-- The reset input is taken off the host's list like any access; what it overwrites does not depend on it. -/
theorem step_powerOnReset {s : State} {rest : List HostInput} (h : s.bus.inputs = .powerOnReset :: rest) :
    step s = .next (s.setInputs rest).powerOn := step_of_inputs s _ _ h

/-- `STATUS` shows the class and the flags of the PLC state too, and these are at their reset values. -/
theorem readReg_reset_of_ne {r : HostReg} (hid : r ≠ .id) (hlen : r ≠ .frameLen) : readReg State.reset r = 0 := by
  cases r with
  | id => exact absurd rfl hid
  | frameLen => exact absurd rfl hlen
  | _ => rfl

/-- Settles O16: the reset input leaves the state in which the machine starts; the contexts and the PLC state in it are
those that the reset commands write, so that `RESET_ALL` leaves it as it is. -/
theorem powerOnReset : Obligations.PowerOnReset :=
  ⟨fun _ _ hin => step_powerOnReset hin, rfl, rfl, fun _ => readReg_reset_of_ne, rfl, Ctx.reset_isReset,
    Ctx.reset_isReset, Plc.reset_isReset profile.plc, Memory.get_nil, rfl⟩

/-! ### The reset state is within every range (10_state.md R43, R44, R56) -/

theorem Regs.reset_ok : Regs.reset.Ok := ⟨by decide, by decide⟩

theorem Status.noError_ok : Status.Ok ⟨false, 0⟩ := ⟨fun _ => rfl, nofun⟩

/-- Settles O59: part by part; the parts that a reset command also writes are in range by the lemmas that say so of the
command. -/
theorem resetStateIsOk : Obligations.ResetStateIsOk where
  regs := Regs.reset_ok
  status := Status.noError_ok
  enc := Ctx.reset_ok
  dec := Ctx.reset_ok
  plc := Plc.reset_ok
  mem := Memory.wf_nil
  buffers := rfl

end Sys2Proof.Machine
